-- ==== Sys2Proof/Word.lean ====
section
/-!
DEFINITION. The machine's word types (10_state.md rule R30, 20_memory.md rules R100 and R102): a bus word, an element
byte, a CRC, and a bus byte address.
-/

namespace Sys2Proof

/-- A 32-bit register or bus word (rules R30, R103). -/
abbrev Word := BitVec 32

/-- A byte element: CODE, SIG, PK, BYTES, F_TYPE, F_MSG (rule R102). -/
abbrev Byte := BitVec 8

/-- A CRC-16 value (rule R200). -/
abbrev Crc := BitVec 16

/-- A byte address of the one address space, 2^24 bytes (rule R100). -/
abbrev Addr := BitVec 24

end Sys2Proof
end

