-- ==== Sys2Proof/Config.lean ====
section
/-!
DEFINITION. What an implementation fixes and the spec leaves open: the parameters of 00_scope.md rule R8 with the
constraints of rule R9, the real-valued steps NUMERICS of rule R12, and the draws of 93_implementation_defined.md I1 to
I3. None of it is state (10_state.md rule R72). Every open value is an opaque constant with no body: no proof can see
which value it has. The parameters and NUMERICS of this block stand in Machine/Configuration.lean, with what the spec
requires of the two together.
-/

namespace Sys2Proof

/-- The parameters of rule R8, durations in samples. AMP, ABS_FLOOR and SILENT_PEAK are reals of the spec, rationals
here (log entry 2, DESIGN CHOICE). -/
structure Params where
  /-- FS, samples per second. -/
  fs : Nat
  /-- TONE_N, duration of a data tone. -/
  toneN : Nat
  /-- GAP_N, silent gap after a data tone. -/
  gapN : Nat
  /-- PRE_N, duration of a preamble tone. -/
  preN : Nat
  /-- PRE_CYCLES, low/high preamble cycles. -/
  preCycles : Nat
  /-- POST_N, duration of the postamble tone. -/
  postN : Nat
  /-- F_LO, low sentinel frequency in Hz. -/
  fLo : Nat
  /-- F_HI, high sentinel frequency in Hz. -/
  fHi : Nat
  /-- FADE_N, length of each linear fade. -/
  fadeN : Nat
  /-- AMP, peak amplitude of a synthesised tone. -/
  amp : Rat
  /-- SETTLE_N, settle period skipped at the start of a data tone. -/
  settleN : Nat
  /-- NOISE_N, noise-floor estimation span. -/
  noiseN : Nat
  /-- ONSET_WIN_N, onset energy window. -/
  onsetWinN : Nat
  /-- ONSET_STRIDE_N, onset window stride. -/
  onsetStrideN : Nat
  /-- ABS_FLOOR, absolute onset energy floor. -/
  absFloor : Rat
  /-- SILENT_PEAK, the peak at or below which normalisation is skipped. -/
  silentPeak : Rat
  /-- PRE_BACKOFF_N, how far before the onset the preamble search starts. -/
  preBackoffN : Nat
  /-- SEARCH_SPAN_N, span of candidate preamble starts. -/
  searchSpanN : Nat
  /-- SEARCH_STEP_N, distance between candidates. -/
  searchStepN : Nat
  /-- MAXB, capacity of BYTES and EPOS. -/
  maxB : Nat
  /-- PCM_MAX, capacity of PCM in samples. -/
  pcmMax : Nat
deriving DecidableEq, Repr, Inhabited

namespace Params

/-- F_POST = F_HI (rule R8, 92_eei_decisions.md D53). -/
def fPost (p : Params) : Nat := p.fHi

/-- STEP = TONE_N + GAP_N (rule R10). -/
def stepN (p : Params) : Nat := p.toneN + p.gapN

/-- PRE_LEN = 2 x PRE_CYCLES x PRE_N (rule R10). -/
def preLen (p : Params) : Nat := 2 * p.preCycles * p.preN

/-- W = TONE_N - SETTLE_N, the analysed samples of a slot (rule R10). -/
def windowN (p : Params) : Nat := p.toneN - p.settleN

/-- NTONES(N), entries of the timeline of N bytes (43_modulator.md rule R306). -/
def nTones (p : Params) (n : Nat) : Nat := 2 * p.preCycles + 2 * n + 1

/-- LMOD(N), samples of the transmission of N bytes (43_modulator.md rule R306). -/
def lMod (p : Params) (n : Nat) : Nat := p.preLen + 2 * n * p.stepN + p.postN

/-- TMAX = 2 x PRE_CYCLES + 2 x MAXB + 1, the tone-list capacity (rule R10). -/
def tMax (p : Params) : Nat := 2 * p.preCycles + 2 * p.maxB + 1

/-- The constraints of rule R9. A configuration that breaks one is not a configuration of this hardware. -/
abbrev Valid (p : Params) : Prop :=
  (1 ≤ p.fs ∧ 1 ≤ p.toneN ∧ 1 ≤ p.preN ∧ 1 ≤ p.postN ∧ 1 ≤ p.preCycles ∧ 1 ≤ p.fadeN ∧ 1 ≤ p.noiseN ∧
    1 ≤ p.onsetWinN ∧ 1 ≤ p.onsetStrideN ∧ 1 ≤ p.searchStepN) ∧
  (p.fLo < 1000 ∧ 4000 < p.fHi ∧ 0 < p.fLo ∧ 2 * p.fHi < p.fs) ∧
  (2 * p.fadeN ≤ p.toneN ∧ 2 * p.fadeN ≤ p.preN ∧ p.toneN < p.postN) ∧
  p.settleN + 2 ≤ p.toneN ∧
  (0 < p.amp ∧ p.amp ≤ 1 ∧ 0 < p.absFloor ∧ 0 ≤ p.silentPeak) ∧
  (120 ≤ p.maxB ∧ p.maxB ≤ 16384 ∧ p.lMod p.maxB ≤ p.pcmMax ∧ p.pcmMax ≤ 2 ^ 21 ∧ p.tMax ≤ 65536)

/-- EX1, the spec's example configuration (rule R8, 92_eei_decisions.md D30). -/
def ex1 : Params where
  fs := 44100
  toneN := 1764
  gapN := 441
  preN := 4410
  preCycles := 4
  postN := 8820
  fLo := 500
  fHi := 4500
  fadeN := 132
  amp := 4 / 5
  settleN := 220
  noiseN := 4410
  onsetWinN := 882
  onsetStrideN := 220
  absFloor := 1 / 10000
  silentPeak := 1 / 1000
  preBackoffN := 882
  searchSpanN := 88200
  searchStepN := 1
  maxB := 256
  pcmMax := 2097152

end Params

/-- NUMERICS (rules R8, R12): every real-valued result of the block as a function of its inputs. Internal values are
rationals (every value of a finite-precision format is one; log entry 3). 44_demodulator.md rule R355: a comparison is
made on these internal values, before rounding for storage. -/
structure Numerics where
  /-- Sample t of the transmission of some bytes, as stored in PCM (rule R313). -/
  synth : List Byte → Nat → Word
  /-- The internal value an infinity or a NaN in PCM stands for (93_implementation_defined.md I7). -/
  nonFinite : Word → Rat
  /-- The peak of a capture (rule R358). -/
  peak : List Rat → Rat
  /-- One sample divided by the peak (rule R358). -/
  normalise : Rat → Rat → Rat
  /-- Mean square over the noise-floor span (rule R359). -/
  noise : List Rat → Rat
  /-- Mean square over an onset window (rule R360). -/
  windowEnergy : List Rat → Rat
  /-- Unwindowed Goertzel energy at a frequency in Hz (rules R352, R365). -/
  sentinelEnergy : List Rat → Nat → Rat
  /-- Hann-windowed Goertzel energy at a frequency in Hz (rules R352, R353, R371). -/
  toneEnergy : List Rat → Nat → Rat
  /-- Discrimination ratio of two energies (rule R354). -/
  ratio : Rat → Rat → Rat
  /-- Sum of the ratios of a candidate (rule R366). -/
  scoreSum : List Rat → Rat
  /-- Mean of the nibble confidences (rule R377). -/
  mean : List Rat → Rat
deriving Inhabited

/-- The kinds of comparison that detection makes on real values (44_demodulator.md rules R358, R361, R366, R367, R372,
R373). -/
inductive Comparison where
  /-- The peak against SILENT_PEAK. -/
  | silence
  /-- A window's energy against ONSET_K times the noise floor. -/
  | onset
  /-- A window's energy against ABS_FLOOR. -/
  | absFloor
  /-- The scores of two candidates. -/
  | score
  /-- The best score against PRE_THRESH x 2C. -/
  | acceptance
  /-- The energies of two bins of a slot. -/
  | bin
  /-- A nibble's confidence against CONF_THRESH. -/
  | confidence
deriving DecidableEq, Repr

namespace Config

/-- The value of draw number `n` at bus byte address `a`: what an element holds after power-on, what a read answers
while BUSY, and what an aborted command leaves in an element it could write (93_implementation_defined.md I1, I2, I3;
log entries 7, 8, 9). -/
opaque draw : Nat → Nat → Word

end Config

end Sys2Proof
end

