-- ==== Sys2Proof/Machine/State.lean ====
section
/-!
DEFINITION. The state of the block as plain data: every register and memory of 10_state.md (rules R30 to R69), the
sequencer's phase, and the model's own fields (the agenda, the log of read values, the draw counters). The parameters,
CAP_* and NUMERICS are not state (rule R72); BUSY, ERRF and IRQ are computed from the fields below (rules R36, R71).
-/

namespace Sys2Proof.Machine

/-- The error codes of 60_exceptions.md rule R450. Codes 6 to 255 are never written. -/
inductive ErrCode where
  /-- NONE (0): completed without error. -/
  | none
  /-- ILLEGAL_CMD (1): the command word is not legal. -/
  | illegalCmd
  /-- BAD_LENGTH (2): a length register exceeds a capacity (TONES, MOD, DEMOD). -/
  | badLength
  /-- LENGTH_MISMATCH (3): PACKF's declared lengths. -/
  | lengthMismatch
  /-- TRUNCATED_FRAME (4): UNPACKF's BLEN. -/
  | truncatedFrame
  /-- CHECKSUM_MISMATCH (5): UNPACK.S. -/
  | checksumMismatch
deriving DecidableEq, Repr

/-- DM_SYNC, the outcome of the last DEMOD's synchronisation (rule R54). -/
inductive Sync where
  /-- NONE (0): no DEMOD has completed since reset. -/
  | none
  /-- LOCATED (1). -/
  | located
  /-- FALLBACK (2). -/
  | fallback
  /-- NOSIGNAL (3). -/
  | noSignal
deriving DecidableEq, Repr

/-- The sequencer's phase (rule R69): IDLE, or BUSY(c) with c the command word being executed. -/
inductive Phase where
  | idle
  | busy (c : Word)
deriving DecidableEq, Repr

/-- An entry of TONES: three u32 fields (rule R66). -/
structure ToneEntry where
  freq : Word
  start : Word
  dur : Word
deriving DecidableEq, Repr

/-- One turn of the interleaving of 45_control.md rule R420: a host access, the sequencer's completion, or a power-on
reset by the platform (rule R500). A soft reset is a host write to CTRL. -/
inductive Turn where
  /-- The host reads the word at `a`. -/
  | hostRead (a : Addr)
  /-- The host writes `v` to the word at `a`. -/
  | hostWrite (a : Addr) (v : Word)
  /-- The sequencer completes the running command, if there is one. -/
  | sequencer
  /-- The platform asserts power-on reset. -/
  | powerOn
deriving DecidableEq, Repr

/-- The reasons the machine stops with a fault. There is none: no access faults, an unmapped word reads 0 and ignores
writes, and an error is a completion status (rules R104, R105, R108, R455). -/
inductive Fault where
deriving DecidableEq, Repr

/-- The reasons the machine refuses. -/
inductive Refusal where
  /-- Raised by an arm of `exec` that has no meaning yet; safe. No arm of this model raises it. -/
  | notModelled (mnemonic : String)
deriving DecidableEq, Repr

/-- The state of the block. A memory lists its elements written since power-on, by rising index; an element not listed
holds its power-on draw. -/
structure State where
  /-- The sequencer's phase (rule R69). -/
  phase : Phase
  /-- CTRL.IRQ_EN (rule R35). -/
  irqEn : Bool
  /-- STATUS.DONE (rule R36). -/
  done : Bool
  /-- STATUS.CRC_OK (rule R36). -/
  crcOk : Bool
  /-- STATUS.OVR (rule R36). -/
  ovr : Bool
  /-- LASTCMD, what a read of CMD returns (rule R37). -/
  lastCmd : Word
  /-- ERR (rule R38). -/
  err : ErrCode
  /-- CRC_RES, bits 15:0 (rule R39). -/
  crcRes : Crc
  /-- F_TYPE (rule R40). -/
  fType : Byte
  /-- F_SEV (rule R41). -/
  fSev : Word
  /-- F_LAT (rule R42). -/
  fLat : Word
  /-- F_LON (rule R43). -/
  fLon : Word
  /-- F_POP (rule R44). -/
  fPop : Word
  /-- F_MSGLEN (rule R45). -/
  fMsgLen : Byte
  /-- F_MSG[0..7] (rule R46). -/
  fMsg : Vector Byte 8
  /-- CODE_LEN (rule R47). -/
  codeLen : Word
  /-- SIG_LEN (rule R48). -/
  sigLen : Word
  /-- PK_LEN (rule R49). -/
  pkLen : Word
  /-- BLEN (rule R50). -/
  bLen : Word
  /-- RX_LEN (rule R51). -/
  rxLen : Word
  /-- PCM_LEN (rule R52). -/
  pcmLen : Word
  /-- TONE_CNT (rule R53). -/
  toneCnt : Word
  /-- DM_SYNC (rule R54). -/
  dmSync : Sync
  /-- DM_ONSET (rule R55). -/
  dmOnset : Word
  /-- DM_START (rule R56). -/
  dmStart : Word
  /-- DM_SCORE, a binary32 pattern (rule R57). -/
  dmScore : Word
  /-- DM_CONF, a binary32 pattern (rule R58). -/
  dmConf : Word
  /-- DM_ERRCNT (rule R59). -/
  dmErrCnt : Word
  /-- CODE[0..23] (rule R60). -/
  code : List Host.Cell
  /-- SIG[0..63] (rule R61). -/
  sig : List Host.Cell
  /-- PK[0..31] (rule R62). -/
  pk : List Host.Cell
  /-- BYTES[0..MAXB-1] (rule R63). -/
  bytes : List Host.Cell
  /-- EPOS[0..MAXB-1], u32 (rule R64). -/
  epos : List (Nat × Word)
  /-- NCONF[0..2 x MAXB-1], binary32 patterns (rule R65). -/
  nconf : List (Nat × Word)
  /-- TONES[0..TMAX-1] (rule R66). -/
  tones : List (Nat × ToneEntry)
  /-- PCM[0..PCM_MAX-1], binary32 patterns (rule R67). -/
  pcm : List (Nat × Word)
  /-- The model's own: the turns to come, next first (rule R420; log entry 10). -/
  agenda : List Turn
  /-- The model's own: what the host's reads have returned, latest first (log entry 11). -/
  readLog : List Word
  /-- The model's own: the number of the next draw (log entry 7). -/
  draws : Nat
  /-- The model's own: the number of the draw that filled the memories at power-on (log entry 7). -/
  powerOnDraw : Nat
deriving DecidableEq, Repr

/-- The machine right after power-on reset (70_reset_and_hazards.md rule R500): every register at its reset value
(rule R30), no memory element written, nothing on the agenda. -/
def State.reset : State where
  phase := .idle
  irqEn := false
  done := false
  crcOk := false
  ovr := false
  lastCmd := 0
  err := .none
  crcRes := 0
  fType := 0
  fSev := 0
  fLat := 0
  fLon := 0
  fPop := 0
  fMsgLen := 0
  fMsg := #v[0, 0, 0, 0, 0, 0, 0, 0]
  codeLen := 24
  sigLen := 64
  pkLen := 32
  bLen := 0
  rxLen := 0
  pcmLen := 0
  toneCnt := 0
  dmSync := .none
  dmOnset := 0
  dmStart := 0
  dmScore := 0
  dmConf := 0
  dmErrCnt := 0
  code := []
  sig := []
  pk := []
  bytes := []
  epos := []
  nconf := []
  tones := []
  pcm := []
  agenda := []
  readLog := []
  draws := 1
  powerOnDraw := 0

end Sys2Proof.Machine
end

