-- ==== Sys2Proof/Machine/Crc.lean ====
section
/-!
DEFINITION. The CRC-16 generator (40_crc.md rule R200): CRC-16/CCITT-FALSE, polynomial 0x1021, initial value 0xFFFF, most
significant bit first, no reflection, no final XOR.
-/

namespace Sys2Proof.Machine

/-- One of the eight shifts of a byte (rule R200). -/
def crcBit (crc : Crc) : Crc := if crc.getLsbD 15 then (crc <<< 1) ^^^ 0x1021#16 else crc <<< 1

/-- One byte of the message (rule R200). -/
def crcByte (crc : Crc) (b : Byte) : Crc :=
  crcBit (crcBit (crcBit (crcBit (crcBit (crcBit (crcBit (crcBit (crc ^^^ (b.setWidth 16 <<< 8)))))))))

/-- `crc16` of a byte sequence (rule R200). -/
def crc16 (bs : List Byte) : Crc := bs.foldl crcByte 0xFFFF#16

end Sys2Proof.Machine
end

