-- ==== Sys2Proof/Syntax.lean ====
section
/-!
DEFINITION. The commands of the block (30_encoding.md rule R141): one constructor per row of spec/opcode_table.json. A
command carries no operands: every operand is a fixed register or memory (rule R144).
-/

namespace Sys2Proof

/-- The ten commands, in the table's order. -/
inductive Instr where
  /-- CRC (rule R202). -/
  | crc
  /-- VERIFY (rule R203). -/
  | verify
  /-- PACK (rule R236). -/
  | pack
  /-- UNPACK.L, the lenient checksum mode (rule R241). -/
  | unpackL
  /-- UNPACK.S, the strict checksum mode (rule R242). -/
  | unpackS
  /-- PACKF (rule R262). -/
  | packf
  /-- UNPACKF (rule R263). -/
  | unpackf
  /-- TONES (rule R308). -/
  | tones
  /-- MOD (rule R315). -/
  | mod
  /-- DEMOD (rule R380). -/
  | demod
deriving DecidableEq, Repr

/-- The three fields of a command word (rule R140): OP in bits 7:0, S in bit 8, RES in bits 31:9. -/
structure CommandFields where
  op : Byte
  strict : Bool
  reserved : BitVec 23
deriving DecidableEq, Repr

/-- The host's mnemonic of a command (rule R141). -/
def Instr.mnemonic : Instr → String
  | .crc => "CRC"
  | .verify => "VERIFY"
  | .pack => "PACK"
  | .unpackL => "UNPACK.L"
  | .unpackS => "UNPACK.S"
  | .packf => "PACKF"
  | .unpackf => "UNPACKF"
  | .tones => "TONES"
  | .mod => "MOD"
  | .demod => "DEMOD"

end Sys2Proof
end

