-- ==== Sys2Proof/WellFormed.lean ====
section
/-!
DEFINITION. When the fields of a command word make a legal command (30_encoding.md rules R140, R142, R143), check by
check, and the fields each command stands for (rule R141). A command of `Instr` has no operand that could be ill
formed, so `Instr.WellFormed` says that its fields pass every check.
-/

namespace Sys2Proof

/-- RES, bits 31:9, must be 0 (rules R140, R143). -/
def CommandFields.reservedOk (f : CommandFields) : Bool := f.reserved == 0

/-- OP = 0x00 and OP = 0x0A..0xFF are reserved and illegal (rule R143). -/
def CommandFields.opOk (f : CommandFields) : Bool := decide (1 ≤ f.op.toNat) && decide (f.op.toNat ≤ 9)

/-- S = 1 is legal with OP = 0x04 only (rules R140, R143). -/
def CommandFields.strictOk (f : CommandFields) : Bool := !f.strict || f.op == 4

/-- The three checks together: the command word is legal (rule R142). -/
def CommandFields.legal (f : CommandFields) : Bool := f.reservedOk && f.opOk && f.strictOk

/-- The OP and S of each command (rule R141). -/
def Instr.fields : Instr → CommandFields
  | .crc => ⟨1, false, 0⟩
  | .verify => ⟨2, false, 0⟩
  | .pack => ⟨3, false, 0⟩
  | .unpackL => ⟨4, false, 0⟩
  | .unpackS => ⟨4, true, 0⟩
  | .packf => ⟨5, false, 0⟩
  | .unpackf => ⟨6, false, 0⟩
  | .tones => ⟨7, false, 0⟩
  | .mod => ⟨8, false, 0⟩
  | .demod => ⟨9, false, 0⟩

/-- A command is well formed when its fields are those of a legal command word. -/
abbrev Instr.WellFormed (i : Instr) : Prop := i.fields.legal = true

end Sys2Proof
end

