-- ==== Sys2Proof/Decode.lean ====
section
/-!
DEFINITION. Decoding a command word, total on every 32-bit value and rejecting by name (30_encoding.md rules R140 to
R143), and the encoder beside it (rule R151).
-/

namespace Sys2Proof

/-- Why a command word is not legal. Each of these completes with the error ILLEGAL_CMD (rules R142, R450): an illegal
word is no refusal of the machine. -/
inductive DecodeError where
  /-- A bit of RES, bits 31:9, is set. -/
  | reservedBits
  /-- OP is 0x00 or 0x0A..0xFF. -/
  | reservedOp
  /-- S = 1 with an OP other than 0x04. -/
  | strictNotAllowed
deriving DecidableEq, Repr

/-- The fields of a command word (rule R140). -/
def CommandFields.ofWord (w : Word) : CommandFields :=
  ⟨w.extractLsb' 0 8, w.getLsbD 8, w.extractLsb' 9 23⟩

/-- The command word with the given fields (rule R140). -/
def CommandFields.toWord (f : CommandFields) : Word :=
  f.reserved ++ BitVec.ofBool f.strict ++ f.op

/-- The command with operation code `op` and checksum mode `strict` (rules R141, R143). -/
def decodeOp (op : Nat) (strict : Bool) : Except DecodeError Instr :=
  match op, strict with
  | 1, false => .ok .crc
  | 2, false => .ok .verify
  | 3, false => .ok .pack
  | 4, false => .ok .unpackL
  | 4, true => .ok .unpackS
  | 5, false => .ok .packf
  | 6, false => .ok .unpackf
  | 7, false => .ok .tones
  | 8, false => .ok .mod
  | 9, false => .ok .demod
  | n, s => if s && decide (1 ≤ n) && decide (n ≤ 9) then .error .strictNotAllowed else .error .reservedOp

/-- Decode of a command's fields (rule R142). -/
def decodeFields (f : CommandFields) : Except DecodeError Instr :=
  if f.reserved = 0 then decodeOp f.op.toNat f.strict else .error .reservedBits

/-- Decode of a command word (rule R142). -/
def decode (w : Word) : Except DecodeError Instr := decodeFields (CommandFields.ofWord w)

/-- The command word of a command (rule R151). -/
def encode (i : Instr) : Word := i.fields.toWord

/-- What the decoder reads from an instruction of `nbits` bits whose bits are `w`; the bits above `nbits` are 0. A
command is one 32-bit bus word, so it has no byte order (rules R107, R140). -/
def decodeTableWord (nbits w : Nat) : Option Instr :=
  match decode (BitVec.ofNat 32 (w % 2 ^ nbits)) with
  | .ok i => some i
  | .error _ => none

end Sys2Proof
end

