-- ==== Sys2Proof/Machine/Numerics.lean ====
section
/-!
DEFINITION. Binary32 patterns (20_memory.md rule R102), `round32` (00_scope.md rule R12) and the block's real-valued
steps: NUMERICS (rule R12) with the values the spec states for every implementation put in (an all-zero sequence has
peak, noise floor and energies 0 and a zero sample stays 0 when scaled, the ratio of two zero energies is 0, the mean of
zeros is 0, rules R352, R354, R358, R359, R375, R382; a synthesised sample lies in [-AMP, AMP], rule R313). Everything
else about them is free (log entries 3, 4, 6), but for what Machine/Configuration.lean requires.
-/

namespace Sys2Proof.Machine

/-- The fraction field, bits 22:0 (rule R102). -/
def f32Fraction (w : Word) : Nat := (w.extractLsb' 0 23).toNat

/-- The biased exponent, bits 30:23 (rule R102). -/
def f32Exponent (w : Word) : Nat := (w.extractLsb' 23 8).toNat

/-- The pattern of an infinity or a NaN: exponent all ones (rule R102). -/
def f32NonFinite (w : Word) : Bool := f32Exponent w == 255

/-- The magnitude of a finite pattern, in units of 2^-149 (rule R102). -/
def f32Units (w : Word) : Nat :=
  if f32Exponent w = 0 then f32Fraction w else (2 ^ 23 + f32Fraction w) * 2 ^ (f32Exponent w - 1)

/-- The value of a finite pattern (rule R102). -/
def f32Value (w : Word) : Rat := mkRat (if w.getLsbD 31 then -(f32Units w : Int) else f32Units w) (2 ^ 149)

/-- The integer nearest to `n / d`, of two nearest ones the even one (rule R12). -/
def nearestEven (n d : Nat) : Nat :=
  if 2 * (n % d) < d then n / d
  else if d < 2 * (n % d) then n / d + 1
  else n / d + n / d % 2

/-- Bits 30:0 of the binary32 pattern nearest to the magnitude `n / d`. In units of 2^-149 the patterns whose exponent
field is `e + 1`, and for `e = 0` the subnormal ones too, are the multiples of `2^e`; a carry out of the fraction is the
next exponent. A magnitude that rounds beyond the greatest finite value gives an infinity (log entry 23). -/
def f32Magnitude (n d : Nat) : Nat :=
  let e := Nat.log2 (n * 2 ^ 149 / d) - 23
  min (e * 2 ^ 23 + nearestEven (n * 2 ^ 149) (d * 2 ^ e)) (255 * 2 ^ 23)

/-- `round32(r)`: the binary32 value nearest to `r`, ties to even (rule R12). -/
def round32 (r : Rat) : Word := BitVec.ofNat 32 ((if r < 0 then 2 ^ 31 else 0) + f32Magnitude r.num.natAbs r.den)

/-- Every value of the sequence is 0. -/
def allZero (xs : List Rat) : Bool := xs.all (fun x => decide (x = 0))

/-- The internal value of a PCM sample: its exact value, or for an infinity or a NaN, whose real-valued rules have no
meaning, a free value (93_implementation_defined.md I7; log entry 5). -/
def sampleValue (num : Numerics) (w : Word) : Rat := if f32NonFinite w then num.nonFinite w else f32Value w

/-- A finite pattern with value in [-AMP, AMP] (rule R313). -/
def inAmplitude (p : Params) (w : Word) : Bool :=
  !f32NonFinite w && decide (-p.amp ≤ f32Value w) && decide (f32Value w ≤ p.amp)

/-- `NUMERICS.synth(t)`, which must lie in [-AMP, AMP] (rule R313). -/
def synthSample (p : Params) (num : Numerics) (bytes : List Byte) (t : Nat) : Word :=
  if inAmplitude p (num.synth bytes t) then num.synth bytes t else 0

/-- The peak of a capture (rule R358). -/
def peakOf (num : Numerics) (xs : List Rat) : Rat := if allZero xs then 0 else num.peak xs

/-- A sample divided by the peak (rule R358). -/
def normaliseOf (num : Numerics) (x peak : Rat) : Rat := if x = 0 then 0 else num.normalise x peak

/-- The noise floor of the samples of its span (rule R359). -/
def noiseOf (num : Numerics) (ys : List Rat) : Rat := if allZero ys then 0 else num.noise ys

/-- The energy of an onset window (rule R360). -/
def windowEnergyOf (num : Numerics) (ys : List Rat) : Rat := if allZero ys then 0 else num.windowEnergy ys

/-- The unwindowed Goertzel energy (rule R352). -/
def sentinelEnergyOf (num : Numerics) (ys : List Rat) (f : Nat) : Rat :=
  if allZero ys then 0 else num.sentinelEnergy ys f

/-- The Hann-windowed Goertzel energy (rules R352, R353, R371). -/
def toneEnergyOf (num : Numerics) (ys : List Rat) (f : Nat) : Rat := if allZero ys then 0 else num.toneEnergy ys f

/-- `ratio(a, b)` (rule R354). -/
def ratioOf (num : Numerics) (a b : Rat) : Rat := if a + b = 0 then 0 else num.ratio a b

/-- The aggregate score of a candidate's ratios (rule R366). -/
def scoreOf (num : Numerics) (rs : List Rat) : Rat := if allZero rs then 0 else num.scoreSum rs

/-- The mean of the nibble confidences, 0 for none (rule R377). -/
def meanOf (num : Numerics) (cs : List Rat) : Rat := if allZero cs then 0 else num.mean cs

end Sys2Proof.Machine
end

