-- ==== Sys2Proof/Machine/Synthesis.lean ====
section
/-!
DEFINITION. Synthesis (43_modulator.md) as functions of the parameters, NUMERICS and the bytes: the tone table (rule R300),
the frame timeline (rules R302 to R306) and its rendering (rule R313).
-/

namespace Sys2Proof.Machine

/-- `tone_freq(n)` in Hz (rule R300). -/
def toneFreq (n : Nat) : Nat := 1000 + 200 * n

/-- A tone: frequency in Hz, start sample, duration in samples (rule R302). -/
structure Tone where
  freq : Nat
  start : Nat
  dur : Nat
deriving DecidableEq, Repr

/-- The preamble: PRE_CYCLES cycles of one low and one high tone, contiguous, from sample 0 (rules R303, R304). -/
def preambleTones (p : Params) : List Tone :=
  (List.range p.preCycles).flatMap fun c =>
    [⟨p.fLo, 2 * c * p.preN, p.preN⟩, ⟨p.fHi, (2 * c + 1) * p.preN, p.preN⟩]

/-- The two data tones of byte number `j`, high nibble first (rules R149, R305). -/
def byteTones (p : Params) (j : Nat) (b : Byte) : List Tone :=
  [⟨toneFreq (b.extractLsb' 4 4).toNat, p.preLen + (2 * j) * p.stepN, p.toneN⟩,
   ⟨toneFreq (b.extractLsb' 0 4).toNat, p.preLen + (2 * j + 1) * p.stepN, p.toneN⟩]

/-- The data tones of bytes number `j`, `j + 1`, … (rule R305). -/
def dataTones (p : Params) (j : Nat) (bs : List Byte) : List Tone :=
  match bs with
  | [] => []
  | b :: rest => byteTones p j b ++ dataTones p (j + 1) rest

/-- The timeline T(N) of a transmission: preamble, data, postamble (rules R302, R306). -/
def timeline (p : Params) (bs : List Byte) : List Tone :=
  preambleTones p ++ dataTones p 0 bs ++ [⟨p.fPost, p.preLen + 2 * bs.length * p.stepN, p.postN⟩]

/-- A tone as an entry of TONES, three u32 fields (rule R66). -/
def Tone.entry (t : Tone) : ToneEntry := ⟨BitVec.ofNat 32 t.freq, BitVec.ofNat 32 t.start, BitVec.ofNat 32 t.dur⟩

/-- The rendered waveform (rules R313, R315). -/
def render (p : Params) (num : Numerics) (bs : List Byte) : List Word :=
  (List.range (p.lMod bs.length)).map (synthSample p num bs)

end Sys2Proof.Machine
end

