-- ==== Sys2Proof/Machine/Detection.lean ====
section
/-!
DEFINITION. Detection (44_demodulator.md): normalisation, onset detection, preamble localisation, symbol slicing, error
flagging and confidence as functions of the parameters, NUMERICS, the captured samples and the expected byte count. The
capture has L samples; N bytes are expected.
-/

namespace Sys2Proof.Machine

/-- ONSET_K (rule R361). -/
def onsetK : Rat := 10

/-- PRE_THRESH (rule R367). -/
def preThresh : Rat := mkRat 2 5

/-- CONF_THRESH (rule R373). -/
def confThresh : Rat := mkRat 11 20

/-- The samples a, a + 1, …, a + m - 1 of a capture. -/
def window {α : Type} (xs : List α) (a m : Nat) : List α := (xs.drop a).take m

/-! ### Steps 1 and 2: normalisation and onset -/

/-- The normalised working copy x' (rule R358). -/
def normalised (p : Params) (num : Numerics) (xs : List Rat) : List Rat :=
  if p.silentPeak < peakOf num xs then xs.map (fun x => normaliseOf num x (peakOf num xs)) else xs

/-- The noise floor of x' (rule R359). -/
def noiseFloor (p : Params) (num : Numerics) (xs : List Rat) : Rat := noiseOf num (xs.take (min p.noiseN xs.length))

/-- The starts of the onset windows of a capture of `len` samples, in order (rule R360). -/
def onsetStarts (p : Params) (len : Nat) : List Nat :=
  ((List.range (len + 1)).map (· * p.onsetStrideN)).filter (fun w => decide (w + p.onsetWinN ≤ len))

/-- The onset condition at window start `w`: either threshold suffices (rule R361). -/
def isOnset (p : Params) (num : Numerics) (xs : List Rat) (w : Nat) : Bool :=
  decide (onsetK * noiseFloor p num xs < windowEnergyOf num (window xs w p.onsetWinN)) ||
    decide (p.absFloor < windowEnergyOf num (window xs w p.onsetWinN))

/-- The onset, if there is one (rule R361). -/
def onsetOf (p : Params) (num : Numerics) (xs : List Rat) : Option Nat :=
  (onsetStarts p xs.length).find? (isOnset p num xs)

/-! ### Step 3: preamble localisation -/

/-- The candidate preamble starts, in increasing order (rule R364). -/
def candidates (p : Params) (onset len : Nat) : List Nat :=
  ((List.range (p.searchSpanN + 1)).filter (fun k => decide (k * p.searchStepN ≤ p.searchSpanN))).map
      (fun k => onset - p.preBackoffN + k * p.searchStepN)
    |>.filter (fun c => decide (c + p.preLen ≤ len))

/-- `lo_c(p)` and `hi_c(p)` of cycle `c` of the candidate `q` (rule R365). -/
def cycleRatios (p : Params) (num : Numerics) (xs : List Rat) (q c : Nat) : List Rat :=
  let u := window xs (q + 2 * c * p.preN) p.preN
  let v := window xs (q + 2 * c * p.preN + p.preN) p.preN
  [ratioOf num (sentinelEnergyOf num u p.fLo) (sentinelEnergyOf num u p.fHi),
   ratioOf num (sentinelEnergyOf num v p.fHi) (sentinelEnergyOf num v p.fLo)]

/-- The aggregate score S of a candidate (rule R366). -/
def candidateScore (p : Params) (num : Numerics) (xs : List Rat) (q : Nat) : Rat :=
  scoreOf num ((List.range p.preCycles).flatMap (cycleRatios p num xs q))

/-- The first element of a list at which `f` takes its maximum over the list (rules R366, R372). -/
def firstMax {α : Type} [LT α] [DecidableLT α] (f : Nat → α) (ks : List Nat) : Option Nat :=
  match ks with
  | [] => none
  | k :: rest =>
    match firstMax f rest with
    | none => some k
    | some m => if f k < f m then some m else some k

/-- The best candidate p*, if there is a candidate (rule R366). -/
def bestCandidate (p : Params) (num : Numerics) (xs : List Rat) (onset : Nat) : Option Nat :=
  firstMax (candidateScore p num xs) (candidates p onset xs.length)

/-- A synchronisation: outcome, data start, best score (rules R366, R368). -/
structure SyncResult where
  sync : Sync
  start : Nat
  score : Rat
deriving DecidableEq, Repr

/-- The synchronisation outcome: Located at p* when its score is at least 40% of 2 x PRE_CYCLES, else the Fallback
estimate (rules R367, R368). -/
def synchronise (p : Params) (num : Numerics) (xs : List Rat) (onset : Nat) : SyncResult :=
  match bestCandidate p num xs onset with
  | none => ⟨.fallback, onset + p.preLen, 0⟩
  | some q =>
    if preThresh * (2 * p.preCycles : Nat) ≤ candidateScore p num xs q then
      ⟨.located, q + p.preLen, candidateScore p num xs q⟩
    else ⟨.fallback, onset + p.preLen, candidateScore p num xs q⟩

/-! ### Step 4: the symbol slicer -/

/-- `a_s`, the first analysed sample of slot `slot` (rule R370). -/
def slotStart (p : Params) (start slot : Nat) : Nat := start + slot * p.stepN + p.settleN

/-- Slot `slot` lies inside a capture of `len` samples (rule R370). -/
def slotInRange (p : Params) (start len slot : Nat) : Bool := decide (slotStart p start slot + p.windowN ≤ len)

/-- `E_s[k]` of a slot's samples (rule R371). -/
def binEnergy (num : Numerics) (ys : List Rat) (k : Nat) : Rat := toneEnergyOf num ys (toneFreq k)

/-- `b_s`: the least bin with maximum energy (rule R372). -/
def sliceNibble (num : Numerics) (ys : List Rat) : Nat := (firstMax (binEnergy num ys) (List.range 16)).getD 0

/-- The runner-up bin, the least of the others with maximum energy: its energy is `second_s` (rule R372). -/
def runnerUp (num : Numerics) (ys : List Rat) : Nat :=
  (firstMax (binEnergy num ys) ((List.range 16).filter (fun k => k != sliceNibble num ys))).getD 0

/-- `conf_s` of an in-range slot (rule R373). -/
def nibbleConfidence (num : Numerics) (ys : List Rat) : Rat :=
  ratioOf num (binEnergy num ys (sliceNibble num ys)) (binEnergy num ys (runnerUp num ys))

/-- A decoded byte: its value, the confidences of its high and low nibble, and whether it is flagged. -/
structure DecodedByte where
  value : Byte
  confHi : Rat
  confLo : Rat
  flagged : Bool
deriving DecidableEq, Repr

/-- A byte left as zero and flagged, with confidence 0 (rules R375, R378). -/
def undecoded : DecodedByte := ⟨0, 0, 0, true⟩

/-- A byte of two in-range slots with samples `hi` and `lo` (rules R373, R374). -/
def assembleByte (num : Numerics) (hi lo : List Rat) : DecodedByte :=
  ⟨BitVec.ofNat 4 (sliceNibble num hi) ++ BitVec.ofNat 4 (sliceNibble num lo),
    nibbleConfidence num hi, nibbleConfidence num lo,
    decide (nibbleConfidence num hi < confThresh) || decide (nibbleConfidence num lo < confThresh)⟩

/-- Byte `j` of a capture whose data starts at `start` (rules R370 to R375). -/
def decodeByte (p : Params) (num : Numerics) (xs : List Rat) (start j : Nat) : DecodedByte :=
  if slotInRange p start xs.length (2 * j + 1) then
    assembleByte num (window xs (slotStart p start (2 * j)) p.windowN)
      (window xs (slotStart p start (2 * j + 1)) p.windowN)
  else undecoded

/-! ### Steps 5 and 6, and the whole demodulation -/

/-- A DecodeResult: synchronisation, onset, data start, best score, and the N decoded bytes. -/
structure DecodeResult where
  sync : Sync
  onset : Nat
  start : Nat
  score : Rat
  decoded : List DecodedByte
deriving DecidableEq, Repr

/-- The confidences of the 2N nibbles, high nibble of each byte first (rule R65). -/
def DecodeResult.confidences (r : DecodeResult) : List Rat := r.decoded.flatMap (fun d => [d.confHi, d.confLo])

/-- `epos`: the flagged byte indices in increasing order (rule R376). -/
def DecodeResult.errorPositions (r : DecodeResult) : List Nat :=
  (List.range r.decoded.length).filter (fun j => (r.decoded.map DecodedByte.flagged)[j]?.getD false)

/-- The NOSIGNAL result (rule R378). -/
def noSignalResult (n : Nat) : DecodeResult := ⟨.noSignal, 0, 0, 0, List.replicate n undecoded⟩

/-- The result of a capture with normalised samples `xs` and onset `onset` (rules R364 to R375). -/
def decodeFrom (p : Params) (num : Numerics) (xs : List Rat) (onset n : Nat) : DecodeResult :=
  let r := synchronise p num xs onset
  ⟨r.sync, onset, r.start, r.score, (List.range n).map (decodeByte p num xs r.start)⟩

/-- The demodulation of the samples `ws` into `n` bytes (rules R358 to R378, R380). -/
def demodulate (p : Params) (num : Numerics) (ws : List Word) (n : Nat) : DecodeResult :=
  let xs := normalised p num (ws.map (sampleValue num))
  match onsetOf p num xs with
  | none => noSignalResult n
  | some onset => decodeFrom p num xs onset n

end Sys2Proof.Machine
end

