-- ==== Sys2Proof/Machine/Reference.lean ====
section
/-!
DEFINITION. The spec's reference for the real-valued steps, over the exact real numbers (00_scope.md rule R12): synthesis
(43_modulator.md rules R310 to R312), the detectors (44_demodulator.md rules R352 to R354), and the exact semantics of
detection (rules R358 to R373); binary32 rounding (rule R12); and what rule R12 requires of NUMERICS against it. The
machine computes with NUMERICS, whose results need not equal these (rules R12, R355; log entries 3 and 17).
-/

namespace Sys2Proof.Reference

open Sys2Proof.Machine

/-! ### Binary32 rounding -/

/-- `w` is the binary32 pattern of `round32(r)` for a real in the finite range: the nearest value, ties to the even
fraction; a zero result has the sign of `r` (rule R12). -/
def IsRound32 (r : ℝ) (w : Word) : Prop :=
  f32NonFinite w = false ∧
  (∀ v : Word, f32NonFinite v = false → |(f32Value w : ℝ) - r| ≤ |(f32Value v : ℝ) - r|) ∧
  (∀ v : Word, f32NonFinite v = false → f32Value v ≠ f32Value w →
    |(f32Value v : ℝ) - r| = |(f32Value w : ℝ) - r| → f32Fraction w % 2 = 0) ∧
  (f32Value w = 0 → (w.getLsbD 31 = true ↔ r < 0))

/-! ### Synthesis -/

/-- `env(k, D)` (rule R311). -/
noncomputable def env (p : Params) (k D : ℕ) : ℝ :=
  min 1 (min ((k : ℝ) / p.fadeN) (((D : ℝ) - 1 - k) / p.fadeN))

/-- What a tone contributes to sample `n` of the transmission (rules R310, R312). -/
noncomputable def toneSample (p : Params) (t : Tone) (n : ℕ) : ℝ :=
  if t.start ≤ n ∧ n < t.start + t.dur then
    p.amp * env p (n - t.start) t.dur * Real.sin (2 * Real.pi * t.freq * (n - t.start : ℕ) / p.fs)
  else 0

/-- The ideal waveform `s(n)` of the transmission of some bytes (rule R312). -/
noncomputable def signal (p : Params) (bs : List Byte) (n : ℕ) : ℝ :=
  ((timeline p bs).map (fun t => toneSample p t n)).sum

/-! ### Detectors -/

/-- The angular frequency of `f` in radians per sample (rule R352). -/
noncomputable def angle (p : Params) (f : ℕ) : ℝ := 2 * Real.pi * f / p.fs

/-- The Fourier sum of samples number `n`, `n + 1`, … at the angle `w` (rule R352). -/
noncomputable def fourierSum (w : ℝ) (n : ℕ) (ys : List ℝ) : ℂ :=
  match ys with
  | [] => 0
  | y :: rest => (y : ℂ) * Complex.exp (-Complex.I * w * n) + fourierSum w (n + 1) rest

/-- `E(y, f)` (rule R352). -/
noncomputable def energy (p : Params) (ys : List ℝ) (f : ℕ) : ℝ := ‖fourierSum (angle p f) 0 ys‖ ^ 2

/-- The Goertzel recurrence from the state (s1, s2), with coefficient `coef` (rule R352). -/
def goertzelState (coef : ℝ) (ys : List ℝ) (s : ℝ × ℝ) : ℝ × ℝ :=
  match ys with
  | [] => s
  | y :: rest => goertzelState coef rest (y + coef * s.1 - s.2, s.1)

/-- The energy at the angle `w` as the Goertzel recurrence gives it (rule R352). -/
noncomputable def goertzelEnergy (w : ℝ) (ys : List ℝ) : ℝ :=
  let s := goertzelState (2 * Real.cos w) ys (0, 0)
  s.1 ^ 2 + s.2 ^ 2 - 2 * Real.cos w * s.1 * s.2

/-- `hann(n, M)` (rule R353). -/
noncomputable def hann (n M : ℕ) : ℝ := 1 / 2 * (1 - Real.cos (2 * Real.pi * n / ((M : ℝ) - 1)))

/-- The Hann-windowed samples of a slot, the first number `n` of `M` (rule R370). -/
noncomputable def hannWindowed (M n : ℕ) (ys : List ℝ) : List ℝ :=
  match ys with
  | [] => []
  | y :: rest => y * hann n M :: hannWindowed M (n + 1) rest

/-- `ratio(a, b)` (rule R354). -/
noncomputable def ratio (a b : ℝ) : ℝ := if a + b = 0 then 0 else a / (a + b)

/-- Mean of the squares of some samples (rules R359, R360). -/
noncomputable def meanSquare (ys : List ℝ) : ℝ := (ys.map (fun y => y ^ 2)).sum / ys.length

/-- The largest magnitude of a capture, 0 for an empty one (rule R358). -/
def peak (xs : List ℝ) : ℝ :=
  match xs with
  | [] => 0
  | x :: rest => max |x| (peak rest)

/-! ### Detection -/

/-- The exact samples of a capture (rule R102). -/
def samples (ws : List Word) : List ℝ := ws.map (fun w => (f32Value w : ℝ))

/-- The normalised working copy x' (rule R358). -/
noncomputable def normalised (p : Params) (xs : List ℝ) : List ℝ :=
  if (p.silentPeak : ℝ) < peak xs then xs.map (fun x => x / peak xs) else xs

/-- The noise floor of x' (rule R359). -/
noncomputable def noiseFloor (p : Params) (xs : List ℝ) : ℝ := meanSquare (xs.take (min p.noiseN xs.length))

/-- `Ew(w)` (rule R360). -/
noncomputable def windowEnergy (p : Params) (xs : List ℝ) (w : ℕ) : ℝ := meanSquare (window xs w p.onsetWinN)

/-- `S(q)` of the candidate `q` (rules R365, R366). -/
noncomputable def score (p : Params) (xs : List ℝ) (q : ℕ) : ℝ :=
  ((List.range p.preCycles).map fun c =>
    let u := window xs (q + 2 * c * p.preN) p.preN
    let v := window xs (q + 2 * c * p.preN + p.preN) p.preN
    ratio (energy p u p.fLo) (energy p u p.fHi) + ratio (energy p v p.fHi) (energy p v p.fLo)).sum

/-- `E_s[k]` of the slot whose first analysed sample is `a` (rules R370, R371). -/
noncomputable def slotEnergy (p : Params) (xs : List ℝ) (a k : ℕ) : ℝ :=
  energy p (hannWindowed p.windowN 0 (window xs a p.windowN)) (toneFreq k)

/-- `b_s` of that slot (rule R372). -/
noncomputable def slotNibble (p : Params) (xs : List ℝ) (a : ℕ) : ℕ :=
  (firstMax (slotEnergy p xs a) (List.range 16)).getD 0

/-- The bin of the runner-up of that slot (rule R372). -/
noncomputable def slotRunnerUp (p : Params) (xs : List ℝ) (a : ℕ) : ℕ :=
  (firstMax (slotEnergy p xs a) ((List.range 16).filter (fun k => k != slotNibble p xs a))).getD 0

/-- `conf_s` of that slot (rule R373). -/
noncomputable def slotConfidence (p : Params) (xs : List ℝ) (a : ℕ) : ℝ :=
  ratio (slotEnergy p xs a (slotNibble p xs a)) (slotEnergy p xs a (slotRunnerUp p xs a))

/-! ### What a capture holds -/

/-- What the exact semantics of a capture starts from: its samples as they stand, or, where the block rendered it, the
exact waveform of the transmission behind some silence, so that synthesis counts among the real-valued steps (rule R12). -/
inductive Source where
  /-- A capture of given samples. -/
  | capture (samples : List Word)
  /-- `silence` zero samples and then MOD's rendering of some bytes. -/
  | transmission (silence : Nat) (bytes : List Byte)
deriving DecidableEq, Repr

/-- The samples in PCM. -/
def Source.words (p : Params) (num : Numerics) : Source → List Word
  | .capture ws => ws
  | .transmission z bs => List.replicate z 0 ++ render p num bs

/-- The exact samples. -/
noncomputable def Source.exact (p : Params) : Source → List ℝ
  | .capture ws => samples ws
  | .transmission z bs => List.replicate z 0 ++ (List.range (p.lMod bs.length)).map (signal p bs)

/-- The exact working copy (rule R358). -/
noncomputable def exactCopy (p : Params) (src : Source) : List ℝ := normalised p (src.exact p)

/-- The block's working copy (rule R358). -/
def blockCopy (p : Params) (num : Numerics) (src : Source) : List Rat :=
  Machine.normalised p num ((src.words p num).map (sampleValue num))

/-- A preamble of EX1's kind is found where it stands: behind any silence, no position has so great an exact score as the
first sample of the preamble but that sample and its two neighbours (rule R384). -/
def PreambleStandsOut (p : Params) : Prop :=
  ∀ (z : ℕ) (bs : List Byte) (q : ℕ), bs.length ≤ p.maxB → q + p.preLen ≤ z + p.lMod bs.length → q + 1 < z ∨ z + 1 < q →
    score p (exactCopy p (.transmission z bs)) q < score p (exactCopy p (.transmission z bs)) z

/-! ### NUMERICS against the reference -/

/-- An internal value within `δ` of the exact one. -/
def Close (δ : ℝ) (a : ℚ) (r : ℝ) : Prop := |(a : ℝ) - r| ≤ δ

/-- A comparison whose exact difference is `margin` (positive where the exact outcome is yes) comes out as the exact one
wherever the margin is larger than the error `e` (rule R12). -/
def Decided (e : ℚ) (margin : ℝ) (outcome : Prop) : Prop :=
  ((e : ℝ) < margin → outcome) ∧ (margin < -(e : ℝ) → ¬ outcome)

/-- What rule R12 requires of NUMERICS: with `err` the implementation's error in each kind of comparison on each capture
of finite samples, every comparison that detection makes on that capture comes out as in the exact semantics wherever the
exact margin is larger than the error. An argmax is decided by its comparisons. -/
structure MarginsDecide (p : Params) (num : Numerics) (err : Comparison → Source → ℚ) : Prop where
  /-- SILENT_PEAK < peak (rule R358). -/
  silence : ∀ src : Source, (∀ w ∈ src.words p num, f32NonFinite w = false) →
    Decided (err .silence src) (peak (src.exact p) - p.silentPeak)
      (p.silentPeak < peakOf num ((src.words p num).map (sampleValue num)))
  /-- ONSET_K x noise < Ew(w) (rule R361). -/
  onset : ∀ src : Source, (∀ w ∈ src.words p num, f32NonFinite w = false) →
    ∀ w, w + p.onsetWinN ≤ (src.words p num).length →
    Decided (err .onset src) (windowEnergy p (exactCopy p src) w - 10 * noiseFloor p (exactCopy p src))
      (onsetK * Machine.noiseFloor p num (blockCopy p num src) <
        windowEnergyOf num (window (blockCopy p num src) w p.onsetWinN))
  /-- ABS_FLOOR < Ew(w) (rule R361). -/
  absFloor : ∀ src : Source, (∀ w ∈ src.words p num, f32NonFinite w = false) →
    ∀ w, w + p.onsetWinN ≤ (src.words p num).length →
    Decided (err .absFloor src) (windowEnergy p (exactCopy p src) w - p.absFloor)
      (p.absFloor < windowEnergyOf num (window (blockCopy p num src) w p.onsetWinN))
  /-- S(q) < S(q') of two candidates (rule R366). -/
  score : ∀ src : Source, (∀ w ∈ src.words p num, f32NonFinite w = false) →
    ∀ q q', q + p.preLen ≤ (src.words p num).length → q' + p.preLen ≤ (src.words p num).length →
    Decided (err .score src) (Reference.score p (exactCopy p src) q' - Reference.score p (exactCopy p src) q)
      (candidateScore p num (blockCopy p num src) q < candidateScore p num (blockCopy p num src) q')
  /-- PRE_THRESH x 2C <= S(q) (rule R367). -/
  acceptance : ∀ src : Source, (∀ w ∈ src.words p num, f32NonFinite w = false) →
    ∀ q, q + p.preLen ≤ (src.words p num).length →
    Decided (err .acceptance src) (Reference.score p (exactCopy p src) q - 2 / 5 * (2 * p.preCycles))
      (preThresh * (2 * p.preCycles : Nat) ≤ candidateScore p num (blockCopy p num src) q)
  /-- E_s[k] < E_s[l] of two bins of a slot (rule R372). -/
  bin : ∀ src : Source, (∀ w ∈ src.words p num, f32NonFinite w = false) →
    ∀ a k l, a + p.windowN ≤ (src.words p num).length → k < 16 → l < 16 →
    Decided (err .bin src) (slotEnergy p (exactCopy p src) a l - slotEnergy p (exactCopy p src) a k)
      (binEnergy num (window (blockCopy p num src) a p.windowN) k <
        binEnergy num (window (blockCopy p num src) a p.windowN) l)
  /-- conf_s < CONF_THRESH of a slot (rule R373). -/
  confidence : ∀ src : Source, (∀ w ∈ src.words p num, f32NonFinite w = false) →
    ∀ a, a + p.windowN ≤ (src.words p num).length →
    Decided (err .confidence src) (11 / 20 - slotConfidence p (exactCopy p src) a)
      (nibbleConfidence num (window (blockCopy p num src) a p.windowN) < confThresh)

end Sys2Proof.Reference
end

