-- ==== Sys2Proof/Machine/Requirements.lean ====
section
/-!
DEFINITION. What the spec requires of the parameters and NUMERICS of a block together: the constraints of 00_scope.md rule
R9, the margins of rule R12, the loopback of 44_demodulator.md rule R383 (a choice that breaks one of them is not a
configuration of this hardware, 93_implementation_defined.md I10), and what rule R384 says of EX1.
-/

namespace Sys2Proof

open Sys2Proof.Machine

/-- The loopback of rule R383: demodulating the rendering of any 120-byte frame gives the frame, an aggregate confidence of
at least 0.95 and no error position. -/
structure LoopbackIdempotent (p : Params) (num : Numerics) : Prop where
  /-- The frame comes back byte for byte. -/
  bytes : ∀ frame : List Byte, frame.length = 120 →
    (demodulate p num (render p num frame) 120).decoded.map DecodedByte.value = frame
  /-- The aggregate confidence is at least 0.95. -/
  confidence : ∀ frame : List Byte, frame.length = 120 →
    mkRat 19 20 ≤ meanOf num (demodulate p num (render p num frame) 120).confidences
  /-- No byte is flagged. -/
  errors : ∀ frame : List Byte, frame.length = 120 →
    (demodulate p num (render p num frame) 120).errorPositions = []

/-- Rule R384, which the spec derives for EX1: the onset of a rendering with no leading silence is the first sample,
whatever the payload, and behind silence the preamble stands out in the exact semantics. Nothing of it is required of other
parameters (log entry 16). -/
structure PreambleFound (p : Params) (num : Numerics) : Prop where
  /-- The onset is 0. -/
  onset : ∀ bs : List Byte, bs.length ≤ p.maxB →
    onsetOf p num (Reference.blockCopy p num (.transmission 0 bs)) = some 0
  /-- No position but the preamble's first sample and its neighbours has the greatest exact score. -/
  standsOut : Reference.PreambleStandsOut p

/-- A configuration of this hardware: the parameters, NUMERICS and the implementation's error in each kind of comparison
on each capture, with what the spec requires of them. -/
structure Configuration where
  params : Params
  numerics : Numerics
  error : Comparison → Reference.Source → Rat
  /-- Rule R9. -/
  valid : params.Valid
  /-- Rule R12. -/
  margins : Reference.MarginsDecide params numerics error
  /-- Rule R383. -/
  loopback : LoopbackIdempotent params numerics
  /-- Rule R384. -/
  preamble : params = Params.ex1 → PreambleFound params numerics

end Sys2Proof
end

