-- ==== Sys2Proof/Machine/Codebook.lean ====
section
/-!
DEFINITION. An example that meets every requirement on a configuration, so that the requirements do not contradict one
another and the type of configurations is inhabited: EX1 (00_scope.md rule R8) with another ABS_FLOOR and a NUMERICS
that sends each nibble as a level of its own and reads it back. No statement and no rule of the machine can tell that the
block is this one: the block's configuration is opaque (Machine/Configuration.lean).
-/

namespace Sys2Proof.Codebook

open Sys2Proof.Machine Sys2Proof.Reference

/-! ### An error no exact margin is larger than -/

/-- The sum of the magnitudes of a capture's samples. -/
def totalMagnitude (ws : List Word) : ℚ := (ws.map (fun w => |f32Value w|)).sum

/-- At least the magnitude of every exact sample of a capture. -/
def magnitude (p : Params) : Source → ℚ
  | .capture ws => totalMagnitude ws
  | .transmission _ bs => (timeline p bs).length * |p.amp|

/-- The number of samples of a capture. -/
def sourceLength (p : Params) : Source → ℕ
  | .capture ws => ws.length
  | .transmission z bs => z + p.lMod bs.length

/-- At least every exact margin of every comparison on a capture. -/
def errorBound (p : Params) (src : Source) : ℚ :=
  magnitude p src + |p.silentPeak| + |p.absFloor| + 11 * (magnitude p src + 1) ^ 2 +
    (sourceLength p src * (magnitude p src + 1)) ^ 2 + 2 * p.preCycles + 1

theorem peak_nonneg (xs : List ℝ) : 0 ≤ peak xs := by
  induction xs with
  | nil => exact le_rfl
  | cons x xs ih => exact le_max_of_le_right ih

theorem abs_le_peak {xs : List ℝ} {x : ℝ} (h : x ∈ xs) : |x| ≤ peak xs := by
  induction xs with
  | nil => simp at h
  | cons y ys ih =>
    rcases List.mem_cons.mp h with rfl | h
    · exact le_max_left _ _
    · exact le_max_of_le_right (ih h)

theorem totalMagnitude_nonneg (ws : List Word) : 0 ≤ totalMagnitude ws :=
  List.sum_nonneg (by simp only [List.mem_map]; rintro _ ⟨w, -, rfl⟩; exact abs_nonneg _)

theorem peak_le_total (ws : List Word) : peak (samples ws) ≤ (totalMagnitude ws : ℝ) := by
  induction ws with
  | nil => simp [samples, peak, totalMagnitude]
  | cons w ws ih =>
    have h0 : (0 : ℝ) ≤ (totalMagnitude ws : ℝ) := by exact_mod_cast totalMagnitude_nonneg ws
    have h1 : peak (samples (w :: ws)) = max |(f32Value w : ℝ)| (peak (samples ws)) := rfl
    have h2 : (totalMagnitude (w :: ws) : ℝ) = |(f32Value w : ℝ)| + (totalMagnitude ws : ℝ) := by
      simp [totalMagnitude]
    rw [h1, h2]
    exact max_le (by linarith) (by linarith [abs_nonneg (f32Value w : ℝ)])

theorem peak_le {xs : List ℝ} {b : ℝ} (hb : 0 ≤ b) (h : ∀ x ∈ xs, |x| ≤ b) : peak xs ≤ b := by
  induction xs with
  | nil => exact hb
  | cons x xs ih => exact max_le (h x List.mem_cons_self) (ih fun y hy => h y (List.mem_cons_of_mem _ hy))

theorem abs_env_le (p : Params) {k D : ℕ} (h : k < D) : |env p k D| ≤ 1 := by
  have h1 : (0 : ℝ) ≤ (D : ℝ) - 1 - k := by
    have : (k : ℝ) + 1 ≤ D := by exact_mod_cast h
    linarith
  have h2 : 0 ≤ env p k D := le_min zero_le_one (le_min (by positivity) (div_nonneg h1 (Nat.cast_nonneg _)))
  rw [abs_of_nonneg h2]
  exact min_le_left _ _

theorem abs_toneSample_le (p : Params) (t : Tone) (n : ℕ) : |toneSample p t n| ≤ |(p.amp : ℝ)| := by
  unfold toneSample
  split
  · next h =>
    rw [abs_mul, abs_mul, mul_assoc]
    refine mul_le_of_le_one_right (abs_nonneg _) ?_
    exact mul_le_one₀ (abs_env_le p (by omega)) (abs_nonneg _) (Real.abs_sin_le_one _)
  · rw [abs_zero]
    exact abs_nonneg _

theorem abs_sum_le {α : Type} (l : List α) (f : α → ℝ) {b : ℝ} (h : ∀ a ∈ l, |f a| ≤ b) :
    |(l.map f).sum| ≤ l.length * b := by
  induction l with
  | nil => simp
  | cons a l ih =>
    rw [List.map_cons, List.sum_cons]
    have h1 := h a List.mem_cons_self
    have h2 := ih fun x hx => h x (List.mem_cons_of_mem _ hx)
    calc |f a + (l.map f).sum| ≤ |f a| + |(l.map f).sum| := abs_add_le _ _
      _ ≤ b + l.length * b := add_le_add h1 h2
      _ = (a :: l).length * b := by push_cast [List.length_cons]; ring

theorem magnitude_nonneg (p : Params) (src : Source) : 0 ≤ magnitude p src := by
  cases src with
  | capture ws => exact totalMagnitude_nonneg ws
  | transmission z bs => exact mul_nonneg (Nat.cast_nonneg _) (abs_nonneg _)

theorem peak_le_magnitude (p : Params) (src : Source) : peak (src.exact p) ≤ (magnitude p src : ℝ) := by
  cases src with
  | capture ws => exact peak_le_total ws
  | transmission z bs =>
    have h0 : (0 : ℝ) ≤ (magnitude p (.transmission z bs) : ℝ) := by
      exact_mod_cast magnitude_nonneg p (.transmission z bs)
    refine peak_le h0 fun x hx => ?_
    rcases List.mem_append.mp hx with hx | hx
    · rw [List.eq_of_mem_replicate hx, abs_zero]
      exact h0
    · obtain ⟨n, -, rfl⟩ := List.mem_map.mp hx
      simpa [magnitude, signal] using
        abs_sum_le (timeline p bs) (fun t => toneSample p t n) fun t _ => abs_toneSample_le p t n

/-- A sample of the exact working copy. -/
theorem abs_exactCopy_le (p : Params) (src : Source) {y : ℝ} (h : y ∈ exactCopy p src) :
    |y| ≤ (magnitude p src : ℝ) + 1 := by
  have h0 : (0 : ℝ) ≤ (magnitude p src : ℝ) := by exact_mod_cast magnitude_nonneg p src
  unfold exactCopy Reference.normalised at h
  split at h
  · obtain ⟨x, hx, rfl⟩ := List.mem_map.mp h
    rw [abs_div, abs_of_nonneg (peak_nonneg _)]
    linarith [div_le_one_of_le₀ (abs_le_peak hx) (peak_nonneg _)]
  · linarith [abs_le_peak h, peak_le_magnitude p src]

theorem length_exactCopy (p : Params) (src : Source) : (exactCopy p src).length = sourceLength p src := by
  unfold exactCopy Reference.normalised
  cases src <;> split <;> simp [Source.exact, samples, sourceLength]

theorem meanSquare_mem {ys : List ℝ} {b : ℝ} (h : ∀ y ∈ ys, |y| ≤ b) :
    0 ≤ meanSquare ys ∧ meanSquare ys ≤ b ^ 2 := by
  have h1 : 0 ≤ (ys.map (fun y => y ^ 2)).sum :=
    List.sum_nonneg (by simp only [List.mem_map]; rintro _ ⟨y, -, rfl⟩; positivity)
  have h2 : (ys.map (fun y => y ^ 2)).sum ≤ ys.length * b ^ 2 := by
    have := List.sum_le_card_nsmul (ys.map (fun y => y ^ 2)) (b ^ 2) (by
      simp only [List.mem_map]
      rintro _ ⟨y, hy, rfl⟩
      exact sq_le_sq' (by linarith [neg_abs_le y, h y hy]) ((le_abs_self y).trans (h y hy)))
    simpa using this
  refine ⟨div_nonneg h1 (by positivity), ?_⟩
  unfold meanSquare
  rcases Nat.eq_zero_or_pos ys.length with h0 | h0
  · rw [h0]
    simp
    positivity
  · rw [div_le_iff₀ (by exact_mod_cast h0)]
    linarith

theorem norm_fourierSum_le (w : ℝ) (n : ℕ) {ys : List ℝ} {b : ℝ} (h : ∀ y ∈ ys, |y| ≤ b) :
    ‖fourierSum w n ys‖ ≤ ys.length * b := by
  induction ys generalizing n with
  | nil => simp [fourierSum]
  | cons y ys ih =>
    have h1 : ‖Complex.exp (-Complex.I * w * n)‖ = 1 := by
      rw [show -Complex.I * w * n = ((-(w * n) : ℝ) : ℂ) * Complex.I by push_cast; ring]
      exact Complex.norm_exp_ofReal_mul_I _
    have h2 := ih (n + 1) fun y hy => h y (List.mem_cons_of_mem _ hy)
    have h3 := h y List.mem_cons_self
    calc ‖fourierSum w n (y :: ys)‖
        ≤ ‖(y : ℂ) * Complex.exp (-Complex.I * w * n)‖ + ‖fourierSum w (n + 1) ys‖ := norm_add_le _ _
      _ ≤ b + ys.length * b := by
          rw [norm_mul, h1, mul_one, Complex.norm_real, Real.norm_eq_abs]
          linarith
      _ = (y :: ys).length * b := by push_cast [List.length_cons]; ring

theorem energy_mem (p : Params) (f : ℕ) {ys : List ℝ} {b : ℝ} (h : ∀ y ∈ ys, |y| ≤ b) :
    0 ≤ energy p ys f ∧ energy p ys f ≤ (ys.length * b) ^ 2 :=
  ⟨sq_nonneg _, pow_le_pow_left₀ (norm_nonneg _) (norm_fourierSum_le _ _ h) 2⟩

theorem abs_hann_le (n M : ℕ) : |hann n M| ≤ 1 := by
  unfold hann
  rw [abs_le]
  constructor <;> linarith [Real.neg_one_le_cos (2 * Real.pi * n / ((M : ℝ) - 1)),
    Real.cos_le_one (2 * Real.pi * n / ((M : ℝ) - 1))]

theorem hannWindowed_length (M n : ℕ) (ys : List ℝ) : (hannWindowed M n ys).length = ys.length := by
  induction ys generalizing n with
  | nil => rfl
  | cons y ys ih => simp [hannWindowed, ih]

theorem abs_hannWindowed_le (M n : ℕ) {ys : List ℝ} {b : ℝ} (h : ∀ y ∈ ys, |y| ≤ b) :
    ∀ y ∈ hannWindowed M n ys, |y| ≤ b := by
  induction ys generalizing n with
  | nil => simp [hannWindowed]
  | cons x ys ih =>
    intro y hy
    rcases List.mem_cons.mp hy with rfl | hy
    · rw [abs_mul]
      have := h x List.mem_cons_self
      exact (mul_le_of_le_one_right (abs_nonneg x) (abs_hann_le n M)).trans this
    · exact ih (n + 1) (fun y hy => h y (List.mem_cons_of_mem _ hy)) y hy

theorem ratio_mem {a b : ℝ} (ha : 0 ≤ a) (hb : 0 ≤ b) : 0 ≤ ratio a b ∧ ratio a b ≤ 1 := by
  unfold ratio
  split
  · exact ⟨le_rfl, zero_le_one⟩
  · exact ⟨div_nonneg ha (by linarith), div_le_one_of_le₀ (by linarith) (by linarith)⟩

theorem energy_nonneg (p : Params) (ys : List ℝ) (f : ℕ) : 0 ≤ energy p ys f := sq_nonneg _

theorem score_mem (p : Params) (xs : List ℝ) (q : ℕ) : 0 ≤ score p xs q ∧ score p xs q ≤ 2 * p.preCycles := by
  have hr := fun (u : List ℝ) (f g : ℕ) => ratio_mem (energy_nonneg p u f) (energy_nonneg p u g)
  constructor
  · refine List.sum_nonneg ?_
    simp only [List.mem_map]
    rintro _ ⟨c, -, rfl⟩
    exact add_nonneg (hr _ _ _).1 (hr _ _ _).1
  · have := List.sum_le_card_nsmul ((List.range p.preCycles).map fun c =>
      let u := window xs (q + 2 * c * p.preN) p.preN
      let v := window xs (q + 2 * c * p.preN + p.preN) p.preN
      ratio (energy p u p.fLo) (energy p u p.fHi) + ratio (energy p v p.fHi) (energy p v p.fLo)) (2 : ℝ) (by
        simp only [List.mem_map]
        rintro _ ⟨c, -, rfl⟩
        linarith [(hr (window xs (q + 2 * c * p.preN) p.preN) p.fLo p.fHi).2,
          (hr (window xs (q + 2 * c * p.preN + p.preN) p.preN) p.fHi p.fLo).2])
    rw [nsmul_eq_mul, List.length_map, List.length_range] at this
    unfold score
    linarith

theorem mem_of_mem_window {xs : List ℝ} {a m : ℕ} {y : ℝ} (h : y ∈ window xs a m) : y ∈ xs :=
  List.drop_subset _ _ (List.take_subset _ _ h)

theorem length_window_le (xs : List ℝ) (a m : ℕ) : (window xs a m).length ≤ xs.length := by
  simp [window]

theorem decided_of_abs_le {e : ℚ} {m : ℝ} {o : Prop} (h : |m| ≤ e) : Decided e m o :=
  ⟨fun h' => absurd h' (not_lt.mpr ((le_abs_self m).trans h)),
    fun h' => absurd h' (not_lt.mpr (neg_le.mp ((neg_le_abs m).trans h)))⟩

/-- With that error every NUMERICS meets rule R12: its every outcome is within the implementation's error. -/
theorem marginsDecide_errorBound (p : Params) (num : Numerics) : MarginsDecide p num (fun _ => errorBound p) := by
  have pos : ∀ src, (0 : ℝ) ≤ (magnitude p src : ℝ) := fun src => by exact_mod_cast magnitude_nonneg p src
  have eb : ∀ src, (errorBound p src : ℝ) = (magnitude p src : ℝ) + |(p.silentPeak : ℝ)| + |(p.absFloor : ℝ)| +
      11 * ((magnitude p src : ℝ) + 1) ^ 2 + (sourceLength p src * ((magnitude p src : ℝ) + 1)) ^ 2 +
      2 * p.preCycles + 1 := by
    intro src
    simp [errorBound]
  have ms : ∀ src a m, 0 ≤ meanSquare (window (exactCopy p src) a m) ∧
      meanSquare (window (exactCopy p src) a m) ≤ ((magnitude p src : ℝ) + 1) ^ 2 := fun src a m =>
    meanSquare_mem fun y hy => abs_exactCopy_le p src (mem_of_mem_window hy)
  have nf : ∀ src, 0 ≤ Reference.noiseFloor p (exactCopy p src) ∧
      Reference.noiseFloor p (exactCopy p src) ≤ ((magnitude p src : ℝ) + 1) ^ 2 := fun src =>
    meanSquare_mem fun y hy => abs_exactCopy_le p src (List.take_subset _ _ hy)
  have en : ∀ src a k, slotEnergy p (exactCopy p src) a k ≤
      (sourceLength p src * ((magnitude p src : ℝ) + 1)) ^ 2 := by
    intro src a k
    refine (energy_mem p (toneFreq k) (abs_hannWindowed_le _ _ fun y hy =>
      abs_exactCopy_le p src (mem_of_mem_window hy))).2.trans ?_
    rw [hannWindowed_length]
    have h : ((window (exactCopy p src) a p.windowN).length : ℝ) ≤ sourceLength p src := by
      exact_mod_cast (length_window_le _ _ _).trans_eq (length_exactCopy p src)
    have := pos src
    gcongr
  have en0 : ∀ src a k, 0 ≤ slotEnergy p (exactCopy p src) a k := fun src a k => energy_nonneg _ _ _
  have sp := abs_nonneg (p.silentPeak : ℝ)
  have af := abs_nonneg (p.absFloor : ℝ)
  have sq : ∀ src : Source, 0 ≤ (sourceLength p src * ((magnitude p src : ℝ) + 1)) ^ 2 := fun src => sq_nonneg _
  have sq' : ∀ src : Source, 0 ≤ ((magnitude p src : ℝ) + 1) ^ 2 := fun src => sq_nonneg _
  have pc : (0 : ℝ) ≤ p.preCycles := Nat.cast_nonneg _
  refine ⟨?_, ?_, ?_, ?_, ?_, ?_, ?_⟩
  · intro src _
    refine decided_of_abs_le ?_
    rw [eb, abs_le]
    have h1 := peak_nonneg (src.exact p)
    have h2 := peak_le_magnitude p src
    constructor <;> linarith [sq src, sq' src, le_abs_self (p.silentPeak : ℝ), neg_abs_le (p.silentPeak : ℝ)]
  · intro src _ w _
    refine decided_of_abs_le ?_
    rw [eb, abs_le]
    have h1 := ms src w p.onsetWinN
    have h2 := nf src
    unfold windowEnergy
    constructor <;> linarith [sq src, sq' src, pos src]
  · intro src _ w _
    refine decided_of_abs_le ?_
    rw [eb, abs_le]
    have h1 := ms src w p.onsetWinN
    unfold windowEnergy
    constructor <;> linarith [sq src, sq' src, pos src, le_abs_self (p.absFloor : ℝ), neg_abs_le (p.absFloor : ℝ)]
  · intro src _ q q' _ _
    refine decided_of_abs_le ?_
    rw [eb, abs_le]
    have h1 := score_mem p (exactCopy p src) q
    have h2 := score_mem p (exactCopy p src) q'
    constructor <;> linarith [sq src, sq' src, pos src]
  · intro src _ q _
    refine decided_of_abs_le ?_
    rw [eb, abs_le]
    have h1 := score_mem p (exactCopy p src) q
    constructor <;> linarith [sq src, sq' src, pos src]
  · intro src _ a k l _ _ _
    refine decided_of_abs_le ?_
    rw [eb, abs_le]
    constructor <;> linarith [sq src, sq' src, pos src, en src a k, en src a l, en0 src a k, en0 src a l]
  · intro src _ a _
    refine decided_of_abs_le ?_
    rw [eb, abs_le]
    have h1 := ratio_mem (en0 src a (slotNibble p (exactCopy p src) a))
      (en0 src a (slotRunnerUp p (exactCopy p src) a))
    unfold slotConfidence
    constructor <;> linarith [sq src, sq' src, pos src]

/-! ### A NUMERICS that reads its own levels back -/

/-- The sample that stands for the nibble `n`. -/
def level (n : Nat) : Word := BitVec.ofNat 32 (n + 1)

/-- The value of that sample. -/
def levelValue (n : Nat) : Rat := ((n + 1 : Nat) : Rat) / 2 ^ 149

/-- The nibble that sample `t` of a transmission stands for: that of its slot, and 0 outside the data. -/
def nibbleAt (p : Params) (bs : List Byte) (t : Nat) : Nat :=
  let slot := (t - p.preLen) / p.stepN
  let b := bs[slot / 2]?.getD 0
  if t < p.preLen then 0 else if slot % 2 = 0 then (b.extractLsb' 4 4).toNat else (b.extractLsb' 0 4).toNat

/-- Each sample is the level of its nibble; a bin has energy where a slot starts with the level of the bin's nibble. -/
def numerics (p : Params) : Numerics where
  synth := fun bs t => level (nibbleAt p bs t)
  nonFinite := fun _ => 0
  peak := fun _ => 0
  normalise := fun x _ => x
  noise := fun _ => 0
  windowEnergy := fun _ => 1
  sentinelEnergy := fun _ _ => 1
  toneEnergy := fun ys f => if ys.headD 0 = levelValue ((f - 1000) / 200) then 1 else 0
  ratio := fun _ _ => 1
  scoreSum := fun _ => (2 * p.preCycles : Nat)
  mean := fun _ => 1

theorem level_spec : ∀ n, n < 16 → f32NonFinite (level n) = false ∧ f32Value (level n) = levelValue n := by
  decide +kernel

theorem levelValue_pos (n : Nat) : 0 < levelValue n := by
  unfold levelValue
  positivity

theorem levelValue_inj {m n : Nat} : levelValue m = levelValue n ↔ m = n := by
  unfold levelValue
  rw [div_left_inj' (by positivity), Nat.cast_inj, Nat.add_right_cancel_iff]

theorem nibbleAt_lt (p : Params) (bs : List Byte) (t : Nat) : nibbleAt p bs t < 16 := by
  unfold nibbleAt
  dsimp only
  split
  · decide
  · split <;> exact BitVec.isLt _

/-- What the loopback needs of the parameters. -/
structure Fits (p : Params) : Prop where
  valid : p.Valid
  amplitude : ∀ n, n < 16 → inAmplitude p (level n) = true
  floor : p.absFloor < 1
  onset : p.onsetWinN ≤ p.preLen

/-- The received samples. -/
def received (p : Params) (bs : List Byte) : List Rat :=
  (List.range (p.lMod bs.length)).map (fun t => levelValue (nibbleAt p bs t))

theorem received_eq {p : Params} (hp : Fits p) (bs : List Byte) :
    (render p (numerics p) bs).map (sampleValue (numerics p)) = received p bs := by
  unfold render received
  rw [List.map_map]
  refine List.map_congr_left fun t _ => ?_
  have h := nibbleAt_lt p bs t
  have hs : synthSample p (numerics p) bs t = level (nibbleAt p bs t) := if_pos (hp.amplitude _ h)
  simp [hs, sampleValue, level_spec _ h]

@[simp] theorem received_length (p : Params) (bs : List Byte) : (received p bs).length = p.lMod bs.length := by
  simp [received]

/-- No window of the received samples is silent. -/
theorem window_received_ne_zero (p : Params) (bs : List Byte) {a m : Nat} (hm : 1 ≤ m)
    (h : a < p.lMod bs.length) : allZero (window (received p bs) a m) = false := by
  rw [← Bool.not_eq_true]
  intro hz
  have hl : 0 < (window (received p bs) a m).length := by
    simp only [window, List.length_take, List.length_drop, received_length]
    omega
  have h0 := of_decide_eq_true (List.all_eq_true.mp hz _ (List.getElem_mem hl))
  have hmem : (window (received p bs) a m)[0] ∈ received p bs :=
    List.drop_subset _ _ (List.take_subset _ _ (List.getElem_mem hl))
  obtain ⟨t, -, ht⟩ := List.mem_map.mp hmem
  rw [← ht] at h0
  exact (levelValue_pos _).ne' h0

theorem normalised_received {p : Params} (hp : Fits p) (bs : List Byte) :
    Machine.normalised p (numerics p) (received p bs) = received p bs := by
  have h : peakOf (numerics p) (received p bs) = 0 := by
    unfold peakOf
    split <;> rfl
  rw [Machine.normalised, h, if_neg (not_lt.mpr hp.valid.2.2.2.2.1.2.2.2)]

theorem onset_received {p : Params} (hp : Fits p) (bs : List Byte) :
    onsetOf p (numerics p) (received p bs) = some 0 := by
  have hl : p.preLen ≤ p.lMod bs.length := by
    unfold Params.lMod
    omega
  have hw := hp.onset
  have hv : 1 ≤ p.onsetWinN := hp.valid.1.2.2.2.2.2.2.2.1
  have ho : isOnset p (numerics p) (received p bs) 0 = true := by
    unfold isOnset windowEnergyOf
    rw [window_received_ne_zero p bs hv (by omega)]
    have := hp.floor
    simp [numerics, this]
  unfold onsetOf onsetStarts
  rw [List.range_succ_eq_map, List.map_cons, List.filter_cons_of_pos (by simp; omega),
    List.find?_cons_of_pos (by simpa using ho), Nat.zero_mul]

theorem score_received_le (p : Params) (bs : List Byte) (q : Nat) :
    candidateScore p (numerics p) (received p bs) q ≤ (2 * p.preCycles : Nat) := by
  unfold candidateScore scoreOf
  split
  · exact Nat.cast_nonneg _
  · exact le_rfl

theorem score_received {p : Params} (hp : Fits p) (bs : List Byte) :
    candidateScore p (numerics p) (received p bs) 0 = (2 * p.preCycles : Nat) := by
  have h1 : 1 ≤ p.preN := hp.valid.1.2.2.1
  have h2 : 1 ≤ p.preCycles := hp.valid.1.2.2.2.2.1
  have h3 : 1 ≤ p.postN := hp.valid.1.2.2.2.1
  unfold candidateScore scoreOf
  refine if_neg fun hz => ?_
  have hu : allZero (window (received p bs) (0 + 2 * 0 * p.preN) p.preN) = false :=
    window_received_ne_zero p bs h1 (by unfold Params.lMod; omega)
  have hm : (1 : Rat) ∈ (List.range p.preCycles).flatMap (cycleRatios p (numerics p) (received p bs) 0) := by
    refine List.mem_flatMap.mpr ⟨0, List.mem_range.mpr h2, List.mem_cons.mpr (.inl ?_)⟩
    unfold ratioOf sentinelEnergyOf
    rw [hu]
    simp [numerics]
  exact one_ne_zero (of_decide_eq_true (List.all_eq_true.mp hz _ hm))

theorem firstMax_head {f : Nat → Rat} {k : Nat} {ks : List Nat} (h : ∀ m, f m ≤ f k) :
    firstMax f (k :: ks) = some k := by
  unfold firstMax
  split
  · rfl
  · exact if_neg (not_lt.mpr (h _))

theorem synchronise_received {p : Params} (hp : Fits p) (bs : List Byte) :
    synchronise p (numerics p) (received p bs) 0 = ⟨.located, p.preLen, (2 * p.preCycles : Nat)⟩ := by
  have hl : p.preLen ≤ p.lMod bs.length := by
    unfold Params.lMod
    omega
  have hc : ∃ ks, candidates p 0 (received p bs).length = 0 :: ks := by
    unfold candidates
    rw [List.range_succ_eq_map, List.filter_cons_of_pos (by simp), List.map_cons,
      List.filter_cons_of_pos (by simp; omega)]
    exact ⟨_, by rw [Nat.zero_mul, Nat.add_zero, Nat.zero_sub]⟩
  obtain ⟨ks, hc⟩ := hc
  have hb : bestCandidate p (numerics p) (received p bs) 0 = some 0 := by
    rw [bestCandidate, hc]
    exact firstMax_head fun m => by
      rw [score_received hp]
      exact score_received_le p bs m
  have hn : (0 : Rat) ≤ (2 * p.preCycles : Nat) := Nat.cast_nonneg _
  have ht : preThresh ≤ 1 := by decide +kernel
  unfold synchronise
  rw [hb]
  simp only
  rw [score_received hp, if_pos (by nlinarith), Nat.zero_add]

theorem best_of_indicator : ∀ k, k < 16 →
    (firstMax (fun j => if j = k then (1 : Rat) else 0) (List.range 16)).getD 0 = k ∧
    (firstMax (fun j => if j = k then (1 : Rat) else 0) ((List.range 16).filter (fun j => j != k))).getD 0 ≠ k := by
  decide +kernel

/-- A slot that starts with the level of a nibble is read as that nibble, with confidence 1. -/
theorem slice_of_level {p : Params} {ys : List Rat} {k : Nat} (hk : k < 16) (hz : allZero ys = false)
    (hh : ys.headD 0 = levelValue k) :
    sliceNibble (numerics p) ys = k ∧ nibbleConfidence (numerics p) ys = 1 := by
  have he : binEnergy (numerics p) ys = fun j => if j = k then (1 : Rat) else 0 := by
    funext j
    unfold binEnergy toneEnergyOf
    rw [hz]
    have ht : (toneFreq j - 1000) / 200 = j := by
      unfold toneFreq
      omega
    simp only [numerics, ht, hh, levelValue_inj, eq_comm (a := k), Bool.false_eq_true, if_false]
  have hs : sliceNibble (numerics p) ys = k := by
    unfold sliceNibble
    rw [he]
    exact (best_of_indicator k hk).1
  have hr : runnerUp (numerics p) ys ≠ k := by
    unfold runnerUp
    rw [he, hs]
    exact (best_of_indicator k hk).2
  refine ⟨hs, ?_⟩
  unfold nibbleConfidence
  rw [hs, he]
  beta_reduce
  rw [if_pos rfl, if_neg hr]
  simp [ratioOf, numerics]

theorem nibbleAt_slot {p : Params} (hp : Fits p) (bs : List Byte) {slot : Nat} :
    nibbleAt p bs (slotStart p p.preLen slot) =
      if slot % 2 = 0 then ((bs[slot / 2]?.getD 0).extractLsb' 4 4).toNat
      else ((bs[slot / 2]?.getD 0).extractLsb' 0 4).toNat := by
  have hs : p.settleN + 2 ≤ p.toneN := hp.valid.2.2.2.1
  have hd : (slotStart p p.preLen slot - p.preLen) / p.stepN = slot := by
    unfold slotStart
    rw [show p.preLen + slot * p.stepN + p.settleN - p.preLen = p.settleN + slot * p.stepN by omega,
      Nat.add_mul_div_right _ _ (by unfold Params.stepN; omega),
      Nat.div_eq_of_lt (by unfold Params.stepN; omega), Nat.zero_add]
  unfold nibbleAt
  dsimp only
  rw [hd, if_neg (by unfold slotStart; omega)]

theorem slot_received {p : Params} (hp : Fits p) (bs : List Byte) {slot : Nat} (h : slot < 2 * bs.length) :
    slotInRange p p.preLen (received p bs).length slot = true ∧
    sliceNibble (numerics p) (window (received p bs) (slotStart p p.preLen slot) p.windowN) =
      nibbleAt p bs (slotStart p p.preLen slot) ∧
    nibbleConfidence (numerics p) (window (received p bs) (slotStart p p.preLen slot) p.windowN) = 1 := by
  have hs : p.settleN + 2 ≤ p.toneN := hp.valid.2.2.2.1
  have hm : (slot + 1) * p.stepN ≤ 2 * bs.length * p.stepN := Nat.mul_le_mul_right _ h
  rw [Nat.add_mul, Nat.one_mul] at hm
  have hr : slotStart p p.preLen slot + p.windowN ≤ p.lMod bs.length := by
    unfold slotStart Params.windowN Params.lMod
    unfold Params.stepN at *
    omega
  have hw : 1 ≤ p.windowN := by
    unfold Params.windowN
    omega
  refine ⟨by simpa [slotInRange] using hr, slice_of_level (nibbleAt_lt _ _ _)
    (window_received_ne_zero p bs hw (by omega)) ?_⟩
  have hg : (received p bs)[slotStart p p.preLen slot]? = some (levelValue (nibbleAt p bs (slotStart p p.preLen slot))) := by
    simp only [received, List.getElem?_map]
    rw [List.getElem?_range (by omega)]
    rfl
  rw [List.headD_eq_head?_getD, List.head?_eq_getElem?, window, List.getElem?_take_of_lt (by omega),
    List.getElem?_drop, Nat.add_zero, hg]
  rfl

theorem nibbles_append : ∀ b : Byte,
    BitVec.ofNat 4 (b.extractLsb' 4 4).toNat ++ BitVec.ofNat 4 (b.extractLsb' 0 4).toNat = b := by
  decide +kernel

theorem decodeByte_received {p : Params} (hp : Fits p) (bs : List Byte) {j : Nat} (h : j < bs.length) :
    decodeByte p (numerics p) (received p bs) p.preLen j = ⟨bs[j], 1, 1, false⟩ := by
  obtain ⟨-, h1, c1⟩ := slot_received hp bs (slot := 2 * j) (by omega)
  obtain ⟨r2, h2, c2⟩ := slot_received hp bs (slot := 2 * j + 1) (by omega)
  rw [nibbleAt_slot hp, if_pos (by omega), show 2 * j / 2 = j by omega, List.getElem?_eq_getElem h] at h1
  rw [nibbleAt_slot hp, if_neg (by omega), show (2 * j + 1) / 2 = j by omega, List.getElem?_eq_getElem h] at h2
  have hc : ¬ (1 : Rat) < confThresh := by decide +kernel
  unfold decodeByte
  rw [if_pos r2, assembleByte, h1, h2, c1, c2, Option.getD_some, nibbles_append, decide_eq_false hc]
  rfl

/-- The whole loopback. -/
theorem demodulate_received {p : Params} (hp : Fits p) (bs : List Byte) :
    demodulate p (numerics p) (render p (numerics p) bs) bs.length =
      ⟨.located, 0, p.preLen, (2 * p.preCycles : Nat), bs.map fun b => ⟨b, 1, 1, false⟩⟩ := by
  unfold demodulate
  rw [received_eq hp, normalised_received hp]
  simp only [onset_received hp, decodeFrom, synchronise_received hp]
  congr 1
  refine List.ext_getElem (by simp) fun j h1 h2 => ?_
  rw [List.getElem_map, List.getElem_map, List.getElem_range]
  exact decodeByte_received hp bs (by simpa using h1)

theorem loopback {p : Params} (hp : Fits p) : LoopbackIdempotent p (numerics p) := by
  have hd : ∀ frame : List Byte, frame.length = 120 → demodulate p (numerics p) (render p (numerics p) frame) 120 =
      ⟨.located, 0, p.preLen, (2 * p.preCycles : Nat), frame.map fun b => ⟨b, 1, 1, false⟩⟩ := by
    intro frame h
    rw [← demodulate_received hp, h]
  refine ⟨fun frame h => ?_, fun frame h => ?_, fun frame h => ?_⟩ <;> rw [hd frame h]
  · rw [List.map_map]
    exact List.map_id frame
  · have hz : ¬ allZero (DecodeResult.confidences
        ⟨.located, 0, p.preLen, (2 * p.preCycles : Nat), frame.map fun b => ⟨b, 1, 1, false⟩⟩) = true := by
      intro hz
      have hm : (1 : Rat) ∈ (frame.map fun b => (⟨b, 1, 1, false⟩ : DecodedByte)).flatMap
          fun d => [d.confHi, d.confLo] := by
        refine List.mem_flatMap.mpr ⟨⟨frame[0], 1, 1, false⟩, ?_, List.mem_cons_self⟩
        exact List.mem_map.mpr ⟨frame[0], List.getElem_mem _, rfl⟩
      exact one_ne_zero (of_decide_eq_true (List.all_eq_true.mp hz _ hm))
    rw [meanOf, if_neg hz]
    show mkRat 19 20 ≤ 1
    decide +kernel
  · refine List.filter_eq_nil_iff.mpr fun j hj => ?_
    have hj : j < frame.length := by simpa using hj
    simp [hj]

/-! ### The example -/

/-- The configuration of some parameters with the codebook. Where they are EX1 the last clause of rule R384, which is about
the exact semantics alone, has to be given. -/
def configurationOf (p : Params) (hp : Fits p) (hs : p = Params.ex1 → PreambleStandsOut p) : Configuration where
  params := p
  numerics := numerics p
  error := fun _ => errorBound p
  valid := hp.valid
  margins := marginsDecide_errorBound _ _
  loopback := loopback hp
  preamble := fun h =>
    ⟨fun bs _ => by
      show onsetOf p (numerics p)
        (Machine.normalised p (numerics p) ((render p (numerics p) bs).map (sampleValue (numerics p)))) = _
      rw [received_eq hp, normalised_received hp, onset_received hp], hs h⟩

/-- EX1 with a lower absolute floor. -/
def params : Params := { Params.ex1 with absFloor := 1 / 20000 }

theorem params_ne : params ≠ Params.ex1 := by decide +kernel

theorem fits : Fits params := ⟨by decide +kernel, by decide +kernel, by decide +kernel, by decide⟩

/-- The example. -/
def configuration : Configuration := configurationOf params fits fun h => absurd h params_ne

end Sys2Proof.Codebook
end

