-- ==== Sys2Proof/Machine/Configuration.lean ====
section
/-!
DEFINITION. The configuration of this block: its parameters, its NUMERICS and the implementation's error (00_scope.md
rules R8, R12). It is opaque: any configuration that meets the requirements, and nothing else is known of it.
-/

namespace Sys2Proof.Config

/-- The configuration the implementer chose: an opaque constant with no body. That the type is inhabited is all it takes
from its argument (log entry 1). -/
opaque pick [Inhabited Configuration] : Configuration

/-- The configuration of this block (rules R8, R9, R12; 44_demodulator.md rules R383, R384). -/
def configuration : Configuration := @pick ⟨Codebook.configuration⟩

/-- The parameters of this block (rule R8). -/
def params : Params := configuration.params

/-- NUMERICS of this block (rule R12). -/
def numerics : Numerics := configuration.numerics

/-- The error of this block's arithmetic in each kind of comparison on each capture (rule R12). The machine does not use
it. -/
def error : Comparison → Reference.Source → Rat := configuration.error

end Sys2Proof.Config
end

