-- ==== Sys2Proof/Machine/Memory.lean ====
section
/-!
DEFINITION. One memory of the block as a list of (element index, element) pairs in one canonical form: indices strictly
rising, all below the memory's capacity, exactly the elements written since power-on. What an unlisted element reads as
is its power-on draw (10_state.md rule R68; Machine/Ops.lean), an opaque value that no write can be compared with, so a
written element stays listed, and memories with the same written elements and values are equal data (log entry 19).
-/

namespace Sys2Proof.Machine

/-- The canonical form of a memory with `cap` elements. -/
abbrev Memory.wf {α : Type} (cap : Nat) (m : List (Nat × α)) : Prop :=
  (m.map Prod.fst).Pairwise (· < ·) ∧ ∀ e ∈ m, e.1 < cap

/-- The element written at index `i`, if one was. -/
def Memory.get? {α : Type} (m : List (Nat × α)) (i : Nat) : Option α :=
  match m with
  | [] => none
  | (k, v) :: rest => if k = i then some v else Memory.get? rest i

/-- The elements `vs` at indices `base`, `base + 1`, … -/
def Memory.indexed {α : Type} (base : Nat) (vs : List α) : List (Nat × α) :=
  match vs with
  | [] => []
  | v :: rest => (base, v) :: Memory.indexed (base + 1) rest

/-- Writes `vs` to the elements from index `base` on; every other element is kept. -/
def Memory.writeRange {α : Type} (m : List (Nat × α)) (base : Nat) (vs : List α) : List (Nat × α) :=
  m.filter (fun e => decide (e.1 < base)) ++ Memory.indexed base vs ++
    m.filter (fun e => decide (base + vs.length ≤ e.1))

end Sys2Proof.Machine
end

