-- ==== Sys2Proof/Machine/AddressMap.lean ====
section
/-!
DEFINITION. The address map (20_memory.md rules R100 to R103): the registers' offsets (10_state.md rule R30), the memory
regions (rule R101), and the decode of a bus byte address. Addresses are counted in 32-bit words, a[23:2]: bits a[1:0]
are ignored (rule R103).
-/

namespace Sys2Proof.Machine

/-- The registers of rule R30. -/
inductive Reg where
  | capMaxB | capPcmMax | capFs | capTMax
  | ctrl | status | cmd | err | crcRes
  | fType | fSev | fLat | fLon | fPop | fMsgLen
  | fMsg (i : Fin 8)
  | codeLen | sigLen | pkLen | bLen | rxLen | pcmLen | toneCnt
  | dmSync | dmOnset | dmStart | dmScore | dmConf | dmErrCnt
deriving DecidableEq, Repr

/-- The byte offset of a register (rule R30). -/
def Reg.offset : Reg → Nat
  | .capMaxB => 0x000
  | .capPcmMax => 0x004
  | .capFs => 0x008
  | .capTMax => 0x00C
  | .ctrl => 0x010
  | .status => 0x014
  | .cmd => 0x018
  | .err => 0x01C
  | .crcRes => 0x020
  | .fType => 0x040
  | .fSev => 0x044
  | .fLat => 0x048
  | .fLon => 0x04C
  | .fPop => 0x050
  | .fMsgLen => 0x054
  | .fMsg i => 0x060 + 4 * i.val
  | .codeLen => 0x080
  | .sigLen => 0x084
  | .pkLen => 0x088
  | .bLen => 0x08C
  | .rxLen => 0x090
  | .pcmLen => 0x094
  | .toneCnt => 0x098
  | .dmSync => 0x0A0
  | .dmOnset => 0x0A4
  | .dmStart => 0x0A8
  | .dmScore => 0x0AC
  | .dmConf => 0x0B0
  | .dmErrCnt => 0x0B4

/-- Every register, in the order of rule R30. -/
def Reg.all : List Reg :=
  [.capMaxB, .capPcmMax, .capFs, .capTMax, .ctrl, .status, .cmd, .err, .crcRes,
   .fType, .fSev, .fLat, .fLon, .fPop, .fMsgLen,
   .fMsg 0, .fMsg 1, .fMsg 2, .fMsg 3, .fMsg 4, .fMsg 5, .fMsg 6, .fMsg 7,
   .codeLen, .sigLen, .pkLen, .bLen, .rxLen, .pcmLen, .toneCnt,
   .dmSync, .dmOnset, .dmStart, .dmScore, .dmConf, .dmErrCnt]

/-- The register at word `w` of the register region, if rule R30 lists one there. -/
def Reg.atWord (w : Nat) : Option Reg := Reg.all.find? (fun r => r.offset == 4 * w)

/-- The memories, in the order of rule R101. -/
inductive Region where
  | code | sig | pk | bytes | epos | nconf | tones | pcm
deriving DecidableEq, Repr

/-- Every memory, in the order of rule R101. -/
def Region.all : List Region := [.code, .sig, .pk, .bytes, .epos, .nconf, .tones, .pcm]

/-- The byte address of element 0 (rule R101). -/
def Region.base : Region → Nat
  | .code => 0x001000
  | .sig => 0x001100
  | .pk => 0x001200
  | .bytes => 0x010000
  | .epos => 0x020000
  | .nconf => 0x040000
  | .tones => 0x100000
  | .pcm => 0x800000

/-- The number of elements (rules R60 to R67, R101). -/
def Region.capacity : Region → Nat
  | .code => 24
  | .sig => 64
  | .pk => 32
  | .bytes => Config.params.maxB
  | .epos => Config.params.maxB
  | .nconf => 2 * Config.params.maxB
  | .tones => Config.params.tMax
  | .pcm => Config.params.pcmMax

/-- The words an element takes: four for a tone entry, one for every other (rules R101, R102). -/
def Region.strideWords : Region → Nat
  | .tones => 4
  | .code | .sig | .pk | .bytes | .epos | .nconf | .pcm => 1

/-- The byte address of element `k`, `base + stride x k` (rule R101). -/
def Region.addr (m : Region) (k : Nat) : Nat := m.base + 4 * m.strideWords * k

/-- Word `w` of the address space lies in the memory. -/
def Region.holds (m : Region) (w : Nat) : Bool :=
  decide (m.base / 4 ≤ w) && decide (w < m.base / 4 + m.strideWords * m.capacity)

/-- What a bus word is: a register, word `f` of element `k` of a memory, or unmapped (rule R101). -/
inductive Target where
  | reg (r : Reg)
  | elem (m : Region) (k f : Nat)
  | unmapped
deriving DecidableEq, Repr

/-- Word `w` of the address space (rule R101). -/
def locateWord (w : Nat) : Target :=
  if w < 0x40 then
    match Reg.atWord w with
    | some r => .reg r
    | none => .unmapped
  else
    match Region.all.find? (fun m => m.holds w) with
    | some m => .elem m ((w - m.base / 4) / m.strideWords) ((w - m.base / 4) % m.strideWords)
    | none => .unmapped

/-- Decode of a bus byte address (rule R103). -/
def locate (a : Addr) : Target := locateWord (a.toNat / 4)

end Sys2Proof.Machine
end

