-- ==== Sys2Proof/Machine/Ops.lean ====
section
/-!
DEFINITION. The named operations over the memories and the sequencer: reading an element, writing a range of elements,
drawing unspecified contents, issue (45_control.md rule R421), completion (rule R424) and `raiseError` (60_exceptions.md
rule R452). The block has no trap: an error is a completion status, nothing is saved and nothing is returned from (rules
R455, R456), so `raiseError` is the whole of the block's exception entry and issuing the next command ends it.
-/

namespace Sys2Proof.Machine

/-! ### Draws and elements -/

/-- Draw `n` of element `k` of a memory of words: an unspecified value (93_implementation_defined.md). -/
def drawWord (n : Nat) (m : Region) (k : Nat) : Word := Config.draw n (m.addr k)

/-- Draw `n` of element `k` of a memory of bytes: bits 7:0 of the element's word (rule R102). -/
def drawByte (n : Nat) (m : Region) (k : Nat) : Byte := (drawWord n m k).setWidth 8

/-- Draw `n` of tone entry `k`: one word per field, at the field's own address (rule R102). -/
def drawTone (n k : Nat) : ToneEntry :=
  ⟨Config.draw n (Region.tones.addr k), Config.draw n (Region.tones.addr k + 4),
    Config.draw n (Region.tones.addr k + 8)⟩

/-- CODE[k]; an element not written since power-on holds its draw (rule R68). -/
def State.codeAt (s : State) (k : Nat) : Byte := (Memory.get? s.code k).getD (drawByte s.powerOnDraw .code k)

/-- SIG[k]. -/
def State.sigAt (s : State) (k : Nat) : Byte := (Memory.get? s.sig k).getD (drawByte s.powerOnDraw .sig k)

/-- PK[k]. -/
def State.pkAt (s : State) (k : Nat) : Byte := (Memory.get? s.pk k).getD (drawByte s.powerOnDraw .pk k)

/-- BYTES[k]. -/
def State.bytesAt (s : State) (k : Nat) : Byte := (Memory.get? s.bytes k).getD (drawByte s.powerOnDraw .bytes k)

/-- EPOS[k]. -/
def State.eposAt (s : State) (k : Nat) : Word := (Memory.get? s.epos k).getD (drawWord s.powerOnDraw .epos k)

/-- NCONF[k]. -/
def State.nconfAt (s : State) (k : Nat) : Word := (Memory.get? s.nconf k).getD (drawWord s.powerOnDraw .nconf k)

/-- TONES[k]. -/
def State.toneAt (s : State) (k : Nat) : ToneEntry := (Memory.get? s.tones k).getD (drawTone s.powerOnDraw k)

/-- PCM[k]. -/
def State.pcmAt (s : State) (k : Nat) : Word := (Memory.get? s.pcm k).getD (drawWord s.powerOnDraw .pcm k)

/-- CODE[base..] <- vs. -/
def State.writeCode (s : State) (base : Nat) (vs : List Byte) : State :=
  { s with code := Memory.writeRange s.code base vs }

/-- SIG[base..] <- vs. -/
def State.writeSig (s : State) (base : Nat) (vs : List Byte) : State :=
  { s with sig := Memory.writeRange s.sig base vs }

/-- PK[base..] <- vs. -/
def State.writePk (s : State) (base : Nat) (vs : List Byte) : State :=
  { s with pk := Memory.writeRange s.pk base vs }

/-- BYTES[base..] <- vs. -/
def State.writeBytes (s : State) (base : Nat) (vs : List Byte) : State :=
  { s with bytes := Memory.writeRange s.bytes base vs }

/-- EPOS[base..] <- vs. -/
def State.writeEpos (s : State) (base : Nat) (vs : List Word) : State :=
  { s with epos := Memory.writeRange s.epos base vs }

/-- NCONF[base..] <- vs. -/
def State.writeNconf (s : State) (base : Nat) (vs : List Word) : State :=
  { s with nconf := Memory.writeRange s.nconf base vs }

/-- TONES[base..] <- vs. -/
def State.writeTones (s : State) (base : Nat) (vs : List ToneEntry) : State :=
  { s with tones := Memory.writeRange s.tones base vs }

/-- PCM[base..] <- vs. -/
def State.writePcm (s : State) (base : Nat) (vs : List Word) : State :=
  { s with pcm := Memory.writeRange s.pcm base vs }

/-- Elements 0 to `count - 1` of the memory hold unspecified values, those of draw `n` (45_control.md rule R428). -/
def State.scramble (s : State) (n : Nat) (m : Region) (count : Nat) : State :=
  match m with
  | .code => s.writeCode 0 ((List.range count).map (drawByte n .code))
  | .sig => s.writeSig 0 ((List.range count).map (drawByte n .sig))
  | .pk => s.writePk 0 ((List.range count).map (drawByte n .pk))
  | .bytes => s.writeBytes 0 ((List.range count).map (drawByte n .bytes))
  | .epos => s.writeEpos 0 ((List.range count).map (drawWord n .epos))
  | .nconf => s.writeNconf 0 ((List.range count).map (drawWord n .nconf))
  | .tones => s.writeTones 0 ((List.range count).map (drawTone n))
  | .pcm => s.writePcm 0 ((List.range count).map (drawWord n .pcm))

/-! ### The sequencer -/

/-- `issue(v)`, the effect of a host write of `v` to CMD (rule R421). The snapshot IN needs no copy: while the phase is
BUSY no host access changes an input of the command (rule R422; log entry 12). -/
def State.issue (s : State) (v : Word) : State :=
  match s.phase with
  | .busy _ => { s with ovr := true }
  | .idle => { s with lastCmd := v, err := .none, done := false, phase := .busy v }

/-- The agenda once the sequencer has taken its turn. -/
def State.agendaAfterTurn (s : State) : List Turn :=
  match s.agenda with
  | .sequencer :: rest => rest
  | other => other

/-- The end of the completion step, with or without an error: ERR, BUSY <- 0, phase <- IDLE, DONE <- 1 (rule R424). -/
def State.finish (s : State) (e : ErrCode) : State :=
  { s with err := e, phase := .idle, done := true, agenda := s.agendaAfterTurn }

/-- `complete`: the command ends normally, with its writes already in `s` (rules R13, R424). -/
def State.complete (s : State) : State := s.finish .none

/-- `raise Error(e)`: the command ends at once, with none of its own writes (rule R452). -/
def State.raiseError (s : State) (e : ErrCode) : State := s.finish e

/-- The command word the sequencer completes in this step, if it is its turn: the phase is BUSY, and the agenda gives the
sequencer the next turn or is empty (rule R420: after a finite number of host steps; log entry 10). -/
def State.completing (s : State) : Option Word :=
  match s.phase, s.agenda with
  | .busy c, [] => some c
  | .busy c, .sequencer :: _ => some c
  | _, _ => none

end Sys2Proof.Machine
end

