-- ==== Sys2Proof/Machine/Operands.lean ====
section
/-!
DEFINITION. Operand assembly (30_encoding.md rule R145): F_SEV, F_LAT and F_LON as s32; F_POP and the lengths as u32;
F_TYPE, F_MSGLEN, F_MSG and the byte elements as u8; the byte sequences a command reads (00_scope.md rule R14).
-/

namespace Sys2Proof.Machine

/-- `clamp(v, lo, hi)` (00_scope.md rule R11). -/
def clamp (v lo hi : Int) : Int := if v < lo then lo else if hi < v then hi else v

/-- `bitlen(n)` (00_scope.md rule R11). -/
def bitlen (n : Nat) : Nat := if n = 0 then 0 else Nat.log2 n + 1

/-- F_SEV as s32 (rules R41, R145). -/
def State.sev (s : State) : Int := s.fSev.toInt

/-- F_LAT as s32 (rules R42, R145). -/
def State.lat (s : State) : Int := s.fLat.toInt

/-- F_LON as s32 (rules R43, R145). -/
def State.lon (s : State) : Int := s.fLon.toInt

/-- CODE[a..a+n). -/
def State.codeRange (s : State) (a n : Nat) : List Byte := (List.range n).map (fun k => s.codeAt (a + k))

/-- SIG[a..a+n). -/
def State.sigRange (s : State) (a n : Nat) : List Byte := (List.range n).map (fun k => s.sigAt (a + k))

/-- PK[a..a+n). -/
def State.pkRange (s : State) (a n : Nat) : List Byte := (List.range n).map (fun k => s.pkAt (a + k))

/-- BYTES[a..a+n). -/
def State.bytesRange (s : State) (a n : Nat) : List Byte := (List.range n).map (fun k => s.bytesAt (a + k))

/-- PCM[0..n). -/
def State.pcmRange (s : State) (n : Nat) : List Word := (List.range n).map s.pcmAt

/-- CODE[0..16], what the CRC covers (rule R200). -/
def State.codeBody (s : State) : List Byte := s.codeRange 0 17

/-- The stored checksum, CODE[17] the high byte (rules R106, R203). -/
def State.storedCrc (s : State) : Crc := s.codeAt 17 ++ s.codeAt 18

end Sys2Proof.Machine
end

