-- ==== Sys2Proof/Machine/Flags.lean ====
section
/-!
DEFINITION. The flags: STATUS and its fields (10_state.md rule R36), the interrupt level (rule R71) and the checksum
comparison behind STATUS.CRC_OK (40_crc.md rule R203, 41_field_codec.md rule R240).
-/

namespace Sys2Proof.Machine

/-- STATUS.BUSY: 1 exactly in phase BUSY (rule R69). -/
def State.busyFlag (s : State) : Bool :=
  match s.phase with
  | .idle => false
  | .busy _ => true

/-- STATUS.ERRF: reads as 1 exactly when ERR is not 0 (rule R36). -/
def State.errFlag (s : State) : Bool := decide (s.err ≠ .none)

/-- The value a read of STATUS returns (rule R36). -/
def State.statusWord (s : State) : Word :=
  BitVec.ofBool s.ovr ++ BitVec.ofBool s.crcOk ++ BitVec.ofBool s.errFlag ++ BitVec.ofBool s.done ++
    BitVec.ofBool s.busyFlag |>.setWidth 32

/-- The value a read of CTRL returns: SRST reads 0, IRQ_EN in bit 1 (rule R35). -/
def State.ctrlWord (s : State) : Word := (BitVec.ofBool s.irqEn ++ (0 : BitVec 1)).setWidth 32

/-- The interrupt output, a level: IRQ = CTRL.IRQ_EN and STATUS.DONE (rules R71, R460). -/
def State.irq (s : State) : Bool := s.irqEn && s.done

/-- `check()`: the CRC of CODE[0..16], and whether it equals the stored one (rules R203, R240). -/
def State.check (s : State) : Crc × Bool := (crc16 s.codeBody, decide (crc16 s.codeBody = s.storedCrc))

/-- The number of an error code in ERR (60_exceptions.md rule R450). -/
def ErrCode.toWord : ErrCode → Word
  | .none => 0
  | .illegalCmd => 1
  | .badLength => 2
  | .lengthMismatch => 3
  | .truncatedFrame => 4
  | .checksumMismatch => 5

/-- The number of a synchronisation outcome in DM_SYNC (10_state.md rule R54). -/
def Sync.toWord : Sync → Word
  | .none => 0
  | .located => 1
  | .fallback => 2
  | .noSignal => 3

end Sys2Proof.Machine
end

