-- ==== Sys2Proof/Machine/Bus.lean ====
section
/-!
DEFINITION. The host bus: reads and writes (20_memory.md rules R103 to R105, R110), soft reset and the abort of a running
command (45_control.md rules R427, R428), power-on reset (70_reset_and_hazards.md rule R500), and the host's turn.
-/

namespace Sys2Proof.Machine

/-! ### Reads -/

/-- The value a read of a register returns (10_state.md rules R31 to R59). -/
def State.readReg (s : State) (r : Reg) : Word :=
  match r with
  | .capMaxB => BitVec.ofNat 32 Config.params.maxB
  | .capPcmMax => BitVec.ofNat 32 Config.params.pcmMax
  | .capFs => BitVec.ofNat 32 Config.params.fs
  | .capTMax => BitVec.ofNat 32 Config.params.tMax
  | .ctrl => s.ctrlWord
  | .status => s.statusWord
  | .cmd => s.lastCmd
  | .err => s.err.toWord
  | .crcRes => s.crcRes.setWidth 32
  | .fType => s.fType.setWidth 32
  | .fSev => s.fSev
  | .fLat => s.fLat
  | .fLon => s.fLon
  | .fPop => s.fPop
  | .fMsgLen => s.fMsgLen.setWidth 32
  | .fMsg i => s.fMsg[i].setWidth 32
  | .codeLen => s.codeLen
  | .sigLen => s.sigLen
  | .pkLen => s.pkLen
  | .bLen => s.bLen
  | .rxLen => s.rxLen
  | .pcmLen => s.pcmLen
  | .toneCnt => s.toneCnt
  | .dmSync => s.dmSync.toWord
  | .dmOnset => s.dmOnset
  | .dmStart => s.dmStart
  | .dmScore => s.dmScore
  | .dmConf => s.dmConf
  | .dmErrCnt => s.dmErrCnt

/-- Word `f` of a tone entry; the fourth word is reserved and reads 0 (rule R102). -/
def ToneEntry.word (t : ToneEntry) (f : Nat) : Word :=
  match f with
  | 0 => t.freq
  | 1 => t.start
  | 2 => t.dur
  | _ => 0

/-- Word `f` of element `k` of a memory (rule R102). -/
def State.readElem (s : State) (m : Region) (k f : Nat) : Word :=
  match m with
  | .code => (s.codeAt k).setWidth 32
  | .sig => (s.sigAt k).setWidth 32
  | .pk => (s.pkAt k).setWidth 32
  | .bytes => (s.bytesAt k).setWidth 32
  | .epos => s.eposAt k
  | .nconf => s.nconfAt k
  | .tones => (s.toneAt k).word f
  | .pcm => s.pcmAt k

/-- The word a bus word holds: 0 for an unmapped one (rule R104). -/
def State.readTarget (s : State) (t : Target) : Word :=
  match t with
  | .reg r => s.readReg r
  | .elem m k f => s.readElem m k f
  | .unmapped => 0

/-- The words a host may read while the sequencer is BUSY (rules R104, R110). -/
def readableWhileBusy (t : Target) : Bool :=
  match t with
  | .reg .capMaxB | .reg .capPcmMax | .reg .capFs | .reg .capTMax => true
  | .reg .ctrl | .reg .status | .reg .cmd | .reg .err => true
  | _ => false

/-- The read of a bus word answers a draw (rule R110). -/
def State.readIsDraw (s : State) (t : Target) : Bool := s.busyFlag && !readableWhileBusy t

/-- `MemRead(a, 4)` (rule R104). The draw, too, depends on the word only: a[1:0] is ignored (rule R103). -/
def State.memRead (s : State) (a : Addr) : Word :=
  if s.readIsDraw (locate a) then Config.draw s.draws (4 * (a.toNat / 4)) else s.readTarget (locate a)

/-- The state after a host read: no side effect on the block; the value is logged and a draw is used up (rules R104,
R110; log entries 8, 11). -/
def State.afterRead (s : State) (a : Addr) : State :=
  { s with
    readLog := s.memRead a :: s.readLog
    draws := if s.readIsDraw (locate a) then s.draws + 1 else s.draws }

/-! ### Resets -/

/-- The elements a command could write, from index 0, at the largest lengths it could use (rule R428). -/
def Instr.writeSet (i : Instr) : List (Region × Nat) :=
  match i with
  | .crc => []
  | .verify => []
  | .pack => [(.code, Region.code.capacity)]
  | .unpackL => []
  | .unpackS => []
  | .packf => [(.bytes, 120)]
  | .unpackf => [(.code, Region.code.capacity), (.sig, Region.sig.capacity), (.pk, Region.pk.capacity)]
  | .tones => [(.tones, Region.tones.capacity)]
  | .mod => [(.tones, Region.tones.capacity), (.pcm, Region.pcm.capacity)]
  | .demod => [(.bytes, Region.bytes.capacity), (.epos, Region.epos.capacity), (.nconf, Region.nconf.capacity)]

/-- The write set of a command word; an illegal word writes no memory (rules R142, R428). -/
def abortSet (c : Word) : List (Region × Nat) :=
  match decode c with
  | .ok i => Instr.writeSet i
  | .error _ => []

/-- Every element of a write set holds an unspecified value, that of one draw (rule R428; log entry 9). -/
def State.scrambleAll (s : State) (n : Nat) (ranges : List (Region × Nat)) : State :=
  match ranges with
  | [] => s
  | (m, count) :: rest => (s.scramble n m count).scrambleAll n rest

/-- The abort of the running command, if there is one (rules R427, R428). -/
def State.abort (s : State) : State :=
  match s.phase with
  | .idle => s
  | .busy c => { s.scrambleAll s.draws (abortSet c) with draws := s.draws + 1 }

/-- Every register at its reset value and the phase IDLE; the memories and the model's own fields of `s` (rule R30). -/
def State.resetRegisters (s : State) : State :=
  { State.reset with
    code := s.code, sig := s.sig, pk := s.pk, bytes := s.bytes
    epos := s.epos, nconf := s.nconf, tones := s.tones, pcm := s.pcm
    agenda := s.agenda, readLog := s.readLog, draws := s.draws, powerOnDraw := s.powerOnDraw }

/-- `soft_reset()` (rule R427). -/
def State.softReset (s : State) : State := s.abort.resetRegisters

/-- Power-on reset: every register at its reset value, every memory element unspecified, from a new draw (rules R68,
R500; log entry 15). -/
def State.powerOnReset (s : State) : State :=
  { State.reset with agenda := s.agenda, readLog := s.readLog, draws := s.draws + 1, powerOnDraw := s.draws }

/-! ### Writes -/

/-- A write to CTRL: SRST, or IRQ_EN (rules R35, R105). -/
def State.writeCtrl (s : State) (v : Word) : State :=
  if v.getLsbD 0 then s.softReset else { s with irqEn := v.getLsbD 1 }

/-- A write to STATUS: 1 clears DONE, 1 clears OVR (rules R36, R105). -/
def State.writeStatus (s : State) (v : Word) : State :=
  { s with done := s.done && !v.getLsbD 1, ovr := s.ovr && !v.getLsbD 4 }

/-- A write to a register in phase IDLE; a read-only register ignores it (rules R30, R105). -/
def State.writeReg (s : State) (r : Reg) (v : Word) : State :=
  match r with
  | .ctrl => s.writeCtrl v
  | .status => s.writeStatus v
  | .cmd => s.issue v
  | .fType => { s with fType := v.setWidth 8 }
  | .fSev => { s with fSev := v }
  | .fLat => { s with fLat := v }
  | .fLon => { s with fLon := v }
  | .fPop => { s with fPop := v }
  | .fMsgLen => { s with fMsgLen := v.setWidth 8 }
  | .fMsg i => { s with fMsg := s.fMsg.set i (v.setWidth 8) }
  | .codeLen => { s with codeLen := v }
  | .sigLen => { s with sigLen := v }
  | .pkLen => { s with pkLen := v }
  | .bLen => { s with bLen := v }
  | .rxLen => { s with rxLen := v }
  | .pcmLen => { s with pcmLen := v }
  | .capMaxB | .capPcmMax | .capFs | .capTMax | .err | .crcRes | .toneCnt => s
  | .dmSync | .dmOnset | .dmStart | .dmScore | .dmConf | .dmErrCnt => s

/-- A write to an element in phase IDLE: bits 7:0 of a byte element, all of a PCM sample, nothing of EPOS, NCONF and
TONES (rules R102, R105). -/
def State.writeElem (s : State) (m : Region) (k : Nat) (v : Word) : State :=
  match m with
  | .code => s.writeCode k [v.setWidth 8]
  | .sig => s.writeSig k [v.setWidth 8]
  | .pk => s.writePk k [v.setWidth 8]
  | .bytes => s.writeBytes k [v.setWidth 8]
  | .pcm => s.writePcm k [v]
  | .epos | .nconf | .tones => s

/-- A write in phase IDLE (rule R105). -/
def State.writeTarget (s : State) (t : Target) (v : Word) : State :=
  match t with
  | .reg r => s.writeReg r v
  | .elem m k _ => s.writeElem m k v
  | .unmapped => s

/-- The words a host may write while the sequencer is BUSY (rules R105, R425). -/
def writableWhileBusy (t : Target) : Bool :=
  match t with
  | .reg .ctrl | .reg .status => true
  | _ => false

/-- `MemWrite(a, 4, v)`: while BUSY a write to any word but CTRL and STATUS is dropped and sets OVR (rules R105,
R425). -/
def State.memWrite (s : State) (a : Addr) (v : Word) : State :=
  if s.busyFlag && !writableWhileBusy (locate a) then { s with ovr := true } else s.writeTarget (locate a) v

/-! ### The host's turn -/

/-- The agenda once a turn has been taken from it. -/
def State.withAgenda (s : State) (rest : List Turn) : State := { s with agenda := rest }

/-- One turn of the agenda that is not a completion (rule R420): a host access, a power-on reset, or nothing where the
sequencer has no command to complete or no turn is left. -/
def State.hostTurn (s : State) : State :=
  match s.agenda with
  | [] => s
  | .hostRead a :: rest => (s.withAgenda rest).afterRead a
  | .hostWrite a v :: rest => (s.withAgenda rest).memWrite a v
  | .sequencer :: rest => s.withAgenda rest
  | .powerOn :: rest => (s.withAgenda rest).powerOnReset

end Sys2Proof.Machine
end

