-- ==== Sys2Proof/Machine/CrcUnit.lean ====
section
/-!
DEFINITION. The commands of the CRC-16 generator: CRC and VERIFY (40_crc.md rules R202, R203).
-/

namespace Sys2Proof.Machine

/-- CRC_RES <- c. -/
def State.withCrc (s : State) (c : Crc) : State := { s with crcRes := c }

/-- STATUS.CRC_OK <- ok. -/
def State.withCrcOk (s : State) (ok : Bool) : State := { s with crcOk := ok }

/-- CRC: CRC_RES <- crc16(CODE[0..16]) (rule R202). -/
def execCrc (s : State) : Host.Outcome State Fault Refusal :=
  .next (s.withCrc (crc16 s.codeBody)).complete

/-- VERIFY: CRC_RES and CRC_OK from the checksum comparison; a mismatch is a result, not an error (rule R203). -/
def execVerify (s : State) : Host.Outcome State Fault Refusal :=
  .next ((s.withCrc s.check.1).withCrcOk s.check.2).complete

end Sys2Proof.Machine
end

