-- ==== Sys2Proof/Machine/Demodulator.lean ====
section
/-!
DEFINITION. The Goertzel FSK demodulator's command DEMOD (44_demodulator.md rules R379, R380).
-/

namespace Sys2Proof.Machine

/-- The result of demodulating PCM[0..PCM_LEN) into RX_LEN bytes. -/
def State.demodResult (s : State) : DecodeResult :=
  demodulate Config.params Config.numerics (s.pcmRange s.pcmLen.toNat) s.rxLen.toNat

/-- Storage of a DecodeResult (rule R379). -/
def State.storeResult (s : State) (r : DecodeResult) : State :=
  { s with
    bytes := Memory.writeRange s.bytes 0 (r.decoded.map DecodedByte.value)
    nconf := Memory.writeRange s.nconf 0 (r.confidences.map round32)
    epos := Memory.writeRange s.epos 0 (r.errorPositions.map (BitVec.ofNat 32))
    bLen := s.rxLen
    dmErrCnt := BitVec.ofNat 32 r.errorPositions.length
    dmConf := round32 (meanOf Config.numerics r.confidences)
    dmSync := r.sync
    dmOnset := BitVec.ofNat 32 r.onset
    dmStart := BitVec.ofNat 32 r.start
    dmScore := round32 r.score }

/-- RX_LEN or PCM_LEN exceeds the capacity of its memory (rule R451). -/
def State.captureTooLong (s : State) : Bool :=
  decide (Config.params.maxB < s.rxLen.toNat) || decide (Config.params.pcmMax < s.pcmLen.toNat)

/-- DEMOD: BAD_LENGTH, or the best-effort result, whatever PCM holds (rules R380, R381, R451). -/
def execDemod (s : State) : Host.Outcome State Fault Refusal :=
  .next (if s.captureTooLong then s.raiseError .badLength else (s.storeResult s.demodResult).complete)

end Sys2Proof.Machine
end

