-- ==== Sys2Proof/Machine/FieldCodec.lean ====
section
/-!
DEFINITION. The field codec: the encoders and decoders of the SemanticCode's fields (41_field_codec.md rules R231 to
R240, layout 30_encoding.md rule R146) and the commands PACK, UNPACK.L and UNPACK.S.
-/

namespace Sys2Proof.Machine

/-! ### Encoders -/

/-- `enc_sev` (rule R232). -/
def encSev (v : Int) : Byte := BitVec.ofInt 8 (clamp v 1 9)

/-- `enc_lat` (rule R233). -/
def encLat (v : Int) : BitVec 24 := BitVec.ofInt 24 (clamp (v + 900000) 0 0xFFFFFF)

/-- `enc_lon` (rule R233). -/
def encLon (v : Int) : BitVec 24 := BitVec.ofInt 24 (clamp (v + 1800000) 0 0xFFFFFF)

/-- `bucket(p)` (rule R234). -/
def bucket (p : Nat) : Nat := if p ≤ 1 then 0 else min 15 (bitlen (p - 1))

/-- `enc_pop`: the bucket in bits 7:4, bits 3:0 zero (rules R147, R234). -/
def encPop (p : Nat) : Byte := BitVec.ofNat 8 (bucket p <<< 4)

/-- Byte `i` of `enc_msg`: the first `min(F_MSGLEN, 8)` bytes unchanged, then zeros (rule R235). -/
def encMsgAt (len : Byte) (msg : Vector Byte 8) (i : Nat) : Byte :=
  if i < min len.toNat 8 then msg[i]?.getD 0 else 0

/-- The three bytes of a u24 field, most significant first (rule R106). -/
def bytes24 (v : BitVec 24) : List Byte := [v.extractLsb' 16 8, v.extractLsb' 8 8, v.extractLsb' 0 8]

/-- The two bytes of the stored CRC, CODE[17] the high byte (rule R146). -/
def bytes16 (v : Crc) : List Byte := [v.extractLsb' 8 8, v.extractLsb' 0 8]

/-- CODE[0..16] as PACK writes it (rule R236). -/
def State.packBody (s : State) : List Byte :=
  [s.fType, encSev s.sev] ++ bytes24 (encLat s.lat) ++ bytes24 (encLon s.lon) ++ [encPop s.fPop.toNat] ++
    (List.range 8).map (encMsgAt s.fMsgLen s.fMsg)

/-- CODE[0..23] as PACK writes it: the body, its CRC, and five zero bytes (rules R147, R236). -/
def State.packCode (s : State) : List Byte :=
  s.packBody ++ bytes16 (crc16 s.packBody) ++ [0, 0, 0, 0, 0]

/-! ### Decoders -/

/-- `lat` of three CODE bytes (rule R237). -/
def decLat (a b c : Byte) : Int := ((a ++ b ++ c).toNat : Int) - 900000

/-- `lon` of three CODE bytes (rule R237). -/
def decLon (a b c : Byte) : Int := ((a ++ b ++ c).toNat : Int) - 1800000

/-- `2^(CODE[8] >> 4)` (rule R238). -/
def decPop (b : Byte) : Word := BitVec.ofNat 32 (2 ^ (b >>> 4).toNat)

/-- The least index of a zero byte, or the number of bytes if there is none (rule R239). -/
def msgLength (bs : List Byte) : Nat :=
  match bs with
  | [] => 0
  | b :: rest => if b = 0 then 0 else msgLength rest + 1

/-- The message length UNPACK writes: the least i in 0..7 with CODE[9 + i] = 0, or 8 (rule R239). -/
def State.unpackedLen (s : State) : Nat := msgLength (s.codeRange 9 8)

/-- F_MSG[i] as UNPACK writes it (rule R239). -/
def State.unpackedMsgAt (s : State) (i : Nat) : Byte := if i < s.unpackedLen then s.codeAt (9 + i) else 0

/-- `unpack_core()`: writes every F_ register (rule R240). -/
def State.unpackCore (s : State) : State :=
  { s with
    fType := s.codeAt 0
    fSev := (s.codeAt 1).setWidth 32
    fLat := BitVec.ofInt 32 (decLat (s.codeAt 2) (s.codeAt 3) (s.codeAt 4))
    fLon := BitVec.ofInt 32 (decLon (s.codeAt 5) (s.codeAt 6) (s.codeAt 7))
    fPop := decPop (s.codeAt 8)
    fMsgLen := BitVec.ofNat 8 s.unpackedLen
    fMsg := #v[s.unpackedMsgAt 0, s.unpackedMsgAt 1, s.unpackedMsgAt 2, s.unpackedMsgAt 3,
      s.unpackedMsgAt 4, s.unpackedMsgAt 5, s.unpackedMsgAt 6, s.unpackedMsgAt 7] }

/-- The fields, CRC_RES and CRC_OK an UNPACK that writes its results writes (rules R241, R242). -/
def State.unpackWith (s : State) (crc : Crc) (ok : Bool) : State :=
  { s.unpackCore with crcRes := crc, crcOk := ok }

/-- CODE, CRC_RES and CODE_LEN as PACK writes them (rule R236). -/
def State.packed (s : State) : State :=
  { s with code := Memory.writeRange s.code 0 s.packCode, crcRes := crc16 s.packBody, codeLen := 24 }

/-! ### Commands -/

/-- PACK (rule R236): never fails. -/
def execPack (s : State) : Host.Outcome State Fault Refusal :=
  .next s.packed.complete

/-- UNPACK.L, lenient: the fields are written whatever the checksum, and CRC_OK says whether it held (rule R241). -/
def execUnpackL (s : State) : Host.Outcome State Fault Refusal :=
  .next (s.unpackWith s.check.1 s.check.2).complete

/-- UNPACK.S, strict: a checksum mismatch raises CHECKSUM_MISMATCH and writes nothing (rule R242). -/
def execUnpackS (s : State) : Host.Outcome State Fault Refusal :=
  .next (if s.check.2 then (s.unpackWith s.check.1 true).complete else s.raiseError .checksumMismatch)

end Sys2Proof.Machine
end

