-- ==== Sys2Proof/Machine/FrameCodec.lean ====
section
/-!
DEFINITION. The frame codec: PACKF and UNPACKF (42_frame_codec.md rules R261 to R263, layout 30_encoding.md rule R148).
-/

namespace Sys2Proof.Machine

/-- The declared lengths PACKF requires (rules R261, R262). -/
def State.lengthsOk (s : State) : Bool :=
  decide (s.codeLen = 24) && decide (s.sigLen = 64) && decide (s.pkLen = 32)

/-- The WireFrame of CODE, SIG and PK (rules R148, R260). -/
def State.wireFrame (s : State) : List Byte := s.codeRange 0 24 ++ s.sigRange 0 64 ++ s.pkRange 0 32

/-- The WireFrame in BYTES[0..119], and BLEN <- 120 (rule R262). -/
def State.joinFrame (s : State) : State :=
  { s with bytes := Memory.writeRange s.bytes 0 s.wireFrame, bLen := 120 }

/-- PACKF: LENGTH_MISMATCH, or the frame in BYTES[0..119] and BLEN <- 120 (rule R262). -/
def execPackf (s : State) : Host.Outcome State Fault Refusal :=
  .next (if s.lengthsOk then s.joinFrame.complete else s.raiseError .lengthMismatch)

/-- The frame's parts in CODE, SIG and PK, and their lengths (rule R263). -/
def State.splitFrame (s : State) : State :=
  { s with
    code := Memory.writeRange s.code 0 (s.bytesRange 0 24)
    sig := Memory.writeRange s.sig 0 (s.bytesRange 24 64)
    pk := Memory.writeRange s.pk 0 (s.bytesRange 88 32)
    codeLen := 24, sigLen := 64, pkLen := 32 }

/-- UNPACKF: TRUNCATED_FRAME unless BLEN is 120, or the frame's parts (rule R263). -/
def execUnpackf (s : State) : Host.Outcome State Fault Refusal :=
  .next (if s.bLen = 120 then s.splitFrame.complete else s.raiseError .truncatedFrame)

end Sys2Proof.Machine
end

