-- ==== Sys2Proof/Machine/Modulator.lean ====
section
/-!
DEFINITION. The FSK modulator's commands TONES and MOD (43_modulator.md rules R308, R315).
-/

namespace Sys2Proof.Machine

/-- BYTES[0..BLEN), what TONES and MOD modulate. -/
def State.payload (s : State) : List Byte := s.bytesRange 0 s.bLen.toNat

/-- TONES[0..NTONES) and TONE_CNT of the timeline of BYTES[0..BLEN) (rule R308). -/
def State.withTimeline (s : State) : State :=
  { s with
    tones := Memory.writeRange s.tones 0 ((timeline Config.params s.payload).map Tone.entry)
    toneCnt := BitVec.ofNat 32 (Config.params.nTones s.bLen.toNat) }

/-- PCM[0..LMOD) and PCM_LEN of the rendering of BYTES[0..BLEN) (rule R315). -/
def State.withWaveform (s : State) : State :=
  { s with
    pcm := Memory.writeRange s.pcm 0 (render Config.params Config.numerics s.payload)
    pcmLen := BitVec.ofNat 32 (Config.params.lMod s.bLen.toNat) }

/-- TONES: BAD_LENGTH when BLEN > MAXB, or the timeline (rules R308, R451). -/
def execTones (s : State) : Host.Outcome State Fault Refusal :=
  .next (if Config.params.maxB < s.bLen.toNat then s.raiseError .badLength else s.withTimeline.complete)

/-- MOD: BAD_LENGTH when BLEN > MAXB, or the timeline and its rendering (rules R315, R451). -/
def execMod (s : State) : Host.Outcome State Fault Refusal :=
  .next (if Config.params.maxB < s.bLen.toNat then s.raiseError .badLength
    else s.withTimeline.withWaveform.complete)

end Sys2Proof.Machine
end

