-- ==== Sys2Proof/Machine/Dispatch.lean ====
section
/-!
DEFINITION. `exec(c, IN)` of a legal command and its completion (45_control.md rules R423, R424): one arm per command.
-/

namespace Sys2Proof.Machine

def exec (i : Instr) (s : State) : Host.Outcome State Fault Refusal :=
  match i with
  | .crc => Sys2Proof.Machine.execCrc s
  | .verify => Sys2Proof.Machine.execVerify s
  | .pack => Sys2Proof.Machine.execPack s
  | .unpackL => Sys2Proof.Machine.execUnpackL s
  | .unpackS => Sys2Proof.Machine.execUnpackS s
  | .packf => Sys2Proof.Machine.execPackf s
  | .unpackf => Sys2Proof.Machine.execUnpackf s
  | .tones => Sys2Proof.Machine.execTones s
  | .mod => Sys2Proof.Machine.execMod s
  | .demod => Sys2Proof.Machine.execDemod s

end Sys2Proof.Machine
end

