-- ==== Sys2Proof/Machine/Step.lean ====
section
/-!
DEFINITION. One step of the interleaving (45_control.md rule R420): the completion of the running command, or the next
turn of the host; and the placing of a command word where the next step completes it.
-/

namespace Sys2Proof.Machine

/-- One step (rule R420). An illegal command word completes with ILLEGAL_CMD and no other effect (rules R142, R423). -/
def step (s : State) : Host.Outcome State Fault Refusal :=
  match s.completing with
  | none => .next s.hostTurn
  | some c =>
    match decode c with
    | .ok i => exec i s
    | .error _ => .next (s.raiseError .illegalCmd)

/-- `s` with the command word `w` issued and the sequencer's turn next: what a host write to CMD in phase IDLE leaves,
followed by a completion after no host step (rules R420, R421; log entry 13). -/
def State.withFetchWord (s : State) (nbits w : Nat) : State :=
  { ({ s with phase := .idle }).issue (BitVec.ofNat 32 (w % 2 ^ nbits)) with agenda := .sequencer :: s.agenda }

end Sys2Proof.Machine
end

