-- ==== Sys2Proof/Safety.lean ====
section
/-!
DEFINITION. What counts as a safe run, in the terms the statements use: what a step leaves unchanged, read through the
model's own reads of registers and elements; how a command ends; and the invariant every step keeps.
-/

namespace Sys2Proof.Safety

open Sys2Proof.Machine

/-- Every register outside `rs` reads as before (10_state.md rule R30). -/
def RegsSame (rs : List Reg) (s t : State) : Prop := ∀ r, r ∉ rs → t.readReg r = s.readReg r

/-- Every element of every memory reads as before, word by word, but for those `written` says. -/
def ElemsSame (written : Region → Nat → Prop) (s t : State) : Prop :=
  ∀ m k f, ¬ written m k → t.readElem m k f = s.readElem m k f

/-- Every element of every memory reads as before. -/
def MemorySame (s t : State) : Prop := ∀ m k f, t.readElem m k f = s.readElem m k f

/-- The model's own fields but the agenda are as before. -/
def OwnSame (s t : State) : Prop :=
  t.readLog = s.readLog ∧ t.draws = s.draws ∧ t.powerOnDraw = s.powerOnDraw

/-- The completion step of `s` ended in `t` with the error code `e` (45_control.md rule R424): IDLE, DONE = 1, ERR = e,
and OVR, IRQ_EN and LASTCMD as before. -/
def CompletedWith (e : ErrCode) (s t : State) : Prop :=
  t.phase = .idle ∧ t.done = true ∧ t.err = e ∧ t.ovr = s.ovr ∧ t.irqEn = s.irqEn ∧ t.lastCmd = s.lastCmd ∧
    t.agenda = s.agendaAfterTurn ∧ OwnSame s t

/-- A command of `s` ended in `t` with the error `e` and no other effect (60_exceptions.md rule R452). -/
def FailedWith (e : ErrCode) (s t : State) : Prop :=
  CompletedWith e s t ∧ t.crcOk = s.crcOk ∧ RegsSame [.status, .err] s t ∧ MemorySame s t

/-- It is the sequencer's turn to complete the command word `c` (45_control.md rule R420). -/
def TurnToComplete (s : State) (c : Word) : Prop :=
  s.phase = .busy c ∧ (s.agenda = [] ∨ ∃ rest, s.agenda = .sequencer :: rest)

/-- The F_ registers of `t` are the fields decoded from CODE of `s` (41_field_codec.md rules R237 to R240): type and
severity raw, latitude and longitude less their offsets, 2 to the POP nibble, and the message up to its first zero
byte. -/
def FieldsDecoded (s t : State) : Prop :=
  t.fType = s.codeAt 0 ∧ t.fSev.toNat = (s.codeAt 1).toNat ∧
  t.fLat.toInt = ((s.codeAt 2 ++ s.codeAt 3 ++ s.codeAt 4).toNat : Int) - 900000 ∧
  t.fLon.toInt = ((s.codeAt 5 ++ s.codeAt 6 ++ s.codeAt 7).toNat : Int) - 1800000 ∧
  t.fPop.toNat = 2 ^ ((s.codeAt 8).toNat / 16) ∧
  ∃ m, m ≤ 8 ∧ (∀ i, i < m → s.codeAt (9 + i) ≠ 0) ∧ (m < 8 → s.codeAt (9 + m) = 0) ∧ t.fMsgLen.toNat = m ∧
    ∀ i : Fin 8, t.fMsg[i] = if i.val < m then s.codeAt (9 + i.val) else 0

/-- The registers UNPACK writes, with STATUS and ERR, which every completion writes (30_encoding.md rule R144). -/
def unpackRegs : List Reg :=
  [.status, .err, .crcRes, .fType, .fSev, .fLat, .fLon, .fPop, .fMsgLen,
   .fMsg 0, .fMsg 1, .fMsg 2, .fMsg 3, .fMsg 4, .fMsg 5, .fMsg 6, .fMsg 7]

/-- The registers DEMOD writes, with STATUS and ERR (30_encoding.md rule R144). -/
def demodRegs : List Reg :=
  [.status, .err, .bLen, .dmSync, .dmOnset, .dmStart, .dmScore, .dmConf, .dmErrCnt]

/-- A tone entry with the given fields, as u32 (10_state.md rule R66). -/
def toneOf (f start dur : Nat) : ToneEntry := ⟨BitVec.ofNat 32 f, BitVec.ofNat 32 start, BitVec.ofNat 32 dur⟩

/-- TONES and TONE_CNT of `t` are the timeline of BYTES[0..BLEN) of `s`: preamble, data, postamble (43_modulator.md
rules R304 to R306, R308). -/
def TimelineWritten (s t : State) : Prop :=
  let p := Config.params
  let n := s.bLen.toNat
  (∀ c, c < p.preCycles →
    t.toneAt (2 * c) = toneOf p.fLo (2 * c * p.preN) p.preN ∧
    t.toneAt (2 * c + 1) = toneOf p.fHi ((2 * c + 1) * p.preN) p.preN) ∧
  (∀ j, j < n →
    t.toneAt (2 * p.preCycles + 2 * j) =
      toneOf (1000 + 200 * ((s.bytesAt j).toNat / 16)) (p.preLen + 2 * j * p.stepN) p.toneN ∧
    t.toneAt (2 * p.preCycles + 2 * j + 1) =
      toneOf (1000 + 200 * ((s.bytesAt j).toNat % 16)) (p.preLen + (2 * j + 1) * p.stepN) p.toneN) ∧
  t.toneAt (2 * p.preCycles + 2 * n) = toneOf p.fHi (p.preLen + 2 * n * p.stepN) p.postN ∧
  t.toneCnt.toNat = 2 * p.preCycles + 2 * n + 1

/-- Word `f` of element `k` of a memory as draw number `n` gives it (93_implementation_defined.md I1, I3). -/
def drawnElem (n : Nat) (m : Region) (k f : Nat) : Word :=
  match m with
  | .code | .sig | .pk | .bytes => (drawByte n m k).setWidth 32
  | .epos | .nconf | .pcm => drawWord n m k
  | .tones => (drawTone n k).word f

/-- The invariant every step keeps: canonical memories within their capacities; while BUSY, LASTCMD is the running
command, ERR is 0 and DONE is 0; the counts fit their memories; before any DEMOD, and after a NOSIGNAL one, the
demodulator's results are 0; the power-on draw is older than the next one. -/
structure Inv (s : State) : Prop where
  code : Memory.wf Region.code.capacity s.code
  sig : Memory.wf Region.sig.capacity s.sig
  pk : Memory.wf Region.pk.capacity s.pk
  bytes : Memory.wf Region.bytes.capacity s.bytes
  epos : Memory.wf Region.epos.capacity s.epos
  nconf : Memory.wf Region.nconf.capacity s.nconf
  tones : Memory.wf Region.tones.capacity s.tones
  pcm : Memory.wf Region.pcm.capacity s.pcm
  busy : ∀ c, s.phase = .busy c → s.lastCmd = c ∧ s.err = .none ∧ s.done = false
  toneCnt : s.toneCnt.toNat ≤ Config.params.tMax
  dmErrCnt : s.dmErrCnt.toNat ≤ Config.params.maxB
  noDemod : s.dmSync = .none →
    s.dmOnset = 0 ∧ s.dmStart = 0 ∧ s.dmScore = 0 ∧ s.dmConf = 0 ∧ s.dmErrCnt = 0
  noSignal : s.dmSync = .noSignal → s.dmOnset = 0 ∧ s.dmStart = 0 ∧ s.dmScore = 0 ∧ s.dmConf = 0
  drawn : s.powerOnDraw < s.draws

end Sys2Proof.Safety
end

