-- ==== Sys2Proof/Certificates/Slice0/Obligations.lean ====
section
/-!
DEFINITION. The statements for the provers, family by family: the command word, the step, the five units, the errors, the
bus, the resets and the interrupt. Each docstring says which rules of spec/ the statement formalises.
-/

open Sys2Proof Sys2Proof.Machine Sys2Proof.Safety

/-! ### The command word (30_encoding.md) -/

/-- Rule R151, with rule R142's decode: a word decodes to a command exactly when it is that command's word; every
command is well formed. -/
def Obligations.DecodeInvertsEncode : Prop :=
  (∀ i : Instr, i.WellFormed) ∧ ∀ (w : Word) (i : Instr), decode w = .ok i ↔ w = encode i

/-- Rule R142: which words are legal; an illegal word is accepted for issue in phase IDLE and completes with ILLEGAL_CMD
and no other effect. -/
def Obligations.LegalWordsAndIllegalCompletion : Prop :=
  (∀ w : Word, (∃ i, decode w = .ok i) ↔
    w.extractLsb' 9 23 = 0 ∧
      ((w.extractLsb' 0 8 ∈ [0x01#8, 0x02#8, 0x03#8, 0x05#8, 0x06#8, 0x07#8, 0x08#8, 0x09#8] ∧
          w.getLsbD 8 = false) ∨
        w.extractLsb' 0 8 = 0x04#8)) ∧
  (∀ (s : State) (w : Word), s.phase = .idle → (s.issue w).phase = .busy w) ∧
  ∀ (s : State) (c : Word), TurnToComplete s c → (¬ ∃ i, decode c = .ok i) →
    ∃ t, step s = .next t ∧ FailedWith .illegalCmd s t

/-- Rule R151: the command words of all ten mnemonics. -/
def Obligations.DecodesTheWordsOfTheTable : Prop :=
  decode 0x00000001#32 = .ok .crc ∧ decode 0x00000002#32 = .ok .verify ∧ decode 0x00000003#32 = .ok .pack ∧
  decode 0x00000004#32 = .ok .unpackL ∧ decode 0x00000104#32 = .ok .unpackS ∧
  decode 0x00000005#32 = .ok .packf ∧ decode 0x00000006#32 = .ok .unpackf ∧
  decode 0x00000007#32 = .ok .tones ∧ decode 0x00000008#32 = .ok .mod ∧ decode 0x00000009#32 = .ok .demod

/-! ### The step (45_control.md) -/

/-- Rules R105, R420, R423, R424 (derived): when it is the sequencer's turn and the running word decodes to a command, the
step is that command's `exec`, with nothing around it; when it is the host's turn to write, the step is that write. The
agenda of turns is the model's form of the interleaving (log entry 10). The last clause is the model's choice:
`withFetchWord` stands for a host's write to CMD with the sequencer's turn next (log entries 10, 13), and the word it
places is run by the very next step. -/
def Obligations.StepRunsTheDecodedCommand : Prop :=
  (∀ (s : State) (c : Word) (i : Instr), TurnToComplete s c → decode c = .ok i → step s = exec i s) ∧
  (∀ (s : State) (a : Addr) (v : Word) (rest : List Turn), s.agenda = .hostWrite a v :: rest →
    step s = .next ((s.withAgenda rest).memWrite a v)) ∧
  ∀ (s : State) (nbits w : Nat) (i : Instr), decodeTableWord nbits w = some i →
    step (s.withFetchWord nbits w) = exec i (s.withFetchWord nbits w)

/-- Rules R104, R105, R142, R455 (derived): no access faults, decode is total and an error is a completion status, so
every step answers a next state. -/
def Obligations.StepAlwaysAnswersNext : Prop := ∀ s : State, ∃ t, step s = .next t

/-- Rules R420, R422 (derived; the agenda is the model's own interleaving, log entry 10): from every state, within as many
steps as the agenda has turns and one more, the sequencer is IDLE: no command blocks. -/
def Obligations.NoCommandBlocks : Prop :=
  ∀ s : State, ∃ k, k ≤ s.agenda.length + 1 ∧ ∃ t, Sys2Proof.core.run k s = .next t ∧ t.phase = .idle

/-- The invariant of Safety.lean holds after every step from every state in which it holds (rules R38, R53, R54, R59,
R60 to R67, R118, R421, R424). Its clauses on the memories' canonical lists and on the draw numbers are the model's choice
(log entries 19 and 7). -/
def Obligations.EveryStepKeepsInv : Prop := ∀ s t : State, Inv s → step s = .next t → Inv t

/-- The invariant holds right after reset. -/
def Obligations.ResetMeetsInv : Prop := Inv State.reset

/-! ### The CRC-16 generator (40_crc.md) -/

/-- Rule R201: the check value. -/
def Obligations.Crc16CatalogueCheck : Prop :=
  crc16 [0x31, 0x32, 0x33, 0x34, 0x35, 0x36, 0x37, 0x38, 0x39] = 0x29B1#16

/-- Rule R200 (derived): the CRC of a message followed by its own CRC, high byte first, is 0, so a stored checksum is
right exactly when the CRC runs to 0 over it; the CRC of the empty message is the initial value. -/
def Obligations.CrcOfAMessageAndItsCrcIsZero : Prop :=
  crc16 [] = 0xFFFF#16 ∧
  ∀ (bs : List Byte) (hi lo : Byte), crc16 (bs ++ [hi, lo]) = 0 ↔ hi ++ lo = crc16 bs

/-- Rule R202: CRC writes crc16(CODE[0..16]) to CRC_RES and nothing else of its own. -/
def Obligations.CrcWritesTheChecksum : Prop :=
  ∀ s : State, ∃ t, exec .crc s = .next t ∧
    t.readReg .crcRes = (crc16 ((List.range 17).map s.codeAt)).setWidth 32 ∧
    t.crcOk = s.crcOk ∧ CompletedWith .none s t ∧ RegsSame [.status, .err, .crcRes] s t ∧ MemorySame s t

/-- Rule R203: VERIFY writes the checksum to CRC_RES and the outcome of the comparison with CODE[17..18] to CRC_OK; a
mismatch is no error. -/
def Obligations.VerifyComparesTheChecksum : Prop :=
  ∀ s : State, ∃ t, exec .verify s = .next t ∧
    t.readReg .crcRes = (crc16 ((List.range 17).map s.codeAt)).setWidth 32 ∧
    t.crcOk = decide (crc16 ((List.range 17).map s.codeAt) =
      (s.codeAt 17).setWidth 16 <<< 8 ||| (s.codeAt 18).setWidth 16) ∧
    CompletedWith .none s t ∧ RegsSame [.status, .err, .crcRes] s t ∧ MemorySame s t

/-- Rule R204: with one bit of one byte of CODE flipped, VERIFY of a valid code fails when the byte is one of 0 to 18, and
a flip in bytes 19 to 23 never changes VERIFY's result. -/
def Obligations.VerifyCatchesSingleBitFlips : Prop :=
  ∀ (s t : State) (j b : Nat), j < 24 → b < 8 →
    (∀ k, k < 24 → k ≠ j → t.codeAt k = s.codeAt k) → t.codeAt j = s.codeAt j ^^^ (1#8 <<< b) →
    ∃ u v, exec .verify s = .next u ∧ exec .verify t = .next v ∧
      (j ≤ 18 → u.crcOk = true → v.crcOk = false) ∧ (19 ≤ j → v.crcOk = u.crcOk)

/-! ### The field codec (41_field_codec.md) -/

/-- Rules R231 to R236: every field of the SemanticCode PACK writes, its CRC, CRC_RES and CODE_LEN, and nothing else. The
bucket is stated as the clamped base-2 logarithm rounded up. -/
def Obligations.PackEncodesTheFields : Prop :=
  ∀ s : State, ∃ t, exec .pack s = .next t ∧
    t.codeAt 0 = s.fType ∧
    ((t.codeAt 1).toNat : Int) = max 1 (min 9 s.fSev.toInt) ∧
    ((t.codeAt 2 ++ t.codeAt 3 ++ t.codeAt 4).toNat : Int) = max 0 (min 0xFFFFFF (s.fLat.toInt + 900000)) ∧
    ((t.codeAt 5 ++ t.codeAt 6 ++ t.codeAt 7).toNat : Int) = max 0 (min 0xFFFFFF (s.fLon.toInt + 1800000)) ∧
    (t.codeAt 8).toNat = 16 * min 15 (Nat.clog 2 s.fPop.toNat) ∧
    (∀ i : Fin 8, t.codeAt (9 + i.val) = if i.val < min s.fMsgLen.toNat 8 then s.fMsg[i] else 0) ∧
    t.codeAt 17 ++ t.codeAt 18 = crc16 ((List.range 17).map t.codeAt) ∧
    (∀ k, 19 ≤ k → k < 24 → t.codeAt k = 0) ∧
    t.readReg .crcRes = (crc16 ((List.range 17).map t.codeAt)).setWidth 32 ∧ t.codeLen = 24 ∧
    t.crcOk = s.crcOk ∧ CompletedWith .none s t ∧ RegsSame [.status, .err, .crcRes, .codeLen] s t ∧
    ElemsSame (fun m k => m = .code ∧ k < 24) s t

/-- Rules R237 to R241: UNPACK.L writes every field and the checksum's outcome, whatever the checksum. -/
def Obligations.LenientUnpackDecodesTheFields : Prop :=
  ∀ s : State, ∃ t, exec .unpackL s = .next t ∧ FieldsDecoded s t ∧
    t.readReg .crcRes = (crc16 ((List.range 17).map s.codeAt)).setWidth 32 ∧
    t.crcOk = decide (crc16 ((List.range 17).map s.codeAt) = s.codeAt 17 ++ s.codeAt 18) ∧
    CompletedWith .none s t ∧ RegsSame unpackRegs s t ∧ MemorySame s t

/-- Rule R242: where the checksum holds UNPACK.S writes every field, CRC_RES and CRC_OK = 1; where it does not, it fails
with CHECKSUM_MISMATCH and writes no F_ register, CRC_RES or CRC_OK. -/
def Obligations.StrictUnpackDecodesOrRejects : Prop :=
  (∀ s : State, crc16 ((List.range 17).map s.codeAt) = s.codeAt 17 ++ s.codeAt 18 →
    ∃ t, exec .unpackS s = .next t ∧ FieldsDecoded s t ∧
      t.readReg .crcRes = (crc16 ((List.range 17).map s.codeAt)).setWidth 32 ∧ t.crcOk = true ∧
      CompletedWith .none s t ∧ RegsSame unpackRegs s t ∧ MemorySame s t) ∧
  ∀ s : State, crc16 ((List.range 17).map s.codeAt) ≠ s.codeAt 17 ++ s.codeAt 18 →
    ∃ t, exec .unpackS s = .next t ∧ FailedWith .checksumMismatch s t

/-- Rule R243: PACK then UNPACK.S (and then UNPACK.L the same) gives back the clamped fields, the bucketed population and
the message up to its first NUL, with CRC_OK = 1 and no error. -/
def Obligations.PackThenUnpackGivesTheFields : Prop :=
  ∀ s : State, ∃ t u, exec .pack s = .next t ∧ exec .unpackS t = .next u ∧ exec .unpackL t = .next u ∧
    u.err = .none ∧ u.crcOk = true ∧ u.fType = s.fType ∧
    u.fSev.toInt = max 1 (min 9 s.fSev.toInt) ∧
    u.fLat.toInt = max 0 (min 0xFFFFFF (s.fLat.toInt + 900000)) - 900000 ∧
    u.fLon.toInt = max 0 (min 0xFFFFFF (s.fLon.toInt + 1800000)) - 1800000 ∧
    u.fPop.toNat = 2 ^ min 15 (Nat.clog 2 s.fPop.toNat) ∧
    ∃ m, m ≤ min s.fMsgLen.toNat 8 ∧ (∀ i : Fin 8, i.val < m → s.fMsg[i] ≠ 0) ∧
      (∀ i : Fin 8, i.val = m → i.val < s.fMsgLen.toNat → s.fMsg[i] = 0) ∧ u.fMsgLen.toNat = m ∧
      ∀ i : Fin 8, u.fMsg[i] = if i.val < m then s.fMsg[i] else 0

/-- Rule R244: UNPACK (either mode) then PACK of a code with a valid checksum gives back its 24 bytes exactly when the
code is canonical. -/
def Obligations.UnpackThenPackRestoresCanonicalCodes : Prop :=
  ∀ s : State, crc16 ((List.range 17).map s.codeAt) = s.codeAt 17 ++ s.codeAt 18 →
    ∃ t u, exec .unpackS s = .next t ∧ exec .unpackL s = .next t ∧ exec .pack t = .next u ∧
      ((∀ k, k < 24 → u.codeAt k = s.codeAt k) ↔
        1 ≤ (s.codeAt 1).toNat ∧ (s.codeAt 1).toNat ≤ 9 ∧ (s.codeAt 8).toNat % 16 = 0 ∧
        (∀ i j, i < j → j < 8 → s.codeAt (9 + i) = 0 → s.codeAt (9 + j) = 0) ∧
        ∀ k, 19 ≤ k → k < 24 → s.codeAt k = 0)

/-! ### The frame codec (42_frame_codec.md) -/

/-- Rule R262: with the declared lengths right PACKF writes the WireFrame and BLEN, and nothing else; with any of them
wrong, shorter or longer, it fails with LENGTH_MISMATCH. -/
def Obligations.PackfBuildsTheFrame : Prop :=
  (∀ s : State, s.codeLen = 24 → s.sigLen = 64 → s.pkLen = 32 →
    ∃ t, exec .packf s = .next t ∧
      (∀ k, k < 24 → t.bytesAt k = s.codeAt k) ∧ (∀ k, k < 64 → t.bytesAt (24 + k) = s.sigAt k) ∧
      (∀ k, k < 32 → t.bytesAt (88 + k) = s.pkAt k) ∧ t.bLen = 120 ∧ t.crcOk = s.crcOk ∧
      CompletedWith .none s t ∧ RegsSame [.status, .err, .bLen] s t ∧
      ElemsSame (fun m k => m = .bytes ∧ k < 120) s t) ∧
  ∀ s : State, ¬ (s.codeLen = 24 ∧ s.sigLen = 64 ∧ s.pkLen = 32) →
    ∃ t, exec .packf s = .next t ∧ FailedWith .lengthMismatch s t

/-- Rule R263: with BLEN = 120 UNPACKF writes the frame's parts and the three lengths, and nothing else; with any other
BLEN it fails with TRUNCATED_FRAME. -/
def Obligations.UnpackfSplitsTheFrame : Prop :=
  (∀ s : State, s.bLen = 120 →
    ∃ t, exec .unpackf s = .next t ∧
      (∀ k, k < 24 → t.codeAt k = s.bytesAt k) ∧ (∀ k, k < 64 → t.sigAt k = s.bytesAt (24 + k)) ∧
      (∀ k, k < 32 → t.pkAt k = s.bytesAt (88 + k)) ∧ t.codeLen = 24 ∧ t.sigLen = 64 ∧ t.pkLen = 32 ∧
      t.crcOk = s.crcOk ∧ CompletedWith .none s t ∧
      RegsSame [.status, .err, .codeLen, .sigLen, .pkLen] s t ∧
      ElemsSame (fun m k => (m = .code ∧ k < 24) ∨ (m = .sig ∧ k < 64) ∨ (m = .pk ∧ k < 32)) s t) ∧
  ∀ s : State, s.bLen ≠ 120 → ∃ t, exec .unpackf s = .next t ∧ FailedWith .truncatedFrame s t

/-- Rule R264: PACKF then UNPACKF leaves CODE, SIG and PK unchanged and the lengths at 24, 64, 32. -/
def Obligations.FrameRoundTrip : Prop :=
  ∀ s : State, s.codeLen = 24 → s.sigLen = 64 → s.pkLen = 32 →
    ∃ t u, exec .packf s = .next t ∧ exec .unpackf t = .next u ∧
      (∀ k, k < 24 → u.codeAt k = s.codeAt k) ∧ (∀ k, k < 64 → u.sigAt k = s.sigAt k) ∧
      (∀ k, k < 32 → u.pkAt k = s.pkAt k) ∧ u.codeLen = 24 ∧ u.sigLen = 64 ∧ u.pkLen = 32

/-! ### The modulator (43_modulator.md) -/

/-- Rules R304 to R306 and R308: with BLEN at most MAXB, TONES writes the timeline of BYTES[0..BLEN) and TONE_CNT, and
nothing else; with a greater BLEN it fails with BAD_LENGTH. -/
def Obligations.TonesWritesTheTimeline : Prop :=
  (∀ s : State, s.bLen.toNat ≤ Config.params.maxB →
    ∃ t, exec .tones s = .next t ∧ TimelineWritten s t ∧ t.crcOk = s.crcOk ∧ CompletedWith .none s t ∧
      RegsSame [.status, .err, .toneCnt] s t ∧
      ElemsSame (fun m k => m = .tones ∧ k < Config.params.nTones s.bLen.toNat) s t) ∧
  ∀ s : State, Config.params.maxB < s.bLen.toNat → ∃ t, exec .tones s = .next t ∧ FailedWith .badLength s t

/-- Rule R315: with BLEN at most MAXB, MOD writes the timeline and LMOD(BLEN) samples of NUMERICS.synth, each finite and
in [-AMP, AMP] (rule R313; that a NUMERICS outside the range is replaced by +0.0 is the model's choice, log entry 6), and
nothing else; with a greater BLEN it fails with BAD_LENGTH. -/
def Obligations.ModRendersTheTimeline : Prop :=
  (∀ s : State, s.bLen.toNat ≤ Config.params.maxB →
    ∃ t, exec .mod s = .next t ∧ TimelineWritten s t ∧
      t.pcmLen.toNat = Config.params.preLen + 2 * s.bLen.toNat * Config.params.stepN + Config.params.postN ∧
      (∀ n, n < t.pcmLen.toNat →
        t.pcmAt n = synthSample Config.params Config.numerics ((List.range s.bLen.toNat).map s.bytesAt) n ∧
        f32NonFinite (t.pcmAt n) = false ∧
        -Config.params.amp ≤ f32Value (t.pcmAt n) ∧ f32Value (t.pcmAt n) ≤ Config.params.amp) ∧
      t.crcOk = s.crcOk ∧ CompletedWith .none s t ∧ RegsSame [.status, .err, .toneCnt, .pcmLen] s t ∧
      ElemsSame (fun m k => (m = .tones ∧ k < Config.params.nTones s.bLen.toNat) ∨
        (m = .pcm ∧ k < Config.params.lMod s.bLen.toNat)) s t) ∧
  ∀ s : State, Config.params.maxB < s.bLen.toNat → ∃ t, exec .mod s = .next t ∧ FailedWith .badLength s t

/-- Rule R316: what MOD writes is a function of BLEN and BYTES[0..BLEN) only. -/
def Obligations.ModDependsOnThePayloadOnly : Prop :=
  ∀ s s' : State, s.bLen.toNat ≤ Config.params.maxB → s'.bLen = s.bLen →
    (∀ k, k < s.bLen.toNat → s'.bytesAt k = s.bytesAt k) →
    ∃ t t', exec .mod s = .next t ∧ exec .mod s' = .next t' ∧ t'.toneCnt = t.toneCnt ∧ t'.pcmLen = t.pcmLen ∧
      (∀ k, k < t.toneCnt.toNat → t'.toneAt k = t.toneAt k) ∧ ∀ n, n < t.pcmLen.toNat → t'.pcmAt n = t.pcmAt n

/-- Rule R307: in the timeline of every byte sequence, every tone ends at or before the next one starts, all of them by
LMOD, and the samples no tone covers are exactly the GAP_N samples after each data tone; the timeline has NTONES
entries. -/
def Obligations.TimelineTonesDoNotOverlap : Prop :=
  ∀ (p : Params) (bs : List Byte),
    (timeline p bs).Pairwise (fun a b => a.start + a.dur ≤ b.start) ∧
    (∀ a ∈ timeline p bs, a.start + a.dur ≤ p.lMod bs.length) ∧
    (∀ n, n < p.lMod bs.length →
      ((∀ a ∈ timeline p bs, ¬ (a.start ≤ n ∧ n < a.start + a.dur)) ↔
        ∃ slot, slot < 2 * bs.length ∧ p.preLen + slot * p.stepN + p.toneN ≤ n ∧
          n < p.preLen + (slot + 1) * p.stepN)) ∧
    (timeline p bs).length = p.nTones bs.length

/-- Rule R301: the table is strictly increasing, so distinct bytes have distinct tones, and no data tone is a sentinel. -/
def Obligations.ToneTableIsInjective : Prop :=
  (∀ m n : Nat, m < n → toneFreq m < toneFreq n) ∧
  (∀ (p : Params) (j : Nat) (a b : Byte), byteTones p j a = byteTones p j b → a = b) ∧
  ∀ p : Params, p.Valid → ∀ n, n < 16 →
    1000 ≤ toneFreq n ∧ toneFreq n ≤ 4000 ∧ toneFreq n ≠ p.fLo ∧ toneFreq n ≠ p.fHi

/-- Rule R314: the exact reference waveform of every transmission lies in [-AMP, AMP], and AMP is at most 1. -/
def Obligations.ReferenceWaveformInRange : Prop :=
  ∀ p : Params, p.Valid → ∀ (bs : List Byte) (n : Nat),
    |Reference.signal p bs n| ≤ (p.amp : ℝ) ∧ (p.amp : ℝ) ≤ 1

/-! ### The demodulator (44_demodulator.md) -/

/-- Rule R381: DEMOD with lengths in range completes without error whatever PCM holds (an infinity or a NaN too: log
entry 5), and writes only its own outputs: RX_LEN bytes, their confidences, and at most RX_LEN error positions, which are
strictly increasing byte indices (rule R64); with a length beyond its capacity it fails with BAD_LENGTH (rule R451). -/
def Obligations.DemodAlwaysCompletes : Prop :=
  (∀ s : State, s.rxLen.toNat ≤ Config.params.maxB → s.pcmLen.toNat ≤ Config.params.pcmMax →
    ∃ t, exec .demod s = .next t ∧ CompletedWith .none s t ∧ t.crcOk = s.crcOk ∧ t.bLen = s.rxLen ∧
      t.dmSync ≠ .none ∧ t.dmErrCnt.toNat ≤ s.rxLen.toNat ∧
      (∀ e, e < t.dmErrCnt.toNat → (t.eposAt e).toNat < s.rxLen.toNat) ∧
      (∀ e, e + 1 < t.dmErrCnt.toNat → (t.eposAt e).toNat < (t.eposAt (e + 1)).toNat) ∧
      RegsSame demodRegs s t ∧
      ElemsSame (fun m k => (m = .bytes ∧ k < s.rxLen.toNat) ∨ (m = .nconf ∧ k < 2 * s.rxLen.toNat) ∨
        (m = .epos ∧ k < t.dmErrCnt.toNat)) s t) ∧
  ∀ s : State, Config.params.maxB < s.rxLen.toNat ∨ Config.params.pcmMax < s.pcmLen.toNat →
    ∃ t, exec .demod s = .next t ∧ FailedWith .badLength s t

/-- Rules R376, R379 and R380 (derived): what DEMOD computes and stores. Of a capture with an infinity or a NaN the spec
gives no result (rule R380); that it is computed as any other, from a free value for such a sample (`sampleValue`), is the
model's choice (log entry 5). The working copy is the capture divided by its peak where
the peak exceeds SILENT_PEAK (rule R358). Without an onset the result is NOSIGNAL: every byte 0 and flagged, confidences 0
(rule R378); with one, the synchronisation at that onset gives DM_SYNC, DM_START and DM_SCORE, and byte j is decoded at
that start. Every byte is stored with its two confidences, EPOS holds exactly the flagged indices in increasing order, and
the rest of every memory is kept. -/
def Obligations.DemodStoresTheResult : Prop :=
  (∀ s : State, s.rxLen.toNat ≤ Config.params.maxB → s.pcmLen.toNat ≤ Config.params.pcmMax →
    let p := Config.params
    let num := Config.numerics
    let raw := (List.range s.pcmLen.toNat).map fun n => sampleValue num (s.pcmAt n)
    let xs := if p.silentPeak < peakOf num raw then raw.map (fun x => normaliseOf num x (peakOf num raw)) else raw
    let d : Nat → DecodedByte := fun j =>
      match onsetOf p num xs with
      | none => ⟨0, 0, 0, true⟩
      | some o => decodeByte p num xs (synchronise p num xs o).start j
    ∃ t, exec .demod s = .next t ∧ CompletedWith .none s t ∧ t.crcOk = s.crcOk ∧ RegsSame demodRegs s t ∧
      (∀ j, j < s.rxLen.toNat →
        t.bytesAt j = (d j).value ∧ t.nconfAt (2 * j) = round32 (d j).confHi ∧
        t.nconfAt (2 * j + 1) = round32 (d j).confLo ∧
        ((d j).flagged = true ↔ ∃ e, e < t.dmErrCnt.toNat ∧ (t.eposAt e).toNat = j)) ∧
      (∀ e, e < t.dmErrCnt.toNat → (t.eposAt e).toNat < s.rxLen.toNat) ∧
      (∀ e, e + 1 < t.dmErrCnt.toNat → (t.eposAt e).toNat < (t.eposAt (e + 1)).toNat) ∧
      t.bLen = s.rxLen ∧
      t.dmConf = round32 (meanOf num ((List.range s.rxLen.toNat).flatMap fun j => [(d j).confHi, (d j).confLo])) ∧
      (onsetOf p num xs = none →
        t.readReg .dmSync = 3 ∧ t.dmOnset = 0 ∧ t.dmStart = 0 ∧ t.dmScore = 0) ∧
      (∀ o, onsetOf p num xs = some o →
        let y := synchronise p num xs o
        (y.sync = .located ∧ t.readReg .dmSync = 1 ∨ y.sync = .fallback ∧ t.readReg .dmSync = 2) ∧
        t.dmOnset.toNat = o ∧ t.dmStart.toNat = y.start ∧ t.dmScore = round32 y.score) ∧
      ElemsSame (fun m k => (m = .bytes ∧ k < s.rxLen.toNat) ∨ (m = .nconf ∧ k < 2 * s.rxLen.toNat) ∨
        (m = .epos ∧ k < t.dmErrCnt.toNat)) s t) ∧
  ∀ s : State, Config.params.maxB < s.rxLen.toNat ∨ Config.params.pcmMax < s.pcmLen.toNat →
    ∃ t, exec .demod s = .next t ∧ FailedWith .badLength s t

/-- Rule R382, with rules R362 and R378: a capture of zero samples gives NOSIGNAL, confidence 0 and every byte flagged. -/
def Obligations.DemodOfSilenceIsNoSignal : Prop :=
  ∀ s : State, s.rxLen.toNat ≤ Config.params.maxB → s.pcmLen.toNat ≤ Config.params.pcmMax →
    (∀ n, n < s.pcmLen.toNat → f32NonFinite (s.pcmAt n) = false ∧ f32Value (s.pcmAt n) = 0) →
    ∃ t, exec .demod s = .next t ∧ t.err = .none ∧ t.dmSync = .noSignal ∧ t.dmOnset = 0 ∧ t.dmStart = 0 ∧
      t.dmScore = 0 ∧ t.dmConf = 0 ∧ t.bLen = s.rxLen ∧ t.dmErrCnt = s.rxLen ∧
      ∀ j, j < s.rxLen.toNat →
        t.bytesAt j = 0 ∧ (t.eposAt j).toNat = j ∧ t.nconfAt (2 * j) = 0 ∧ t.nconfAt (2 * j + 1) = 0

/-- Rules R362, R368 and R375 (derived): a capture shorter than the preamble is never LOCATED; every byte is past its end,
so every byte is 0 and flagged and the confidence is 0. -/
def Obligations.DemodOfAShortCaptureFlagsEverything : Prop :=
  ∀ s : State, s.rxLen.toNat ≤ Config.params.maxB → s.pcmLen.toNat < Config.params.preLen →
    ∃ t, exec .demod s = .next t ∧ t.err = .none ∧ (t.dmSync = .fallback ∨ t.dmSync = .noSignal) ∧
      t.dmScore = 0 ∧ t.dmConf = 0 ∧ t.bLen = s.rxLen ∧ t.dmErrCnt = s.rxLen ∧
      ∀ j, j < s.rxLen.toNat →
        t.bytesAt j = 0 ∧ (t.eposAt j).toNat = j ∧ t.nconfAt (2 * j) = 0 ∧ t.nconfAt (2 * j + 1) = 0

/-- Rules R118 and R380 (derived): DEMOD reads PCM[k] only for k < PCM_LEN, and besides it RX_LEN and PCM_LEN only. -/
def Obligations.DemodReadsTheCaptureOnly : Prop :=
  ∀ s s' : State, s.rxLen.toNat ≤ Config.params.maxB → s.pcmLen.toNat ≤ Config.params.pcmMax →
    s'.rxLen = s.rxLen → s'.pcmLen = s.pcmLen → (∀ n, n < s.pcmLen.toNat → s'.pcmAt n = s.pcmAt n) →
    ∃ t t', exec .demod s = .next t ∧ exec .demod s' = .next t' ∧
      (∀ r, r ∈ [Reg.bLen, .dmSync, .dmOnset, .dmStart, .dmScore, .dmConf, .dmErrCnt] →
        t'.readReg r = t.readReg r) ∧
      (∀ j, j < s.rxLen.toNat → t'.bytesAt j = t.bytesAt j) ∧
      (∀ j, j < 2 * s.rxLen.toNat → t'.nconfAt j = t.nconfAt j) ∧
      ∀ e, e < t.dmErrCnt.toNat → t'.eposAt e = t.eposAt e

/-- Rules R360 and R361: the onset is the first window, by the stride, that fits and whose energy exceeds 10 times the
noise floor or the absolute floor; there is none exactly when no window does. -/
def Obligations.OnsetIsTheFirstLoudWindow : Prop :=
  ∀ (p : Params) (num : Numerics) (xs : List Rat), p.Valid →
    let loud := fun k : Nat => k * p.onsetStrideN + p.onsetWinN ≤ xs.length ∧
      (10 * noiseOf num (xs.take (min p.noiseN xs.length)) <
          windowEnergyOf num ((xs.drop (k * p.onsetStrideN)).take p.onsetWinN) ∨
        p.absFloor < windowEnergyOf num ((xs.drop (k * p.onsetStrideN)).take p.onsetWinN))
    (∀ w, onsetOf p num xs = some w ↔ ∃ k, w = k * p.onsetStrideN ∧ loud k ∧ ∀ k', k' < k → ¬ loud k') ∧
    (onsetOf p num xs = none ↔ ∀ k, ¬ loud k)

/-- Rules R364 to R368: with no candidate the outcome is the fallback with score 0; with one it is decided by the first
candidate of greatest score, accepted at 40% of 2 x PRE_CYCLES. A candidate's score is the sum of its ratios, the low
sentinel over the high one in the first window of each cycle and the high over the low in the second. -/
def Obligations.SyncTakesTheFirstBestCandidate : Prop :=
  ∀ (p : Params) (num : Numerics) (xs : List Rat) (onset : Nat), p.Valid →
    let cand := fun q : Nat => ∃ k, k * p.searchStepN ≤ p.searchSpanN ∧
      q = onset - p.preBackoffN + k * p.searchStepN ∧ q + p.preLen ≤ xs.length
    let score := fun q : Nat => scoreOf num ((List.range p.preCycles).flatMap fun c =>
      let u := (xs.drop (q + 2 * c * p.preN)).take p.preN
      let v := (xs.drop (q + (2 * c + 1) * p.preN)).take p.preN
      [ratioOf num (sentinelEnergyOf num u p.fLo) (sentinelEnergyOf num u p.fHi),
        ratioOf num (sentinelEnergyOf num v p.fHi) (sentinelEnergyOf num v p.fLo)])
    ((∀ q, ¬ cand q) → synchronise p num xs onset = ⟨.fallback, onset + p.preLen, 0⟩) ∧
    ((∃ q, cand q) → ∃ q, cand q ∧ (∀ q', cand q' → score q' ≤ score q) ∧
      (∀ q', cand q' → score q' = score q → q ≤ q') ∧
      (mkRat 40 100 * (2 * p.preCycles : Nat) ≤ score q →
        synchronise p num xs onset = ⟨.located, q + p.preLen, score q⟩) ∧
      (score q < mkRat 40 100 * (2 * p.preCycles : Nat) →
        synchronise p num xs onset = ⟨.fallback, onset + p.preLen, score q⟩))

/-- Rules R371 to R373: the slicer takes the least bin of greatest energy, the runner-up is a bin of greatest energy among
the others, and the confidence is their ratio. -/
def Obligations.SlicerTakesTheLoudestBin : Prop :=
  ∀ (num : Numerics) (ys : List Rat),
    let energy := fun k : Nat => toneEnergyOf num ys (1000 + 200 * k)
    let b := sliceNibble num ys
    b < 16 ∧ (∀ k, k < 16 → energy k ≤ energy b) ∧ (∀ k, k < b → energy k < energy b) ∧
    ∃ r, r < 16 ∧ r ≠ b ∧ (∀ k, k < 16 → k ≠ b → energy k ≤ energy r) ∧
      nibbleConfidence num ys = ratioOf num (energy b) (energy r)

/-- Rules R370, R374 and R375: a byte whose low-nibble slot ends within the capture has the two sliced nibbles, high
first, and is flagged when a confidence is below 0.55; any other byte is 0, with confidences 0, and flagged. -/
def Obligations.BytesAreAssembledFromSlots : Prop :=
  ∀ (p : Params) (num : Numerics) (xs : List Rat) (start j : Nat),
    let first := fun slot : Nat => start + slot * (p.toneN + p.gapN) + p.settleN
    let samples := fun slot : Nat => (xs.drop (first slot)).take (p.toneN - p.settleN)
    let d := decodeByte p num xs start j
    (first (2 * j + 1) + (p.toneN - p.settleN) ≤ xs.length →
      d.value.toNat = 16 * sliceNibble num (samples (2 * j)) + sliceNibble num (samples (2 * j + 1)) ∧
      d.confHi = nibbleConfidence num (samples (2 * j)) ∧
      d.confLo = nibbleConfidence num (samples (2 * j + 1)) ∧
      (d.flagged = true ↔ d.confHi < mkRat 55 100 ∨ d.confLo < mkRat 55 100)) ∧
    (xs.length < first (2 * j + 1) + (p.toneN - p.settleN) → d = ⟨0, 0, 0, true⟩)

/-- Rule R12 for the slicer (derived): if every bin's energy is within `δ` of an exact value, and one bin's exact value
exceeds every other by more than `2 δ`, the slicer takes that bin. -/
def Obligations.SlicerFollowsAClearMargin : Prop :=
  ∀ (num : Numerics) (ys : List Rat) (exact : Nat → ℝ) (δ : ℝ) (b : Nat), b < 16 →
    (∀ k, k < 16 → Reference.Close δ (toneEnergyOf num ys (toneFreq k)) (exact k)) →
    (∀ k, k < 16 → k ≠ b → exact k + 2 * δ < exact b) → sliceNibble num ys = b

/-- Rule R352: the Goertzel recurrence gives the energy of the Fourier sum, in exact arithmetic; it is never negative, and
0 for a sequence of zeros. -/
def Obligations.GoertzelGivesTheFourierEnergy : Prop :=
  ∀ (w : ℝ) (ys : List ℝ), Reference.goertzelEnergy w ys = ‖Reference.fourierSum w 0 ys‖ ^ 2 ∧
    0 ≤ Reference.goertzelEnergy w ys ∧ ((∀ y ∈ ys, y = 0) → Reference.goertzelEnergy w ys = 0)

/-- Rule R12 (derived): on a capture of finite samples, given or rendered by MOD behind some silence (then the exact
semantics starts from the exact waveform: log entry 17), what the exact semantics decides by margins larger than the
implementation's error, the block decides the same: the onset at a window clearly above a threshold with every earlier one
clearly below both, no onset where all are clearly below, the synchronisation where one candidate's score is clearly the
greatest and clear of the threshold, the nibble of a slot where one bin's energy is clearly the greatest, and whether a
nibble's confidence is low. Every configuration of the block has such an error (Machine/Requirements.lean; log entry
17). -/
def Obligations.ClearMarginsDecideAsExact : Prop :=
  ∀ (p : Params) (num : Numerics) (err : Comparison → Reference.Source → Rat),
    p.Valid → Reference.MarginsDecide p num err →
    ∀ src : Reference.Source, (∀ w ∈ src.words p num, f32NonFinite w = false) →
      let len := (src.words p num).length
      let xs := Reference.blockCopy p num src
      let exact := Reference.exactCopy p src
      let overNoise := fun w : Nat => Reference.windowEnergy p exact w - 10 * Reference.noiseFloor p exact
      let overFloor := fun w : Nat => Reference.windowEnergy p exact w - p.absFloor
      let over40 := fun q : Nat => Reference.score p exact q - 40 / 100 * (2 * p.preCycles)
      let fits := fun k : Nat => k * p.onsetStrideN + p.onsetWinN ≤ len
      let loud := fun k : Nat => fits k ∧ ((err .onset src : ℝ) < overNoise (k * p.onsetStrideN) ∨
        (err .absFloor src : ℝ) < overFloor (k * p.onsetStrideN))
      let quiet := fun k : Nat => fits k → overNoise (k * p.onsetStrideN) < -(err .onset src : ℝ) ∧
        overFloor (k * p.onsetStrideN) < -(err .absFloor src : ℝ)
      (∀ k, loud k → (∀ j, j < k → quiet j) → onsetOf p num xs = some (k * p.onsetStrideN)) ∧
      ((∀ k, quiet k) → onsetOf p num xs = none) ∧
      (∀ onset q, q ∈ candidates p onset len →
        (∀ q' ∈ candidates p onset len, q' ≠ q →
          (err .score src : ℝ) < Reference.score p exact q - Reference.score p exact q') →
        (err .acceptance src : ℝ) < |over40 q| →
        (0 < over40 q → (synchronise p num xs onset).sync = .located ∧
          (synchronise p num xs onset).start = q + p.preLen) ∧
        (over40 q < 0 → (synchronise p num xs onset).sync = .fallback ∧
          (synchronise p num xs onset).start = onset + p.preLen)) ∧
      (∀ a b, a + p.windowN ≤ len → b < 16 →
        (∀ k, k < 16 → k ≠ b →
          (err .bin src : ℝ) < Reference.slotEnergy p exact a b - Reference.slotEnergy p exact a k) →
        sliceNibble num (window xs a p.windowN) = b) ∧
      ∀ a, a + p.windowN ≤ len → (err .confidence src : ℝ) < |55 / 100 - Reference.slotConfidence p exact a| →
        (nibbleConfidence num (window xs a p.windowN) < mkRat 55 100 ↔ Reference.slotConfidence p exact a < 55 / 100)

/-- Rule R12 (derived): `round32` gives the nearest binary32 value, ties to even, of every value in the finite range.
That a value beyond it gives an infinity of its sign is the format's own rule (log entry 23). -/
def Obligations.Round32IsNearestTiesToEven : Prop :=
  ∀ r : Rat, (|r| < 2 ^ 128 - 2 ^ 103 → Reference.IsRound32 r (round32 r)) ∧
    (2 ^ 128 - 2 ^ 103 ≤ r → round32 r = 0x7F800000) ∧ (r ≤ -(2 ^ 128 - 2 ^ 103) → round32 r = 0xFF800000)

/-- Rule R383: MOD of a 120-byte frame and then DEMOD of the rendered samples with RX_LEN = 120 completes with the frame
in BYTES, no error position and a stored confidence that is the rounding of at least 0.95.

Rule R384 (derived), MOD of any payload and then DEMOD of any expected length. For EX1 with no leading silence the exact
first window is above ABS_FLOOR and the onset is 0. Behind `z` samples of silence the preamble's position z and its two
neighbours have the same exact score; for EX1 the first position of greatest exact score is z - 1, where that is a
candidate, and for z = 0 it is 0. The block takes a position whose exact score is no further below that of z than the
error: which of the tied and nearly tied ones is left to NUMERICS (rule R12, 93_implementation_defined.md I6).

What is required of every configuration is rule R383, and of EX1 rule R384 (log entry 16); the exact semantics of a
rendered capture starts from the exact waveform (log entry 17). -/
def Obligations.LoopbackRestoresTheFrame : Prop :=
  let p := Config.params
  (∀ s : State, s.bLen = 120 → ∃ t, exec .mod s = .next t ∧
    ∀ t' : State, t'.rxLen = 120 → t'.pcmLen = t.pcmLen → (∀ n, n < t.pcmLen.toNat → t'.pcmAt n = t.pcmAt n) →
      ∃ u, exec .demod t' = .next u ∧ u.err = .none ∧ (∀ k, k < 120 → u.bytesAt k = s.bytesAt k) ∧
        u.dmErrCnt = 0 ∧ ∃ c : Rat, mkRat 95 100 ≤ c ∧ u.dmConf = round32 c) ∧
  (p = Params.ex1 → ∀ s : State, s.bLen.toNat ≤ p.maxB → ∃ t, exec .mod s = .next t ∧
    let src : Reference.Source := .transmission 0 ((List.range s.bLen.toNat).map s.bytesAt)
    (p.absFloor : ℝ) < Reference.windowEnergy p (Reference.exactCopy p src) 0 ∧
    ∀ t' : State, t'.rxLen.toNat ≤ p.maxB → t'.pcmLen = t.pcmLen →
      (∀ n, n < t.pcmLen.toNat → t'.pcmAt n = t.pcmAt n) →
      ∃ u, exec .demod t' = .next u ∧ u.dmSync ≠ .noSignal ∧ u.dmOnset = 0) ∧
  ∀ (s : State) (z : Nat), s.bLen.toNat ≤ p.maxB → z + p.lMod s.bLen.toNat ≤ p.pcmMax →
    ∃ t, exec .mod s = .next t ∧
    let src : Reference.Source := .transmission z ((List.range s.bLen.toNat).map s.bytesAt)
    let score := Reference.score p (Reference.exactCopy p src)
    let cands := fun onset : Nat => candidates p onset (z + t.pcmLen.toNat)
    score (z - 1) = score z ∧ score (z + 1) = score z ∧
    (p = Params.ex1 → ∀ onset, z - 1 ∈ cands onset → firstMax score (cands onset) = some (z - 1)) ∧
    ∀ t' : State, t'.rxLen.toNat ≤ p.maxB → t'.pcmLen.toNat = z + t.pcmLen.toNat →
      (∀ n, n < z → t'.pcmAt n = 0) → (∀ n, n < t.pcmLen.toNat → t'.pcmAt (z + n) = t.pcmAt n) →
      ∃ u, exec .demod t' = .next u ∧
        (u.dmSync = .located → z ∈ cands u.dmOnset.toNat →
          ∃ q ∈ cands u.dmOnset.toNat, u.dmStart.toNat = q + p.preLen ∧ score z - score q ≤ Config.error .score src)

/-! ### Errors (60_exceptions.md) -/

/-- Rule R452: an error of any command is precise: only ERR, BUSY, DONE and IRQ change. -/
def Obligations.ErrorsArePrecise : Prop :=
  ∀ (i : Instr) (s t : State), exec i s = .next t → t.err ≠ .none → FailedWith t.err s t ∧ t.irq = s.irqEn

/-- Rules R450 and R451: the numbers read from ERR, and which error a command ends with, and when: no command but these
fails, and none for another cause. -/
def Obligations.ErrorCodesSayTheCause : Prop :=
  (∀ s : State, s.readReg .err =
    match s.err with
    | .none => 0
    | .illegalCmd => 1
    | .badLength => 2
    | .lengthMismatch => 3
    | .truncatedFrame => 4
    | .checksumMismatch => 5) ∧
  ∀ (i : Instr) (s t : State), exec i s = .next t →
    t.err ≠ .illegalCmd ∧
    (t.err = .badLength ↔
      ((i = .tones ∨ i = .mod) ∧ Config.params.maxB < s.bLen.toNat) ∨
      (i = .demod ∧ (Config.params.maxB < s.rxLen.toNat ∨ Config.params.pcmMax < s.pcmLen.toNat))) ∧
    (t.err = .lengthMismatch ↔ i = .packf ∧ ¬ (s.codeLen = 24 ∧ s.sigLen = 64 ∧ s.pkLen = 32)) ∧
    (t.err = .truncatedFrame ↔ i = .unpackf ∧ s.bLen ≠ 120) ∧
    (t.err = .checksumMismatch ↔
      i = .unpackS ∧ crc16 ((List.range 17).map s.codeAt) ≠ s.codeAt 17 ++ s.codeAt 18)

/-! ### The bus (20_memory.md) -/

/-- Rules R101 and R103, with the offsets of rule R30: the map. A bus address accesses the word at a[23:2]. The offset of
every register; the base, stride and number of elements of every memory; every element's words lie at base + stride x k,
no region shadows another, every register is at its offset, and every other word is unmapped. -/
def Obligations.LocateIsTheAddressMap : Prop :=
  (∀ a : Addr, locate a = locateWord (a.toNat / 4)) ∧
  (∀ r : Reg, r.offset =
    match r with
    | .capMaxB => 0x000
    | .capPcmMax => 0x004
    | .capFs => 0x008
    | .capTMax => 0x00C
    | .ctrl => 0x010
    | .status => 0x014
    | .cmd => 0x018
    | .err => 0x01C
    | .crcRes => 0x020
    | .fType => 0x040
    | .fSev => 0x044
    | .fLat => 0x048
    | .fLon => 0x04C
    | .fPop => 0x050
    | .fMsgLen => 0x054
    | .fMsg i => 0x060 + 4 * i.val
    | .codeLen => 0x080
    | .sigLen => 0x084
    | .pkLen => 0x088
    | .bLen => 0x08C
    | .rxLen => 0x090
    | .pcmLen => 0x094
    | .toneCnt => 0x098
    | .dmSync => 0x0A0
    | .dmOnset => 0x0A4
    | .dmStart => 0x0A8
    | .dmScore => 0x0AC
    | .dmConf => 0x0B0
    | .dmErrCnt => 0x0B4) ∧
  (∀ m : Region, (m.base, 4 * m.strideWords, m.capacity) =
    match m with
    | .code => (0x001000, 4, 24)
    | .sig => (0x001100, 4, 64)
    | .pk => (0x001200, 4, 32)
    | .bytes => (0x010000, 4, Config.params.maxB)
    | .epos => (0x020000, 4, Config.params.maxB)
    | .nconf => (0x040000, 4, 2 * Config.params.maxB)
    | .tones => (0x100000, 16, Config.params.tMax)
    | .pcm => (0x800000, 4, Config.params.pcmMax)) ∧
  (∀ (m : Region) (k f : Nat), k < m.capacity → f < m.strideWords →
    locateWord (m.base / 4 + m.strideWords * k + f) = .elem m k f) ∧
  (∀ r : Reg, locateWord (r.offset / 4) = .reg r) ∧
  ∀ w : Nat, (∀ r : Reg, r.offset ≠ 4 * w) →
    (∀ (m : Region) (k f : Nat), k < m.capacity → f < m.strideWords →
      w ≠ m.base / 4 + m.strideWords * k + f) →
    locateWord w = .unmapped

/-- Rules R103 and R108: a[1:0] is ignored by reads and writes. -/
def Obligations.LowAddressBitsAreIgnored : Prop :=
  ∀ (s : State) (a b : Addr) (v : Word), a.extractLsb' 2 22 = b.extractLsb' 2 22 →
    s.memRead a = s.memRead b ∧ s.memWrite a v = s.memWrite b v

/-- Rules R104 and R110 (derived): a host read returns the word, or a draw while BUSY for every word but the eight it may
read then; it changes nothing of the block. The word of a register is its value, that of an element the field of the
element, and an unmapped word is 0. How draws are numbered and that read values are logged is the model's choice (log
entries 8, 11). -/
def Obligations.ReadsHaveNoSideEffect : Prop :=
  (∀ s : State, (∀ r, s.readTarget (.reg r) = s.readReg r) ∧
    (∀ m k f, s.readTarget (.elem m k f) = s.readElem m k f) ∧ s.readTarget .unmapped = 0) ∧
  ∀ (s : State) (a : Addr) (rest : List Turn), s.completing = none → s.agenda = .hostRead a :: rest →
    ∃ t, step s = .next t ∧ t.agenda = rest ∧ t.phase = s.phase ∧ t.irq = s.irq ∧ t.crcOk = s.crcOk ∧
      RegsSame [] s t ∧ MemorySame s t ∧ t.powerOnDraw = s.powerOnDraw ∧
      (s.phase = .idle ∨
          (∃ r ∈ [Reg.capMaxB, .capPcmMax, .capFs, .capTMax, .ctrl, .status, .cmd, .err], locate a = .reg r) →
        t.readLog = s.readTarget (locate a) :: s.readLog ∧ t.draws = s.draws) ∧
      ((∃ c, s.phase = .busy c) →
          (∀ r ∈ [Reg.capMaxB, .capPcmMax, .capFs, .capTMax, .ctrl, .status, .cmd, .err], locate a ≠ .reg r) →
        t.readLog = Config.draw s.draws (4 * (a.toNat / 4)) :: s.readLog ∧ t.draws = s.draws + 1)

/-- Rules R30 and R105, phase IDLE: a written register reads back its stored bits and no other register or element
changes; a write to a read-only register or an unmapped word changes nothing. A write to STATUS clears DONE and OVR where
a 1 is written and leaves them where a 0 is (rule R36); a write to CTRL with SRST = 0 sets IRQ_EN only (rule R35). -/
def Obligations.RegisterWritesWhileIdle : Prop :=
  ∀ (s : State) (a : Addr) (v : Word), s.phase = .idle →
    (∀ r ∈ [Reg.fSev, .fLat, .fLon, .fPop, .codeLen, .sigLen, .pkLen, .bLen, .rxLen, .pcmLen],
      locate a = .reg r → (s.memWrite a v).readReg r = v ∧ RegsSame [r] s (s.memWrite a v) ∧
        MemorySame s (s.memWrite a v)) ∧
    (∀ r, r = .fType ∨ r = .fMsgLen ∨ (∃ i, r = .fMsg i) →
      locate a = .reg r → (s.memWrite a v).readReg r = (v.extractLsb' 0 8).setWidth 32 ∧
        RegsSame [r] s (s.memWrite a v) ∧ MemorySame s (s.memWrite a v)) ∧
    ((∃ r ∈ [Reg.capMaxB, .capPcmMax, .capFs, .capTMax, .err, .crcRes, .toneCnt, .dmSync, .dmOnset, .dmStart,
        .dmScore, .dmConf, .dmErrCnt], locate a = .reg r) ∨ locate a = .unmapped → s.memWrite a v = s) ∧
    (locate a = .reg .status →
      (s.memWrite a v).done = (s.done && !v.getLsbD 1) ∧ (s.memWrite a v).ovr = (s.ovr && !v.getLsbD 4) ∧
      (s.memWrite a v).crcOk = s.crcOk ∧ (s.memWrite a v).phase = .idle ∧ RegsSame [.status] s (s.memWrite a v) ∧
      MemorySame s (s.memWrite a v)) ∧
    (locate a = .reg .ctrl → v.getLsbD 0 = false →
      (s.memWrite a v).irqEn = v.getLsbD 1 ∧ (s.memWrite a v).phase = .idle ∧ RegsSame [.ctrl] s (s.memWrite a v) ∧
      MemorySame s (s.memWrite a v))

/-- Rules R102 and R105, phase IDLE: a written byte element reads back bits 7:0, a written sample all 32 bits, and no
other word changes; a write to EPOS, NCONF or TONES changes nothing. The four words of a tone entry read freq, start, dur
and 0. -/
def Obligations.ElementWritesWhileIdle : Prop :=
  (∀ (s : State) (k : Nat), s.readElem .tones k 0 = (s.toneAt k).freq ∧ s.readElem .tones k 1 = (s.toneAt k).start ∧
    s.readElem .tones k 2 = (s.toneAt k).dur ∧ s.readElem .tones k 3 = 0) ∧
  ∀ (s : State) (a : Addr) (v : Word) (m : Region) (k f : Nat), s.phase = .idle → locate a = .elem m k f →
    RegsSame [] s (s.memWrite a v) ∧ ElemsSame (fun m' k' => m' = m ∧ k' = k) s (s.memWrite a v) ∧
    (m = .code ∨ m = .sig ∨ m = .pk ∨ m = .bytes →
      (s.memWrite a v).readElem m k f = (v.extractLsb' 0 8).setWidth 32) ∧
    (m = .pcm → (s.memWrite a v).readElem m k f = v) ∧
    (m = .epos ∨ m = .nconf ∨ m = .tones → s.memWrite a v = s)

/-- Rule R425: while BUSY a write to any word but CTRL and STATUS only sets OVR, a write to CMD too; STATUS and CTRL act
as when IDLE. -/
def Obligations.WritesWhileBusyAreDropped : Prop :=
  ∀ (s : State) (a : Addr) (v c : Word), s.phase = .busy c →
    (locate a ≠ .reg .ctrl → locate a ≠ .reg .status →
      (s.memWrite a v).ovr = true ∧ (s.memWrite a v).phase = .busy c ∧ (s.memWrite a v).done = s.done ∧
      (s.memWrite a v).crcOk = s.crcOk ∧ RegsSame [.status] s (s.memWrite a v) ∧ MemorySame s (s.memWrite a v)) ∧
    (locate a = .reg .status →
      (s.memWrite a v).done = (s.done && !v.getLsbD 1) ∧ (s.memWrite a v).ovr = (s.ovr && !v.getLsbD 4) ∧
      (s.memWrite a v).phase = .busy c ∧ RegsSame [.status] s (s.memWrite a v) ∧ MemorySame s (s.memWrite a v)) ∧
    (locate a = .reg .ctrl → v.getLsbD 0 = false →
      (s.memWrite a v).irqEn = v.getLsbD 1 ∧ (s.memWrite a v).phase = .busy c ∧
      RegsSame [.ctrl] s (s.memWrite a v) ∧ MemorySame s (s.memWrite a v)) ∧
    (locate a = .reg .ctrl → v.getLsbD 0 = true → (s.memWrite a v).phase = .idle)

/-- Rule R421 (derived): a write to CMD in phase IDLE makes the word the running command and LASTCMD, and clears ERR and
DONE; while BUSY it sets OVR and nothing else. -/
def Obligations.CmdWriteIssues : Prop :=
  ∀ (s : State) (a : Addr) (v : Word), locate a = .reg .cmd →
    (s.phase = .idle →
      (s.memWrite a v).phase = .busy v ∧ (s.memWrite a v).readReg .cmd = v ∧ (s.memWrite a v).err = .none ∧
      (s.memWrite a v).done = false ∧ (s.memWrite a v).crcOk = s.crcOk ∧ (s.memWrite a v).ovr = s.ovr ∧
      RegsSame [.cmd, .err, .status] s (s.memWrite a v) ∧ MemorySame s (s.memWrite a v)) ∧
    ∀ c, s.phase = .busy c →
      (s.memWrite a v).phase = .busy c ∧ (s.memWrite a v).ovr = true ∧ (s.memWrite a v).done = s.done ∧
      (s.memWrite a v).crcOk = s.crcOk ∧ RegsSame [.status] s (s.memWrite a v) ∧ MemorySame s (s.memWrite a v)

/-- Rules R113 and R422 (derived): a step that leaves a command running keeps the command word and everything the command
can read: every register but CTRL and STATUS, and every memory. -/
def Obligations.RunningCommandKeepsItsInputs : Prop :=
  ∀ (s t : State) (c : Word), s.phase = .busy c → step s = .next t → t.phase ≠ .idle →
    t.phase = .busy c ∧ RegsSame [.ctrl, .status] s t ∧ MemorySame s t

/-! ### Resets (45_control.md, 70_reset_and_hazards.md) -/

/-- Rule R30: the value every register reads after reset. -/
def Obligations.RegistersAfterReset : Prop :=
  ∀ r : Reg, State.reset.readReg r =
    match r with
    | .capMaxB => BitVec.ofNat 32 Config.params.maxB
    | .capPcmMax => BitVec.ofNat 32 Config.params.pcmMax
    | .capFs => BitVec.ofNat 32 Config.params.fs
    | .capTMax => BitVec.ofNat 32 (2 * Config.params.preCycles + 2 * Config.params.maxB + 1)
    | .codeLen => 24
    | .sigLen => 64
    | .pkLen => 32
    | _ => 0

/-- Rules R427 and R428 (derived): a write of CTRL with bit 0 set, in any phase, gives every register its reset value,
IDLE and IRQ = 0; memory changes only in the write set of a command it aborts, whose elements hold draws. That they hold
those of one draw number is the model's choice (log entry 9). -/
def Obligations.SoftResetAbortsAndClears : Prop :=
  ∀ (s : State) (a : Addr) (v : Word), locate a = .reg .ctrl → v.getLsbD 0 = true →
    (s.memWrite a v).phase = .idle ∧ (s.memWrite a v).irq = false ∧
    (∀ r, (s.memWrite a v).readReg r = State.reset.readReg r) ∧
    (s.phase = .idle → MemorySame s (s.memWrite a v)) ∧
    ∀ c, s.phase = .busy c →
      ElemsSame (fun m k => ∃ n, (m, n) ∈ abortSet c ∧ k < n) s (s.memWrite a v) ∧
      ∀ (m : Region) (n k f : Nat), (m, n) ∈ abortSet c → k < n →
        (s.memWrite a v).readElem m k f = drawnElem s.draws m k f

/-- Rule R428: the write set of every command. An illegal command word has none: it has no effect but ILLEGAL_CMD (rule
R142), so its abort leaves every memory as it is, which is inferred from those rules (log entry 9). -/
def Obligations.AbortWriteSets : Prop :=
  (∀ c : Word, (¬ ∃ i, decode c = .ok i) → abortSet c = []) ∧
  ∀ (i : Instr) (m : Region) (k : Nat), (∃ n, (m, n) ∈ abortSet (encode i) ∧ k < n) ↔
    ((i = .pack ∨ i = .unpackf) ∧ m = .code ∧ k < 24) ∨ (i = .unpackf ∧ m = .sig ∧ k < 64) ∨
    (i = .unpackf ∧ m = .pk ∧ k < 32) ∨ (i = .packf ∧ m = .bytes ∧ k < 120) ∨
    (i = .demod ∧ (m = .bytes ∨ m = .epos) ∧ k < Config.params.maxB) ∨
    (i = .demod ∧ m = .nconf ∧ k < 2 * Config.params.maxB) ∨
    ((i = .tones ∨ i = .mod) ∧ m = .tones ∧ k < Config.params.tMax) ∨
    (i = .mod ∧ m = .pcm ∧ k < Config.params.pcmMax)

/-- Rule R500, power-on: every register at its reset value, IDLE, IRQ = 0, and every element a draw. -/
def Obligations.PowerOnResetDrawsTheMemories : Prop :=
  ∀ (s : State) (rest : List Turn), s.completing = none → s.agenda = .powerOn :: rest →
    ∃ t, step s = .next t ∧ t.agenda = rest ∧ t.phase = .idle ∧ t.irq = false ∧
      (∀ r, t.readReg r = State.reset.readReg r) ∧ ∀ m k f, t.readElem m k f = drawnElem s.draws m k f

/-! ### Status and interrupt (10_state.md, 60_exceptions.md) -/

/-- Rules R31 to R59 and R102 (derived): what every register and every word of a memory reads. STATUS is given by its
fields; a byte register, CRC_RES and a byte element are zero-extended; CTRL reads IRQ_EN only and CMD the last command
word. That a capability value too large for its register is cut is the model's choice (log entry 18). -/
def Obligations.ControlAndStatusReads : Prop :=
  ∀ s : State,
    ((s.readReg .status).getLsbD 0 = true ↔ ∃ c, s.phase = .busy c) ∧
    (s.readReg .status).getLsbD 1 = s.done ∧
    ((s.readReg .status).getLsbD 2 = true ↔ s.readReg .err ≠ 0) ∧
    (s.readReg .status).getLsbD 3 = s.crcOk ∧ (s.readReg .status).getLsbD 4 = s.ovr ∧
    (s.readReg .status).extractLsb' 5 27 = 0 ∧
    (∀ r : Reg, r ≠ .status → s.readReg r =
      match r with
      | .capMaxB => BitVec.ofNat 32 Config.params.maxB
      | .capPcmMax => BitVec.ofNat 32 Config.params.pcmMax
      | .capFs => BitVec.ofNat 32 Config.params.fs
      | .capTMax => BitVec.ofNat 32 (2 * Config.params.preCycles + 2 * Config.params.maxB + 1)
      | .ctrl => if s.irqEn then 2 else 0
      | .status => 0
      | .cmd => s.lastCmd
      | .err =>
        match s.err with
        | .none => 0
        | .illegalCmd => 1
        | .badLength => 2
        | .lengthMismatch => 3
        | .truncatedFrame => 4
        | .checksumMismatch => 5
      | .crcRes => s.crcRes.setWidth 32
      | .fType => s.fType.setWidth 32
      | .fSev => s.fSev
      | .fLat => s.fLat
      | .fLon => s.fLon
      | .fPop => s.fPop
      | .fMsgLen => s.fMsgLen.setWidth 32
      | .fMsg i => s.fMsg[i].setWidth 32
      | .codeLen => s.codeLen
      | .sigLen => s.sigLen
      | .pkLen => s.pkLen
      | .bLen => s.bLen
      | .rxLen => s.rxLen
      | .pcmLen => s.pcmLen
      | .toneCnt => s.toneCnt
      | .dmSync =>
        match s.dmSync with
        | .none => 0
        | .located => 1
        | .fallback => 2
        | .noSignal => 3
      | .dmOnset => s.dmOnset
      | .dmStart => s.dmStart
      | .dmScore => s.dmScore
      | .dmConf => s.dmConf
      | .dmErrCnt => s.dmErrCnt) ∧
    ∀ (m : Region) (k f : Nat), s.readElem m k f =
      match m with
      | .code => (s.codeAt k).setWidth 32
      | .sig => (s.sigAt k).setWidth 32
      | .pk => (s.pkAt k).setWidth 32
      | .bytes => (s.bytesAt k).setWidth 32
      | .epos => s.eposAt k
      | .nconf => s.nconfAt k
      | .tones =>
        match f with
        | 0 => (s.toneAt k).freq
        | 1 => (s.toneAt k).start
        | 2 => (s.toneAt k).dur
        | _ => 0
      | .pcm => s.pcmAt k

/-- Rules R429 and R460: IRQ is IRQ_EN and DONE. A write of CTRL that sets IRQ_EN raises it at once when DONE is 1, one
that clears IRQ_EN lowers it and leaves DONE; writing 1 to STATUS.DONE lowers it. -/
def Obligations.InterruptFollowsEnableAndDone : Prop :=
  ∀ (s : State) (a : Addr) (v : Word),
    (s.irq = true ↔ s.irqEn = true ∧ s.done = true) ∧
    (locate a = .reg .ctrl → v.getLsbD 0 = false →
      (s.memWrite a v).irq = (v.getLsbD 1 && s.done) ∧ (s.memWrite a v).done = s.done) ∧
    (locate a = .reg .status → v.getLsbD 1 = true → (s.memWrite a v).irq = false ∧ (s.memWrite a v).done = false)

/-- Rule R460 (derived): the only source of the interrupt is command completion: a step that sets DONE completes a
command. -/
def Obligations.OnlyCompletionSetsDone : Prop :=
  ∀ s t : State, step s = .next t → s.done = false → t.done = true → ∃ c, TurnToComplete s c

/-- Rule R421 (derived): no command starts without a write of its word to CMD in phase IDLE. -/
def Obligations.OnlyCmdWritesStartCommands : Prop :=
  ∀ (s t : State) (c : Word), step s = .next t → s.phase ≠ .busy c → t.phase = .busy c →
    s.phase = .idle ∧ ∃ a rest, s.agenda = .hostWrite a c :: rest ∧ locate a = .reg .cmd

/-- Rules R36 and R516 (derived): only VERIFY and UNPACK, and the resets, change CRC_OK. -/
def Obligations.OnlyChecksAndResetsChangeCrcOk : Prop :=
  ∀ s t : State, step s = .next t → t.crcOk ≠ s.crcOk →
    (∃ c, TurnToComplete s c ∧ (decode c = .ok .verify ∨ decode c = .ok .unpackL ∨ decode c = .ok .unpackS)) ∨
    (∀ r, t.readReg r = State.reset.readReg r)
end

