-- ==== Sys2Proof/Laws/Config.lean ====
section
/-!
SUPPORT. What is known of the configuration: that the parameters obey 00_scope.md rule R9, that NUMERICS decides clear
margins as rule R12 says, meets the loopback of 44_demodulator.md rule R383 and, for EX1, finds the preamble as rule R384
says, and the bounds on the memories' capacities that follow (20_memory.md rule R101).
-/

namespace Sys2Proof

theorem Params.ex1_valid : Params.ex1.Valid := by decide +kernel

/-- The parameters are a configuration of this hardware (rule R9). -/
theorem Config.params_valid : Config.params.Valid := Config.configuration.valid

/-- A comparison that the exact semantics decides by more than the implementation's error comes out as the exact one
(rule R12). -/
theorem Config.marginsDecide : Reference.MarginsDecide Config.params Config.numerics Config.error :=
  Config.configuration.margins

/-- The loopback of this block (rule R383). -/
theorem Config.loopback : LoopbackIdempotent Config.params Config.numerics := Config.configuration.loopback

/-- What holds of this block where its parameters are EX1 (rule R384). -/
theorem Config.preamble : Config.params = Params.ex1 → PreambleFound Config.params Config.numerics :=
  Config.configuration.preamble

theorem Config.maxB_ge : 120 ≤ Config.params.maxB := Config.params_valid.2.2.2.2.2.1

theorem Config.maxB_le : Config.params.maxB ≤ 16384 := Config.params_valid.2.2.2.2.2.2.1

theorem Config.lMod_maxB_le : Config.params.lMod Config.params.maxB ≤ Config.params.pcmMax :=
  Config.params_valid.2.2.2.2.2.2.2.1

theorem Config.pcmMax_le : Config.params.pcmMax ≤ 2 ^ 21 := Config.params_valid.2.2.2.2.2.2.2.2.1

theorem Config.tMax_le : Config.params.tMax ≤ 65536 := Config.params_valid.2.2.2.2.2.2.2.2.2

/-- The waveform of a transmission that fits BYTES fits PCM (rule R315). -/
theorem Params.lMod_mono (p : Params) {m n : Nat} (h : m ≤ n) : p.lMod m ≤ p.lMod n := by
  unfold Params.lMod
  have : 2 * m * p.stepN ≤ 2 * n * p.stepN := Nat.mul_le_mul_right _ (Nat.mul_le_mul_left _ h)
  omega

theorem Config.lMod_le {n : Nat} (h : n ≤ Config.params.maxB) : Config.params.lMod n ≤ Config.params.pcmMax :=
  (Params.lMod_mono _ h).trans Config.lMod_maxB_le

theorem Config.nTones_le {n : Nat} (h : n ≤ Config.params.maxB) : Config.params.nTones n ≤ Config.params.tMax := by
  unfold Params.nTones Params.tMax
  omega

/-- The preamble fits PCM. -/
theorem Config.preLen_le : Config.params.preLen ≤ Config.params.pcmMax := by
  have h := Config.lMod_maxB_le
  unfold Params.lMod at h
  omega

end Sys2Proof
end

