-- ==== Sys2Proof/Laws/Memory.lean ====
section
/-!
SUPPORT. The laws of one memory: what a read answers after a write, and that every operation keeps the canonical form.
-/

namespace Sys2Proof.Machine

variable {α : Type}

@[simp] theorem Memory.get?_nil (i : Nat) : Memory.get? ([] : List (Nat × α)) i = none := rfl

@[simp] theorem Memory.get?_cons (k : Nat) (v : α) (m : List (Nat × α)) (i : Nat) :
    Memory.get? ((k, v) :: m) i = if k = i then some v else Memory.get? m i := rfl

theorem Memory.get?_append (m n : List (Nat × α)) (i : Nat) :
    Memory.get? (m ++ n) i = (Memory.get? m i).or (Memory.get? n i) := by
  induction m with
  | nil => simp
  | cons e m ih =>
    obtain ⟨k, v⟩ := e
    by_cases h : k = i <;> simp [h, ih]

theorem Memory.get?_filter (p : Nat → Bool) (m : List (Nat × α)) (i : Nat) :
    Memory.get? (m.filter (fun e => p e.1)) i = if p i then Memory.get? m i else none := by
  induction m with
  | nil => simp
  | cons e m ih =>
    obtain ⟨k, v⟩ := e
    by_cases hk : p k
    · by_cases h : k = i
      · subst h; simp [hk]
      · simp [hk, h, ih]
    · by_cases h : k = i
      · subst h; simp [hk, ih]
      · simp [hk, h, ih]

theorem Memory.get?_indexed (vs : List α) (base i : Nat) :
    Memory.get? (Memory.indexed base vs) i = if base ≤ i then vs[i - base]? else none := by
  induction vs generalizing base with
  | nil => simp [Memory.indexed]
  | cons v vs ih =>
    rw [Memory.indexed, Memory.get?_cons, ih]
    by_cases h : base = i
    · subst h; simp
    · by_cases h' : base + 1 ≤ i
      · have e : i - base = (i - (base + 1)) + 1 := by omega
        have h'' : base ≤ i := by omega
        simp [h, h', h'', e]
      · have h'' : ¬ base ≤ i := by omega
        simp [h, h', h'']

/-- What a read answers after a range write: the value written inside the range, the old one outside. -/
theorem Memory.get?_writeRange (m : List (Nat × α)) (base : Nat) (vs : List α) (i : Nat) :
    Memory.get? (Memory.writeRange m base vs) i =
      if base ≤ i ∧ i < base + vs.length then vs[i - base]? else Memory.get? m i := by
  rw [Memory.writeRange, Memory.get?_append, Memory.get?_append,
    Memory.get?_filter (fun k => decide (k < base)),
    Memory.get?_filter (fun k => decide (base + vs.length ≤ k)), Memory.get?_indexed]
  by_cases h : base ≤ i
  · by_cases h' : i < base + vs.length
    · have h1 : i - base < vs.length := by omega
      simp [h, h', h1, not_lt.mpr h]
    · have h1 : vs.length ≤ i - base := by omega
      simp [h, h', not_lt.mpr h, List.getElem?_eq_none h1, not_lt.mp h']
  · have h1 : i < base := by omega
    have h2 : ¬ base + vs.length ≤ i := by omega
    simp [h, h1, h2]

theorem Memory.get?_writeRange_of_lt (m : List (Nat × α)) (base : Nat) (vs : List α) (i : Nat)
    (h : base ≤ i) (h' : i - base < vs.length) :
    Memory.get? (Memory.writeRange m base vs) i = some vs[i - base] := by
  rw [Memory.get?_writeRange, if_pos ⟨h, by omega⟩, List.getElem?_eq_getElem h']

theorem Memory.get?_writeRange_of_outside (m : List (Nat × α)) (base : Nat) (vs : List α) (i : Nat)
    (h : i < base ∨ base + vs.length ≤ i) :
    Memory.get? (Memory.writeRange m base vs) i = Memory.get? m i := by
  rw [Memory.get?_writeRange, if_neg (by omega)]

/-- What an element holds after a write from index 0 on: the value written, or what it held before. -/
theorem Memory.getD_writeRange_zero (m : List (Nat × α)) (vs : List α) (k : Nat) (d : α) :
    (Memory.get? (Memory.writeRange m 0 vs) k).getD d = vs[k]?.getD ((Memory.get? m k).getD d) := by
  rw [Memory.get?_writeRange]
  by_cases h : k < vs.length
  · simp [h]
  · simp [h]

theorem Memory.mem_indexed {vs : List α} {base : Nat} {e : Nat × α} (h : e ∈ Memory.indexed base vs) :
    base ≤ e.1 ∧ e.1 < base + vs.length := by
  induction vs generalizing base with
  | nil => simp [Memory.indexed] at h
  | cons v vs ih =>
    rw [Memory.indexed, List.mem_cons] at h
    rcases h with rfl | h
    · simp
    · have := ih h
      simp only [List.length_cons]
      omega

theorem Memory.indexed_rising (vs : List α) (base : Nat) :
    ((Memory.indexed base vs).map Prod.fst).Pairwise (· < ·) := by
  induction vs generalizing base with
  | nil => simp [Memory.indexed]
  | cons v vs ih =>
    rw [Memory.indexed, List.map_cons, List.pairwise_cons]
    refine ⟨fun k hk => ?_, ih _⟩
    obtain ⟨e, he, rfl⟩ := List.mem_map.mp hk
    have := Memory.mem_indexed he
    omega

@[simp] theorem Memory.wf_nil (cap : Nat) : Memory.wf cap ([] : List (Nat × α)) := by
  simp [Memory.wf]

/-- A write inside the capacity keeps the canonical form. -/
theorem Memory.wf_writeRange {cap : Nat} {m : List (Nat × α)} (h : Memory.wf cap m) (base : Nat) (vs : List α)
    (fits : base + vs.length ≤ cap) : Memory.wf cap (Memory.writeRange m base vs) := by
  obtain ⟨hp, hb⟩ := h
  constructor
  · rw [Memory.writeRange, List.map_append, List.map_append, List.pairwise_append, List.pairwise_append]
    refine ⟨⟨?_, Memory.indexed_rising vs base, ?_⟩, ?_, ?_⟩
    · exact hp.sublist (List.filter_sublist.map _)
    · intro a ha b hb'
      obtain ⟨x, hx, rfl⟩ := List.mem_map.mp ha
      obtain ⟨y, hy, rfl⟩ := List.mem_map.mp hb'
      have h1 := (List.mem_filter.mp hx).2
      have h2 := Memory.mem_indexed hy
      simp at h1
      omega
    · exact hp.sublist (List.filter_sublist.map _)
    · intro a ha b hb'
      obtain ⟨y, hy, rfl⟩ := List.mem_map.mp hb'
      have h2 := (List.mem_filter.mp hy).2
      simp at h2
      rcases List.mem_append.mp ha with ha | ha
      · obtain ⟨x, hx, rfl⟩ := List.mem_map.mp ha
        have h1 := (List.mem_filter.mp hx).2
        simp at h1
        omega
      · obtain ⟨x, hx, rfl⟩ := List.mem_map.mp ha
        have h1 := Memory.mem_indexed hx
        omega
  · intro e he
    rw [Memory.writeRange, List.mem_append, List.mem_append] at he
    rcases he with (he | he) | he
    · exact hb e (List.mem_filter.mp he).1
    · have := Memory.mem_indexed he
      omega
    · exact hb e (List.mem_filter.mp he).1

end Sys2Proof.Machine
end

