-- ==== Sys2Proof/Laws/State.lean ====
section
/-!
SUPPORT. One lemma per field per update of the state: what each named operation leaves in each field, true by rfl (after
one rewriting where the kernel would else evaluate a checksum). Later proofs use these and unfold no record update.
-/

namespace Sys2Proof.Machine

variable (s : State)

/-! ### `State.writeCode` -/

section

variable (base : Nat) (vs : List Byte)

@[simp] theorem State.writeCode_phase : (s.writeCode base vs).phase = s.phase := rfl
@[simp] theorem State.writeCode_irqEn : (s.writeCode base vs).irqEn = s.irqEn := rfl
@[simp] theorem State.writeCode_done : (s.writeCode base vs).done = s.done := rfl
@[simp] theorem State.writeCode_crcOk : (s.writeCode base vs).crcOk = s.crcOk := rfl
@[simp] theorem State.writeCode_ovr : (s.writeCode base vs).ovr = s.ovr := rfl
@[simp] theorem State.writeCode_lastCmd : (s.writeCode base vs).lastCmd = s.lastCmd := rfl
@[simp] theorem State.writeCode_err : (s.writeCode base vs).err = s.err := rfl
@[simp] theorem State.writeCode_crcRes : (s.writeCode base vs).crcRes = s.crcRes := rfl
@[simp] theorem State.writeCode_fType : (s.writeCode base vs).fType = s.fType := rfl
@[simp] theorem State.writeCode_fSev : (s.writeCode base vs).fSev = s.fSev := rfl
@[simp] theorem State.writeCode_fLat : (s.writeCode base vs).fLat = s.fLat := rfl
@[simp] theorem State.writeCode_fLon : (s.writeCode base vs).fLon = s.fLon := rfl
@[simp] theorem State.writeCode_fPop : (s.writeCode base vs).fPop = s.fPop := rfl
@[simp] theorem State.writeCode_fMsgLen : (s.writeCode base vs).fMsgLen = s.fMsgLen := rfl
@[simp] theorem State.writeCode_fMsg : (s.writeCode base vs).fMsg = s.fMsg := rfl
@[simp] theorem State.writeCode_codeLen : (s.writeCode base vs).codeLen = s.codeLen := rfl
@[simp] theorem State.writeCode_sigLen : (s.writeCode base vs).sigLen = s.sigLen := rfl
@[simp] theorem State.writeCode_pkLen : (s.writeCode base vs).pkLen = s.pkLen := rfl
@[simp] theorem State.writeCode_bLen : (s.writeCode base vs).bLen = s.bLen := rfl
@[simp] theorem State.writeCode_rxLen : (s.writeCode base vs).rxLen = s.rxLen := rfl
@[simp] theorem State.writeCode_pcmLen : (s.writeCode base vs).pcmLen = s.pcmLen := rfl
@[simp] theorem State.writeCode_toneCnt : (s.writeCode base vs).toneCnt = s.toneCnt := rfl
@[simp] theorem State.writeCode_dmSync : (s.writeCode base vs).dmSync = s.dmSync := rfl
@[simp] theorem State.writeCode_dmOnset : (s.writeCode base vs).dmOnset = s.dmOnset := rfl
@[simp] theorem State.writeCode_dmStart : (s.writeCode base vs).dmStart = s.dmStart := rfl
@[simp] theorem State.writeCode_dmScore : (s.writeCode base vs).dmScore = s.dmScore := rfl
@[simp] theorem State.writeCode_dmConf : (s.writeCode base vs).dmConf = s.dmConf := rfl
@[simp] theorem State.writeCode_dmErrCnt : (s.writeCode base vs).dmErrCnt = s.dmErrCnt := rfl
@[simp] theorem State.writeCode_code : (s.writeCode base vs).code = Memory.writeRange s.code base vs := rfl
@[simp] theorem State.writeCode_sig : (s.writeCode base vs).sig = s.sig := rfl
@[simp] theorem State.writeCode_pk : (s.writeCode base vs).pk = s.pk := rfl
@[simp] theorem State.writeCode_bytes : (s.writeCode base vs).bytes = s.bytes := rfl
@[simp] theorem State.writeCode_epos : (s.writeCode base vs).epos = s.epos := rfl
@[simp] theorem State.writeCode_nconf : (s.writeCode base vs).nconf = s.nconf := rfl
@[simp] theorem State.writeCode_tones : (s.writeCode base vs).tones = s.tones := rfl
@[simp] theorem State.writeCode_pcm : (s.writeCode base vs).pcm = s.pcm := rfl
@[simp] theorem State.writeCode_agenda : (s.writeCode base vs).agenda = s.agenda := rfl
@[simp] theorem State.writeCode_readLog : (s.writeCode base vs).readLog = s.readLog := rfl
@[simp] theorem State.writeCode_draws : (s.writeCode base vs).draws = s.draws := rfl
@[simp] theorem State.writeCode_powerOnDraw : (s.writeCode base vs).powerOnDraw = s.powerOnDraw := rfl

end

/-! ### `State.writeSig` -/

section

variable (base : Nat) (vs : List Byte)

@[simp] theorem State.writeSig_phase : (s.writeSig base vs).phase = s.phase := rfl
@[simp] theorem State.writeSig_irqEn : (s.writeSig base vs).irqEn = s.irqEn := rfl
@[simp] theorem State.writeSig_done : (s.writeSig base vs).done = s.done := rfl
@[simp] theorem State.writeSig_crcOk : (s.writeSig base vs).crcOk = s.crcOk := rfl
@[simp] theorem State.writeSig_ovr : (s.writeSig base vs).ovr = s.ovr := rfl
@[simp] theorem State.writeSig_lastCmd : (s.writeSig base vs).lastCmd = s.lastCmd := rfl
@[simp] theorem State.writeSig_err : (s.writeSig base vs).err = s.err := rfl
@[simp] theorem State.writeSig_crcRes : (s.writeSig base vs).crcRes = s.crcRes := rfl
@[simp] theorem State.writeSig_fType : (s.writeSig base vs).fType = s.fType := rfl
@[simp] theorem State.writeSig_fSev : (s.writeSig base vs).fSev = s.fSev := rfl
@[simp] theorem State.writeSig_fLat : (s.writeSig base vs).fLat = s.fLat := rfl
@[simp] theorem State.writeSig_fLon : (s.writeSig base vs).fLon = s.fLon := rfl
@[simp] theorem State.writeSig_fPop : (s.writeSig base vs).fPop = s.fPop := rfl
@[simp] theorem State.writeSig_fMsgLen : (s.writeSig base vs).fMsgLen = s.fMsgLen := rfl
@[simp] theorem State.writeSig_fMsg : (s.writeSig base vs).fMsg = s.fMsg := rfl
@[simp] theorem State.writeSig_codeLen : (s.writeSig base vs).codeLen = s.codeLen := rfl
@[simp] theorem State.writeSig_sigLen : (s.writeSig base vs).sigLen = s.sigLen := rfl
@[simp] theorem State.writeSig_pkLen : (s.writeSig base vs).pkLen = s.pkLen := rfl
@[simp] theorem State.writeSig_bLen : (s.writeSig base vs).bLen = s.bLen := rfl
@[simp] theorem State.writeSig_rxLen : (s.writeSig base vs).rxLen = s.rxLen := rfl
@[simp] theorem State.writeSig_pcmLen : (s.writeSig base vs).pcmLen = s.pcmLen := rfl
@[simp] theorem State.writeSig_toneCnt : (s.writeSig base vs).toneCnt = s.toneCnt := rfl
@[simp] theorem State.writeSig_dmSync : (s.writeSig base vs).dmSync = s.dmSync := rfl
@[simp] theorem State.writeSig_dmOnset : (s.writeSig base vs).dmOnset = s.dmOnset := rfl
@[simp] theorem State.writeSig_dmStart : (s.writeSig base vs).dmStart = s.dmStart := rfl
@[simp] theorem State.writeSig_dmScore : (s.writeSig base vs).dmScore = s.dmScore := rfl
@[simp] theorem State.writeSig_dmConf : (s.writeSig base vs).dmConf = s.dmConf := rfl
@[simp] theorem State.writeSig_dmErrCnt : (s.writeSig base vs).dmErrCnt = s.dmErrCnt := rfl
@[simp] theorem State.writeSig_code : (s.writeSig base vs).code = s.code := rfl
@[simp] theorem State.writeSig_sig : (s.writeSig base vs).sig = Memory.writeRange s.sig base vs := rfl
@[simp] theorem State.writeSig_pk : (s.writeSig base vs).pk = s.pk := rfl
@[simp] theorem State.writeSig_bytes : (s.writeSig base vs).bytes = s.bytes := rfl
@[simp] theorem State.writeSig_epos : (s.writeSig base vs).epos = s.epos := rfl
@[simp] theorem State.writeSig_nconf : (s.writeSig base vs).nconf = s.nconf := rfl
@[simp] theorem State.writeSig_tones : (s.writeSig base vs).tones = s.tones := rfl
@[simp] theorem State.writeSig_pcm : (s.writeSig base vs).pcm = s.pcm := rfl
@[simp] theorem State.writeSig_agenda : (s.writeSig base vs).agenda = s.agenda := rfl
@[simp] theorem State.writeSig_readLog : (s.writeSig base vs).readLog = s.readLog := rfl
@[simp] theorem State.writeSig_draws : (s.writeSig base vs).draws = s.draws := rfl
@[simp] theorem State.writeSig_powerOnDraw : (s.writeSig base vs).powerOnDraw = s.powerOnDraw := rfl

end

/-! ### `State.writePk` -/

section

variable (base : Nat) (vs : List Byte)

@[simp] theorem State.writePk_phase : (s.writePk base vs).phase = s.phase := rfl
@[simp] theorem State.writePk_irqEn : (s.writePk base vs).irqEn = s.irqEn := rfl
@[simp] theorem State.writePk_done : (s.writePk base vs).done = s.done := rfl
@[simp] theorem State.writePk_crcOk : (s.writePk base vs).crcOk = s.crcOk := rfl
@[simp] theorem State.writePk_ovr : (s.writePk base vs).ovr = s.ovr := rfl
@[simp] theorem State.writePk_lastCmd : (s.writePk base vs).lastCmd = s.lastCmd := rfl
@[simp] theorem State.writePk_err : (s.writePk base vs).err = s.err := rfl
@[simp] theorem State.writePk_crcRes : (s.writePk base vs).crcRes = s.crcRes := rfl
@[simp] theorem State.writePk_fType : (s.writePk base vs).fType = s.fType := rfl
@[simp] theorem State.writePk_fSev : (s.writePk base vs).fSev = s.fSev := rfl
@[simp] theorem State.writePk_fLat : (s.writePk base vs).fLat = s.fLat := rfl
@[simp] theorem State.writePk_fLon : (s.writePk base vs).fLon = s.fLon := rfl
@[simp] theorem State.writePk_fPop : (s.writePk base vs).fPop = s.fPop := rfl
@[simp] theorem State.writePk_fMsgLen : (s.writePk base vs).fMsgLen = s.fMsgLen := rfl
@[simp] theorem State.writePk_fMsg : (s.writePk base vs).fMsg = s.fMsg := rfl
@[simp] theorem State.writePk_codeLen : (s.writePk base vs).codeLen = s.codeLen := rfl
@[simp] theorem State.writePk_sigLen : (s.writePk base vs).sigLen = s.sigLen := rfl
@[simp] theorem State.writePk_pkLen : (s.writePk base vs).pkLen = s.pkLen := rfl
@[simp] theorem State.writePk_bLen : (s.writePk base vs).bLen = s.bLen := rfl
@[simp] theorem State.writePk_rxLen : (s.writePk base vs).rxLen = s.rxLen := rfl
@[simp] theorem State.writePk_pcmLen : (s.writePk base vs).pcmLen = s.pcmLen := rfl
@[simp] theorem State.writePk_toneCnt : (s.writePk base vs).toneCnt = s.toneCnt := rfl
@[simp] theorem State.writePk_dmSync : (s.writePk base vs).dmSync = s.dmSync := rfl
@[simp] theorem State.writePk_dmOnset : (s.writePk base vs).dmOnset = s.dmOnset := rfl
@[simp] theorem State.writePk_dmStart : (s.writePk base vs).dmStart = s.dmStart := rfl
@[simp] theorem State.writePk_dmScore : (s.writePk base vs).dmScore = s.dmScore := rfl
@[simp] theorem State.writePk_dmConf : (s.writePk base vs).dmConf = s.dmConf := rfl
@[simp] theorem State.writePk_dmErrCnt : (s.writePk base vs).dmErrCnt = s.dmErrCnt := rfl
@[simp] theorem State.writePk_code : (s.writePk base vs).code = s.code := rfl
@[simp] theorem State.writePk_sig : (s.writePk base vs).sig = s.sig := rfl
@[simp] theorem State.writePk_pk : (s.writePk base vs).pk = Memory.writeRange s.pk base vs := rfl
@[simp] theorem State.writePk_bytes : (s.writePk base vs).bytes = s.bytes := rfl
@[simp] theorem State.writePk_epos : (s.writePk base vs).epos = s.epos := rfl
@[simp] theorem State.writePk_nconf : (s.writePk base vs).nconf = s.nconf := rfl
@[simp] theorem State.writePk_tones : (s.writePk base vs).tones = s.tones := rfl
@[simp] theorem State.writePk_pcm : (s.writePk base vs).pcm = s.pcm := rfl
@[simp] theorem State.writePk_agenda : (s.writePk base vs).agenda = s.agenda := rfl
@[simp] theorem State.writePk_readLog : (s.writePk base vs).readLog = s.readLog := rfl
@[simp] theorem State.writePk_draws : (s.writePk base vs).draws = s.draws := rfl
@[simp] theorem State.writePk_powerOnDraw : (s.writePk base vs).powerOnDraw = s.powerOnDraw := rfl

end

/-! ### `State.writeBytes` -/

section

variable (base : Nat) (vs : List Byte)

@[simp] theorem State.writeBytes_phase : (s.writeBytes base vs).phase = s.phase := rfl
@[simp] theorem State.writeBytes_irqEn : (s.writeBytes base vs).irqEn = s.irqEn := rfl
@[simp] theorem State.writeBytes_done : (s.writeBytes base vs).done = s.done := rfl
@[simp] theorem State.writeBytes_crcOk : (s.writeBytes base vs).crcOk = s.crcOk := rfl
@[simp] theorem State.writeBytes_ovr : (s.writeBytes base vs).ovr = s.ovr := rfl
@[simp] theorem State.writeBytes_lastCmd : (s.writeBytes base vs).lastCmd = s.lastCmd := rfl
@[simp] theorem State.writeBytes_err : (s.writeBytes base vs).err = s.err := rfl
@[simp] theorem State.writeBytes_crcRes : (s.writeBytes base vs).crcRes = s.crcRes := rfl
@[simp] theorem State.writeBytes_fType : (s.writeBytes base vs).fType = s.fType := rfl
@[simp] theorem State.writeBytes_fSev : (s.writeBytes base vs).fSev = s.fSev := rfl
@[simp] theorem State.writeBytes_fLat : (s.writeBytes base vs).fLat = s.fLat := rfl
@[simp] theorem State.writeBytes_fLon : (s.writeBytes base vs).fLon = s.fLon := rfl
@[simp] theorem State.writeBytes_fPop : (s.writeBytes base vs).fPop = s.fPop := rfl
@[simp] theorem State.writeBytes_fMsgLen : (s.writeBytes base vs).fMsgLen = s.fMsgLen := rfl
@[simp] theorem State.writeBytes_fMsg : (s.writeBytes base vs).fMsg = s.fMsg := rfl
@[simp] theorem State.writeBytes_codeLen : (s.writeBytes base vs).codeLen = s.codeLen := rfl
@[simp] theorem State.writeBytes_sigLen : (s.writeBytes base vs).sigLen = s.sigLen := rfl
@[simp] theorem State.writeBytes_pkLen : (s.writeBytes base vs).pkLen = s.pkLen := rfl
@[simp] theorem State.writeBytes_bLen : (s.writeBytes base vs).bLen = s.bLen := rfl
@[simp] theorem State.writeBytes_rxLen : (s.writeBytes base vs).rxLen = s.rxLen := rfl
@[simp] theorem State.writeBytes_pcmLen : (s.writeBytes base vs).pcmLen = s.pcmLen := rfl
@[simp] theorem State.writeBytes_toneCnt : (s.writeBytes base vs).toneCnt = s.toneCnt := rfl
@[simp] theorem State.writeBytes_dmSync : (s.writeBytes base vs).dmSync = s.dmSync := rfl
@[simp] theorem State.writeBytes_dmOnset : (s.writeBytes base vs).dmOnset = s.dmOnset := rfl
@[simp] theorem State.writeBytes_dmStart : (s.writeBytes base vs).dmStart = s.dmStart := rfl
@[simp] theorem State.writeBytes_dmScore : (s.writeBytes base vs).dmScore = s.dmScore := rfl
@[simp] theorem State.writeBytes_dmConf : (s.writeBytes base vs).dmConf = s.dmConf := rfl
@[simp] theorem State.writeBytes_dmErrCnt : (s.writeBytes base vs).dmErrCnt = s.dmErrCnt := rfl
@[simp] theorem State.writeBytes_code : (s.writeBytes base vs).code = s.code := rfl
@[simp] theorem State.writeBytes_sig : (s.writeBytes base vs).sig = s.sig := rfl
@[simp] theorem State.writeBytes_pk : (s.writeBytes base vs).pk = s.pk := rfl
@[simp] theorem State.writeBytes_bytes : (s.writeBytes base vs).bytes = Memory.writeRange s.bytes base vs := rfl
@[simp] theorem State.writeBytes_epos : (s.writeBytes base vs).epos = s.epos := rfl
@[simp] theorem State.writeBytes_nconf : (s.writeBytes base vs).nconf = s.nconf := rfl
@[simp] theorem State.writeBytes_tones : (s.writeBytes base vs).tones = s.tones := rfl
@[simp] theorem State.writeBytes_pcm : (s.writeBytes base vs).pcm = s.pcm := rfl
@[simp] theorem State.writeBytes_agenda : (s.writeBytes base vs).agenda = s.agenda := rfl
@[simp] theorem State.writeBytes_readLog : (s.writeBytes base vs).readLog = s.readLog := rfl
@[simp] theorem State.writeBytes_draws : (s.writeBytes base vs).draws = s.draws := rfl
@[simp] theorem State.writeBytes_powerOnDraw : (s.writeBytes base vs).powerOnDraw = s.powerOnDraw := rfl

end

/-! ### `State.writeEpos` -/

section

variable (base : Nat) (vs : List Word)

@[simp] theorem State.writeEpos_phase : (s.writeEpos base vs).phase = s.phase := rfl
@[simp] theorem State.writeEpos_irqEn : (s.writeEpos base vs).irqEn = s.irqEn := rfl
@[simp] theorem State.writeEpos_done : (s.writeEpos base vs).done = s.done := rfl
@[simp] theorem State.writeEpos_crcOk : (s.writeEpos base vs).crcOk = s.crcOk := rfl
@[simp] theorem State.writeEpos_ovr : (s.writeEpos base vs).ovr = s.ovr := rfl
@[simp] theorem State.writeEpos_lastCmd : (s.writeEpos base vs).lastCmd = s.lastCmd := rfl
@[simp] theorem State.writeEpos_err : (s.writeEpos base vs).err = s.err := rfl
@[simp] theorem State.writeEpos_crcRes : (s.writeEpos base vs).crcRes = s.crcRes := rfl
@[simp] theorem State.writeEpos_fType : (s.writeEpos base vs).fType = s.fType := rfl
@[simp] theorem State.writeEpos_fSev : (s.writeEpos base vs).fSev = s.fSev := rfl
@[simp] theorem State.writeEpos_fLat : (s.writeEpos base vs).fLat = s.fLat := rfl
@[simp] theorem State.writeEpos_fLon : (s.writeEpos base vs).fLon = s.fLon := rfl
@[simp] theorem State.writeEpos_fPop : (s.writeEpos base vs).fPop = s.fPop := rfl
@[simp] theorem State.writeEpos_fMsgLen : (s.writeEpos base vs).fMsgLen = s.fMsgLen := rfl
@[simp] theorem State.writeEpos_fMsg : (s.writeEpos base vs).fMsg = s.fMsg := rfl
@[simp] theorem State.writeEpos_codeLen : (s.writeEpos base vs).codeLen = s.codeLen := rfl
@[simp] theorem State.writeEpos_sigLen : (s.writeEpos base vs).sigLen = s.sigLen := rfl
@[simp] theorem State.writeEpos_pkLen : (s.writeEpos base vs).pkLen = s.pkLen := rfl
@[simp] theorem State.writeEpos_bLen : (s.writeEpos base vs).bLen = s.bLen := rfl
@[simp] theorem State.writeEpos_rxLen : (s.writeEpos base vs).rxLen = s.rxLen := rfl
@[simp] theorem State.writeEpos_pcmLen : (s.writeEpos base vs).pcmLen = s.pcmLen := rfl
@[simp] theorem State.writeEpos_toneCnt : (s.writeEpos base vs).toneCnt = s.toneCnt := rfl
@[simp] theorem State.writeEpos_dmSync : (s.writeEpos base vs).dmSync = s.dmSync := rfl
@[simp] theorem State.writeEpos_dmOnset : (s.writeEpos base vs).dmOnset = s.dmOnset := rfl
@[simp] theorem State.writeEpos_dmStart : (s.writeEpos base vs).dmStart = s.dmStart := rfl
@[simp] theorem State.writeEpos_dmScore : (s.writeEpos base vs).dmScore = s.dmScore := rfl
@[simp] theorem State.writeEpos_dmConf : (s.writeEpos base vs).dmConf = s.dmConf := rfl
@[simp] theorem State.writeEpos_dmErrCnt : (s.writeEpos base vs).dmErrCnt = s.dmErrCnt := rfl
@[simp] theorem State.writeEpos_code : (s.writeEpos base vs).code = s.code := rfl
@[simp] theorem State.writeEpos_sig : (s.writeEpos base vs).sig = s.sig := rfl
@[simp] theorem State.writeEpos_pk : (s.writeEpos base vs).pk = s.pk := rfl
@[simp] theorem State.writeEpos_bytes : (s.writeEpos base vs).bytes = s.bytes := rfl
@[simp] theorem State.writeEpos_epos : (s.writeEpos base vs).epos = Memory.writeRange s.epos base vs := rfl
@[simp] theorem State.writeEpos_nconf : (s.writeEpos base vs).nconf = s.nconf := rfl
@[simp] theorem State.writeEpos_tones : (s.writeEpos base vs).tones = s.tones := rfl
@[simp] theorem State.writeEpos_pcm : (s.writeEpos base vs).pcm = s.pcm := rfl
@[simp] theorem State.writeEpos_agenda : (s.writeEpos base vs).agenda = s.agenda := rfl
@[simp] theorem State.writeEpos_readLog : (s.writeEpos base vs).readLog = s.readLog := rfl
@[simp] theorem State.writeEpos_draws : (s.writeEpos base vs).draws = s.draws := rfl
@[simp] theorem State.writeEpos_powerOnDraw : (s.writeEpos base vs).powerOnDraw = s.powerOnDraw := rfl

end

/-! ### `State.writeNconf` -/

section

variable (base : Nat) (vs : List Word)

@[simp] theorem State.writeNconf_phase : (s.writeNconf base vs).phase = s.phase := rfl
@[simp] theorem State.writeNconf_irqEn : (s.writeNconf base vs).irqEn = s.irqEn := rfl
@[simp] theorem State.writeNconf_done : (s.writeNconf base vs).done = s.done := rfl
@[simp] theorem State.writeNconf_crcOk : (s.writeNconf base vs).crcOk = s.crcOk := rfl
@[simp] theorem State.writeNconf_ovr : (s.writeNconf base vs).ovr = s.ovr := rfl
@[simp] theorem State.writeNconf_lastCmd : (s.writeNconf base vs).lastCmd = s.lastCmd := rfl
@[simp] theorem State.writeNconf_err : (s.writeNconf base vs).err = s.err := rfl
@[simp] theorem State.writeNconf_crcRes : (s.writeNconf base vs).crcRes = s.crcRes := rfl
@[simp] theorem State.writeNconf_fType : (s.writeNconf base vs).fType = s.fType := rfl
@[simp] theorem State.writeNconf_fSev : (s.writeNconf base vs).fSev = s.fSev := rfl
@[simp] theorem State.writeNconf_fLat : (s.writeNconf base vs).fLat = s.fLat := rfl
@[simp] theorem State.writeNconf_fLon : (s.writeNconf base vs).fLon = s.fLon := rfl
@[simp] theorem State.writeNconf_fPop : (s.writeNconf base vs).fPop = s.fPop := rfl
@[simp] theorem State.writeNconf_fMsgLen : (s.writeNconf base vs).fMsgLen = s.fMsgLen := rfl
@[simp] theorem State.writeNconf_fMsg : (s.writeNconf base vs).fMsg = s.fMsg := rfl
@[simp] theorem State.writeNconf_codeLen : (s.writeNconf base vs).codeLen = s.codeLen := rfl
@[simp] theorem State.writeNconf_sigLen : (s.writeNconf base vs).sigLen = s.sigLen := rfl
@[simp] theorem State.writeNconf_pkLen : (s.writeNconf base vs).pkLen = s.pkLen := rfl
@[simp] theorem State.writeNconf_bLen : (s.writeNconf base vs).bLen = s.bLen := rfl
@[simp] theorem State.writeNconf_rxLen : (s.writeNconf base vs).rxLen = s.rxLen := rfl
@[simp] theorem State.writeNconf_pcmLen : (s.writeNconf base vs).pcmLen = s.pcmLen := rfl
@[simp] theorem State.writeNconf_toneCnt : (s.writeNconf base vs).toneCnt = s.toneCnt := rfl
@[simp] theorem State.writeNconf_dmSync : (s.writeNconf base vs).dmSync = s.dmSync := rfl
@[simp] theorem State.writeNconf_dmOnset : (s.writeNconf base vs).dmOnset = s.dmOnset := rfl
@[simp] theorem State.writeNconf_dmStart : (s.writeNconf base vs).dmStart = s.dmStart := rfl
@[simp] theorem State.writeNconf_dmScore : (s.writeNconf base vs).dmScore = s.dmScore := rfl
@[simp] theorem State.writeNconf_dmConf : (s.writeNconf base vs).dmConf = s.dmConf := rfl
@[simp] theorem State.writeNconf_dmErrCnt : (s.writeNconf base vs).dmErrCnt = s.dmErrCnt := rfl
@[simp] theorem State.writeNconf_code : (s.writeNconf base vs).code = s.code := rfl
@[simp] theorem State.writeNconf_sig : (s.writeNconf base vs).sig = s.sig := rfl
@[simp] theorem State.writeNconf_pk : (s.writeNconf base vs).pk = s.pk := rfl
@[simp] theorem State.writeNconf_bytes : (s.writeNconf base vs).bytes = s.bytes := rfl
@[simp] theorem State.writeNconf_epos : (s.writeNconf base vs).epos = s.epos := rfl
@[simp] theorem State.writeNconf_nconf : (s.writeNconf base vs).nconf = Memory.writeRange s.nconf base vs := rfl
@[simp] theorem State.writeNconf_tones : (s.writeNconf base vs).tones = s.tones := rfl
@[simp] theorem State.writeNconf_pcm : (s.writeNconf base vs).pcm = s.pcm := rfl
@[simp] theorem State.writeNconf_agenda : (s.writeNconf base vs).agenda = s.agenda := rfl
@[simp] theorem State.writeNconf_readLog : (s.writeNconf base vs).readLog = s.readLog := rfl
@[simp] theorem State.writeNconf_draws : (s.writeNconf base vs).draws = s.draws := rfl
@[simp] theorem State.writeNconf_powerOnDraw : (s.writeNconf base vs).powerOnDraw = s.powerOnDraw := rfl

end

/-! ### `State.writeTones` -/

section

variable (base : Nat) (vs : List ToneEntry)

@[simp] theorem State.writeTones_phase : (s.writeTones base vs).phase = s.phase := rfl
@[simp] theorem State.writeTones_irqEn : (s.writeTones base vs).irqEn = s.irqEn := rfl
@[simp] theorem State.writeTones_done : (s.writeTones base vs).done = s.done := rfl
@[simp] theorem State.writeTones_crcOk : (s.writeTones base vs).crcOk = s.crcOk := rfl
@[simp] theorem State.writeTones_ovr : (s.writeTones base vs).ovr = s.ovr := rfl
@[simp] theorem State.writeTones_lastCmd : (s.writeTones base vs).lastCmd = s.lastCmd := rfl
@[simp] theorem State.writeTones_err : (s.writeTones base vs).err = s.err := rfl
@[simp] theorem State.writeTones_crcRes : (s.writeTones base vs).crcRes = s.crcRes := rfl
@[simp] theorem State.writeTones_fType : (s.writeTones base vs).fType = s.fType := rfl
@[simp] theorem State.writeTones_fSev : (s.writeTones base vs).fSev = s.fSev := rfl
@[simp] theorem State.writeTones_fLat : (s.writeTones base vs).fLat = s.fLat := rfl
@[simp] theorem State.writeTones_fLon : (s.writeTones base vs).fLon = s.fLon := rfl
@[simp] theorem State.writeTones_fPop : (s.writeTones base vs).fPop = s.fPop := rfl
@[simp] theorem State.writeTones_fMsgLen : (s.writeTones base vs).fMsgLen = s.fMsgLen := rfl
@[simp] theorem State.writeTones_fMsg : (s.writeTones base vs).fMsg = s.fMsg := rfl
@[simp] theorem State.writeTones_codeLen : (s.writeTones base vs).codeLen = s.codeLen := rfl
@[simp] theorem State.writeTones_sigLen : (s.writeTones base vs).sigLen = s.sigLen := rfl
@[simp] theorem State.writeTones_pkLen : (s.writeTones base vs).pkLen = s.pkLen := rfl
@[simp] theorem State.writeTones_bLen : (s.writeTones base vs).bLen = s.bLen := rfl
@[simp] theorem State.writeTones_rxLen : (s.writeTones base vs).rxLen = s.rxLen := rfl
@[simp] theorem State.writeTones_pcmLen : (s.writeTones base vs).pcmLen = s.pcmLen := rfl
@[simp] theorem State.writeTones_toneCnt : (s.writeTones base vs).toneCnt = s.toneCnt := rfl
@[simp] theorem State.writeTones_dmSync : (s.writeTones base vs).dmSync = s.dmSync := rfl
@[simp] theorem State.writeTones_dmOnset : (s.writeTones base vs).dmOnset = s.dmOnset := rfl
@[simp] theorem State.writeTones_dmStart : (s.writeTones base vs).dmStart = s.dmStart := rfl
@[simp] theorem State.writeTones_dmScore : (s.writeTones base vs).dmScore = s.dmScore := rfl
@[simp] theorem State.writeTones_dmConf : (s.writeTones base vs).dmConf = s.dmConf := rfl
@[simp] theorem State.writeTones_dmErrCnt : (s.writeTones base vs).dmErrCnt = s.dmErrCnt := rfl
@[simp] theorem State.writeTones_code : (s.writeTones base vs).code = s.code := rfl
@[simp] theorem State.writeTones_sig : (s.writeTones base vs).sig = s.sig := rfl
@[simp] theorem State.writeTones_pk : (s.writeTones base vs).pk = s.pk := rfl
@[simp] theorem State.writeTones_bytes : (s.writeTones base vs).bytes = s.bytes := rfl
@[simp] theorem State.writeTones_epos : (s.writeTones base vs).epos = s.epos := rfl
@[simp] theorem State.writeTones_nconf : (s.writeTones base vs).nconf = s.nconf := rfl
@[simp] theorem State.writeTones_tones : (s.writeTones base vs).tones = Memory.writeRange s.tones base vs := rfl
@[simp] theorem State.writeTones_pcm : (s.writeTones base vs).pcm = s.pcm := rfl
@[simp] theorem State.writeTones_agenda : (s.writeTones base vs).agenda = s.agenda := rfl
@[simp] theorem State.writeTones_readLog : (s.writeTones base vs).readLog = s.readLog := rfl
@[simp] theorem State.writeTones_draws : (s.writeTones base vs).draws = s.draws := rfl
@[simp] theorem State.writeTones_powerOnDraw : (s.writeTones base vs).powerOnDraw = s.powerOnDraw := rfl

end

/-! ### `State.writePcm` -/

section

variable (base : Nat) (vs : List Word)

@[simp] theorem State.writePcm_phase : (s.writePcm base vs).phase = s.phase := rfl
@[simp] theorem State.writePcm_irqEn : (s.writePcm base vs).irqEn = s.irqEn := rfl
@[simp] theorem State.writePcm_done : (s.writePcm base vs).done = s.done := rfl
@[simp] theorem State.writePcm_crcOk : (s.writePcm base vs).crcOk = s.crcOk := rfl
@[simp] theorem State.writePcm_ovr : (s.writePcm base vs).ovr = s.ovr := rfl
@[simp] theorem State.writePcm_lastCmd : (s.writePcm base vs).lastCmd = s.lastCmd := rfl
@[simp] theorem State.writePcm_err : (s.writePcm base vs).err = s.err := rfl
@[simp] theorem State.writePcm_crcRes : (s.writePcm base vs).crcRes = s.crcRes := rfl
@[simp] theorem State.writePcm_fType : (s.writePcm base vs).fType = s.fType := rfl
@[simp] theorem State.writePcm_fSev : (s.writePcm base vs).fSev = s.fSev := rfl
@[simp] theorem State.writePcm_fLat : (s.writePcm base vs).fLat = s.fLat := rfl
@[simp] theorem State.writePcm_fLon : (s.writePcm base vs).fLon = s.fLon := rfl
@[simp] theorem State.writePcm_fPop : (s.writePcm base vs).fPop = s.fPop := rfl
@[simp] theorem State.writePcm_fMsgLen : (s.writePcm base vs).fMsgLen = s.fMsgLen := rfl
@[simp] theorem State.writePcm_fMsg : (s.writePcm base vs).fMsg = s.fMsg := rfl
@[simp] theorem State.writePcm_codeLen : (s.writePcm base vs).codeLen = s.codeLen := rfl
@[simp] theorem State.writePcm_sigLen : (s.writePcm base vs).sigLen = s.sigLen := rfl
@[simp] theorem State.writePcm_pkLen : (s.writePcm base vs).pkLen = s.pkLen := rfl
@[simp] theorem State.writePcm_bLen : (s.writePcm base vs).bLen = s.bLen := rfl
@[simp] theorem State.writePcm_rxLen : (s.writePcm base vs).rxLen = s.rxLen := rfl
@[simp] theorem State.writePcm_pcmLen : (s.writePcm base vs).pcmLen = s.pcmLen := rfl
@[simp] theorem State.writePcm_toneCnt : (s.writePcm base vs).toneCnt = s.toneCnt := rfl
@[simp] theorem State.writePcm_dmSync : (s.writePcm base vs).dmSync = s.dmSync := rfl
@[simp] theorem State.writePcm_dmOnset : (s.writePcm base vs).dmOnset = s.dmOnset := rfl
@[simp] theorem State.writePcm_dmStart : (s.writePcm base vs).dmStart = s.dmStart := rfl
@[simp] theorem State.writePcm_dmScore : (s.writePcm base vs).dmScore = s.dmScore := rfl
@[simp] theorem State.writePcm_dmConf : (s.writePcm base vs).dmConf = s.dmConf := rfl
@[simp] theorem State.writePcm_dmErrCnt : (s.writePcm base vs).dmErrCnt = s.dmErrCnt := rfl
@[simp] theorem State.writePcm_code : (s.writePcm base vs).code = s.code := rfl
@[simp] theorem State.writePcm_sig : (s.writePcm base vs).sig = s.sig := rfl
@[simp] theorem State.writePcm_pk : (s.writePcm base vs).pk = s.pk := rfl
@[simp] theorem State.writePcm_bytes : (s.writePcm base vs).bytes = s.bytes := rfl
@[simp] theorem State.writePcm_epos : (s.writePcm base vs).epos = s.epos := rfl
@[simp] theorem State.writePcm_nconf : (s.writePcm base vs).nconf = s.nconf := rfl
@[simp] theorem State.writePcm_tones : (s.writePcm base vs).tones = s.tones := rfl
@[simp] theorem State.writePcm_pcm : (s.writePcm base vs).pcm = Memory.writeRange s.pcm base vs := rfl
@[simp] theorem State.writePcm_agenda : (s.writePcm base vs).agenda = s.agenda := rfl
@[simp] theorem State.writePcm_readLog : (s.writePcm base vs).readLog = s.readLog := rfl
@[simp] theorem State.writePcm_draws : (s.writePcm base vs).draws = s.draws := rfl
@[simp] theorem State.writePcm_powerOnDraw : (s.writePcm base vs).powerOnDraw = s.powerOnDraw := rfl

end

/-! ### `State.finish` -/

section

variable (e : ErrCode)

@[simp] theorem State.finish_phase : (s.finish e).phase = .idle := rfl
@[simp] theorem State.finish_irqEn : (s.finish e).irqEn = s.irqEn := rfl
@[simp] theorem State.finish_done : (s.finish e).done = true := rfl
@[simp] theorem State.finish_crcOk : (s.finish e).crcOk = s.crcOk := rfl
@[simp] theorem State.finish_ovr : (s.finish e).ovr = s.ovr := rfl
@[simp] theorem State.finish_lastCmd : (s.finish e).lastCmd = s.lastCmd := rfl
@[simp] theorem State.finish_err : (s.finish e).err = e := rfl
@[simp] theorem State.finish_crcRes : (s.finish e).crcRes = s.crcRes := rfl
@[simp] theorem State.finish_fType : (s.finish e).fType = s.fType := rfl
@[simp] theorem State.finish_fSev : (s.finish e).fSev = s.fSev := rfl
@[simp] theorem State.finish_fLat : (s.finish e).fLat = s.fLat := rfl
@[simp] theorem State.finish_fLon : (s.finish e).fLon = s.fLon := rfl
@[simp] theorem State.finish_fPop : (s.finish e).fPop = s.fPop := rfl
@[simp] theorem State.finish_fMsgLen : (s.finish e).fMsgLen = s.fMsgLen := rfl
@[simp] theorem State.finish_fMsg : (s.finish e).fMsg = s.fMsg := rfl
@[simp] theorem State.finish_codeLen : (s.finish e).codeLen = s.codeLen := rfl
@[simp] theorem State.finish_sigLen : (s.finish e).sigLen = s.sigLen := rfl
@[simp] theorem State.finish_pkLen : (s.finish e).pkLen = s.pkLen := rfl
@[simp] theorem State.finish_bLen : (s.finish e).bLen = s.bLen := rfl
@[simp] theorem State.finish_rxLen : (s.finish e).rxLen = s.rxLen := rfl
@[simp] theorem State.finish_pcmLen : (s.finish e).pcmLen = s.pcmLen := rfl
@[simp] theorem State.finish_toneCnt : (s.finish e).toneCnt = s.toneCnt := rfl
@[simp] theorem State.finish_dmSync : (s.finish e).dmSync = s.dmSync := rfl
@[simp] theorem State.finish_dmOnset : (s.finish e).dmOnset = s.dmOnset := rfl
@[simp] theorem State.finish_dmStart : (s.finish e).dmStart = s.dmStart := rfl
@[simp] theorem State.finish_dmScore : (s.finish e).dmScore = s.dmScore := rfl
@[simp] theorem State.finish_dmConf : (s.finish e).dmConf = s.dmConf := rfl
@[simp] theorem State.finish_dmErrCnt : (s.finish e).dmErrCnt = s.dmErrCnt := rfl
@[simp] theorem State.finish_code : (s.finish e).code = s.code := rfl
@[simp] theorem State.finish_sig : (s.finish e).sig = s.sig := rfl
@[simp] theorem State.finish_pk : (s.finish e).pk = s.pk := rfl
@[simp] theorem State.finish_bytes : (s.finish e).bytes = s.bytes := rfl
@[simp] theorem State.finish_epos : (s.finish e).epos = s.epos := rfl
@[simp] theorem State.finish_nconf : (s.finish e).nconf = s.nconf := rfl
@[simp] theorem State.finish_tones : (s.finish e).tones = s.tones := rfl
@[simp] theorem State.finish_pcm : (s.finish e).pcm = s.pcm := rfl
@[simp] theorem State.finish_agenda : (s.finish e).agenda = s.agendaAfterTurn := rfl
@[simp] theorem State.finish_readLog : (s.finish e).readLog = s.readLog := rfl
@[simp] theorem State.finish_draws : (s.finish e).draws = s.draws := rfl
@[simp] theorem State.finish_powerOnDraw : (s.finish e).powerOnDraw = s.powerOnDraw := rfl

end

@[simp] theorem State.complete_eq : s.complete = s.finish .none := rfl
@[simp] theorem State.raiseError_eq (e : ErrCode) : s.raiseError e = s.finish e := rfl

/-! ### `State.resetRegisters` -/

@[simp] theorem State.resetRegisters_phase : (s.resetRegisters).phase = State.reset.phase := rfl
@[simp] theorem State.resetRegisters_irqEn : (s.resetRegisters).irqEn = State.reset.irqEn := rfl
@[simp] theorem State.resetRegisters_done : (s.resetRegisters).done = State.reset.done := rfl
@[simp] theorem State.resetRegisters_crcOk : (s.resetRegisters).crcOk = State.reset.crcOk := rfl
@[simp] theorem State.resetRegisters_ovr : (s.resetRegisters).ovr = State.reset.ovr := rfl
@[simp] theorem State.resetRegisters_lastCmd : (s.resetRegisters).lastCmd = State.reset.lastCmd := rfl
@[simp] theorem State.resetRegisters_err : (s.resetRegisters).err = State.reset.err := rfl
@[simp] theorem State.resetRegisters_crcRes : (s.resetRegisters).crcRes = State.reset.crcRes := rfl
@[simp] theorem State.resetRegisters_fType : (s.resetRegisters).fType = State.reset.fType := rfl
@[simp] theorem State.resetRegisters_fSev : (s.resetRegisters).fSev = State.reset.fSev := rfl
@[simp] theorem State.resetRegisters_fLat : (s.resetRegisters).fLat = State.reset.fLat := rfl
@[simp] theorem State.resetRegisters_fLon : (s.resetRegisters).fLon = State.reset.fLon := rfl
@[simp] theorem State.resetRegisters_fPop : (s.resetRegisters).fPop = State.reset.fPop := rfl
@[simp] theorem State.resetRegisters_fMsgLen : (s.resetRegisters).fMsgLen = State.reset.fMsgLen := rfl
@[simp] theorem State.resetRegisters_fMsg : (s.resetRegisters).fMsg = State.reset.fMsg := rfl
@[simp] theorem State.resetRegisters_codeLen : (s.resetRegisters).codeLen = State.reset.codeLen := rfl
@[simp] theorem State.resetRegisters_sigLen : (s.resetRegisters).sigLen = State.reset.sigLen := rfl
@[simp] theorem State.resetRegisters_pkLen : (s.resetRegisters).pkLen = State.reset.pkLen := rfl
@[simp] theorem State.resetRegisters_bLen : (s.resetRegisters).bLen = State.reset.bLen := rfl
@[simp] theorem State.resetRegisters_rxLen : (s.resetRegisters).rxLen = State.reset.rxLen := rfl
@[simp] theorem State.resetRegisters_pcmLen : (s.resetRegisters).pcmLen = State.reset.pcmLen := rfl
@[simp] theorem State.resetRegisters_toneCnt : (s.resetRegisters).toneCnt = State.reset.toneCnt := rfl
@[simp] theorem State.resetRegisters_dmSync : (s.resetRegisters).dmSync = State.reset.dmSync := rfl
@[simp] theorem State.resetRegisters_dmOnset : (s.resetRegisters).dmOnset = State.reset.dmOnset := rfl
@[simp] theorem State.resetRegisters_dmStart : (s.resetRegisters).dmStart = State.reset.dmStart := rfl
@[simp] theorem State.resetRegisters_dmScore : (s.resetRegisters).dmScore = State.reset.dmScore := rfl
@[simp] theorem State.resetRegisters_dmConf : (s.resetRegisters).dmConf = State.reset.dmConf := rfl
@[simp] theorem State.resetRegisters_dmErrCnt : (s.resetRegisters).dmErrCnt = State.reset.dmErrCnt := rfl
@[simp] theorem State.resetRegisters_code : (s.resetRegisters).code = s.code := rfl
@[simp] theorem State.resetRegisters_sig : (s.resetRegisters).sig = s.sig := rfl
@[simp] theorem State.resetRegisters_pk : (s.resetRegisters).pk = s.pk := rfl
@[simp] theorem State.resetRegisters_bytes : (s.resetRegisters).bytes = s.bytes := rfl
@[simp] theorem State.resetRegisters_epos : (s.resetRegisters).epos = s.epos := rfl
@[simp] theorem State.resetRegisters_nconf : (s.resetRegisters).nconf = s.nconf := rfl
@[simp] theorem State.resetRegisters_tones : (s.resetRegisters).tones = s.tones := rfl
@[simp] theorem State.resetRegisters_pcm : (s.resetRegisters).pcm = s.pcm := rfl
@[simp] theorem State.resetRegisters_agenda : (s.resetRegisters).agenda = s.agenda := rfl
@[simp] theorem State.resetRegisters_readLog : (s.resetRegisters).readLog = s.readLog := rfl
@[simp] theorem State.resetRegisters_draws : (s.resetRegisters).draws = s.draws := rfl
@[simp] theorem State.resetRegisters_powerOnDraw : (s.resetRegisters).powerOnDraw = s.powerOnDraw := rfl

/-! ### `State.powerOnReset` -/

@[simp] theorem State.powerOnReset_phase : (s.powerOnReset).phase = State.reset.phase := rfl
@[simp] theorem State.powerOnReset_irqEn : (s.powerOnReset).irqEn = State.reset.irqEn := rfl
@[simp] theorem State.powerOnReset_done : (s.powerOnReset).done = State.reset.done := rfl
@[simp] theorem State.powerOnReset_crcOk : (s.powerOnReset).crcOk = State.reset.crcOk := rfl
@[simp] theorem State.powerOnReset_ovr : (s.powerOnReset).ovr = State.reset.ovr := rfl
@[simp] theorem State.powerOnReset_lastCmd : (s.powerOnReset).lastCmd = State.reset.lastCmd := rfl
@[simp] theorem State.powerOnReset_err : (s.powerOnReset).err = State.reset.err := rfl
@[simp] theorem State.powerOnReset_crcRes : (s.powerOnReset).crcRes = State.reset.crcRes := rfl
@[simp] theorem State.powerOnReset_fType : (s.powerOnReset).fType = State.reset.fType := rfl
@[simp] theorem State.powerOnReset_fSev : (s.powerOnReset).fSev = State.reset.fSev := rfl
@[simp] theorem State.powerOnReset_fLat : (s.powerOnReset).fLat = State.reset.fLat := rfl
@[simp] theorem State.powerOnReset_fLon : (s.powerOnReset).fLon = State.reset.fLon := rfl
@[simp] theorem State.powerOnReset_fPop : (s.powerOnReset).fPop = State.reset.fPop := rfl
@[simp] theorem State.powerOnReset_fMsgLen : (s.powerOnReset).fMsgLen = State.reset.fMsgLen := rfl
@[simp] theorem State.powerOnReset_fMsg : (s.powerOnReset).fMsg = State.reset.fMsg := rfl
@[simp] theorem State.powerOnReset_codeLen : (s.powerOnReset).codeLen = State.reset.codeLen := rfl
@[simp] theorem State.powerOnReset_sigLen : (s.powerOnReset).sigLen = State.reset.sigLen := rfl
@[simp] theorem State.powerOnReset_pkLen : (s.powerOnReset).pkLen = State.reset.pkLen := rfl
@[simp] theorem State.powerOnReset_bLen : (s.powerOnReset).bLen = State.reset.bLen := rfl
@[simp] theorem State.powerOnReset_rxLen : (s.powerOnReset).rxLen = State.reset.rxLen := rfl
@[simp] theorem State.powerOnReset_pcmLen : (s.powerOnReset).pcmLen = State.reset.pcmLen := rfl
@[simp] theorem State.powerOnReset_toneCnt : (s.powerOnReset).toneCnt = State.reset.toneCnt := rfl
@[simp] theorem State.powerOnReset_dmSync : (s.powerOnReset).dmSync = State.reset.dmSync := rfl
@[simp] theorem State.powerOnReset_dmOnset : (s.powerOnReset).dmOnset = State.reset.dmOnset := rfl
@[simp] theorem State.powerOnReset_dmStart : (s.powerOnReset).dmStart = State.reset.dmStart := rfl
@[simp] theorem State.powerOnReset_dmScore : (s.powerOnReset).dmScore = State.reset.dmScore := rfl
@[simp] theorem State.powerOnReset_dmConf : (s.powerOnReset).dmConf = State.reset.dmConf := rfl
@[simp] theorem State.powerOnReset_dmErrCnt : (s.powerOnReset).dmErrCnt = State.reset.dmErrCnt := rfl
@[simp] theorem State.powerOnReset_code : (s.powerOnReset).code = State.reset.code := rfl
@[simp] theorem State.powerOnReset_sig : (s.powerOnReset).sig = State.reset.sig := rfl
@[simp] theorem State.powerOnReset_pk : (s.powerOnReset).pk = State.reset.pk := rfl
@[simp] theorem State.powerOnReset_bytes : (s.powerOnReset).bytes = State.reset.bytes := rfl
@[simp] theorem State.powerOnReset_epos : (s.powerOnReset).epos = State.reset.epos := rfl
@[simp] theorem State.powerOnReset_nconf : (s.powerOnReset).nconf = State.reset.nconf := rfl
@[simp] theorem State.powerOnReset_tones : (s.powerOnReset).tones = State.reset.tones := rfl
@[simp] theorem State.powerOnReset_pcm : (s.powerOnReset).pcm = State.reset.pcm := rfl
@[simp] theorem State.powerOnReset_agenda : (s.powerOnReset).agenda = s.agenda := rfl
@[simp] theorem State.powerOnReset_readLog : (s.powerOnReset).readLog = s.readLog := rfl
@[simp] theorem State.powerOnReset_draws : (s.powerOnReset).draws = s.draws + 1 := rfl
@[simp] theorem State.powerOnReset_powerOnDraw : (s.powerOnReset).powerOnDraw = s.draws := rfl

/-! ### `State.afterRead` -/

section

variable (a : Addr)

@[simp] theorem State.afterRead_phase : (s.afterRead a).phase = s.phase := rfl
@[simp] theorem State.afterRead_irqEn : (s.afterRead a).irqEn = s.irqEn := rfl
@[simp] theorem State.afterRead_done : (s.afterRead a).done = s.done := rfl
@[simp] theorem State.afterRead_crcOk : (s.afterRead a).crcOk = s.crcOk := rfl
@[simp] theorem State.afterRead_ovr : (s.afterRead a).ovr = s.ovr := rfl
@[simp] theorem State.afterRead_lastCmd : (s.afterRead a).lastCmd = s.lastCmd := rfl
@[simp] theorem State.afterRead_err : (s.afterRead a).err = s.err := rfl
@[simp] theorem State.afterRead_crcRes : (s.afterRead a).crcRes = s.crcRes := rfl
@[simp] theorem State.afterRead_fType : (s.afterRead a).fType = s.fType := rfl
@[simp] theorem State.afterRead_fSev : (s.afterRead a).fSev = s.fSev := rfl
@[simp] theorem State.afterRead_fLat : (s.afterRead a).fLat = s.fLat := rfl
@[simp] theorem State.afterRead_fLon : (s.afterRead a).fLon = s.fLon := rfl
@[simp] theorem State.afterRead_fPop : (s.afterRead a).fPop = s.fPop := rfl
@[simp] theorem State.afterRead_fMsgLen : (s.afterRead a).fMsgLen = s.fMsgLen := rfl
@[simp] theorem State.afterRead_fMsg : (s.afterRead a).fMsg = s.fMsg := rfl
@[simp] theorem State.afterRead_codeLen : (s.afterRead a).codeLen = s.codeLen := rfl
@[simp] theorem State.afterRead_sigLen : (s.afterRead a).sigLen = s.sigLen := rfl
@[simp] theorem State.afterRead_pkLen : (s.afterRead a).pkLen = s.pkLen := rfl
@[simp] theorem State.afterRead_bLen : (s.afterRead a).bLen = s.bLen := rfl
@[simp] theorem State.afterRead_rxLen : (s.afterRead a).rxLen = s.rxLen := rfl
@[simp] theorem State.afterRead_pcmLen : (s.afterRead a).pcmLen = s.pcmLen := rfl
@[simp] theorem State.afterRead_toneCnt : (s.afterRead a).toneCnt = s.toneCnt := rfl
@[simp] theorem State.afterRead_dmSync : (s.afterRead a).dmSync = s.dmSync := rfl
@[simp] theorem State.afterRead_dmOnset : (s.afterRead a).dmOnset = s.dmOnset := rfl
@[simp] theorem State.afterRead_dmStart : (s.afterRead a).dmStart = s.dmStart := rfl
@[simp] theorem State.afterRead_dmScore : (s.afterRead a).dmScore = s.dmScore := rfl
@[simp] theorem State.afterRead_dmConf : (s.afterRead a).dmConf = s.dmConf := rfl
@[simp] theorem State.afterRead_dmErrCnt : (s.afterRead a).dmErrCnt = s.dmErrCnt := rfl
@[simp] theorem State.afterRead_code : (s.afterRead a).code = s.code := rfl
@[simp] theorem State.afterRead_sig : (s.afterRead a).sig = s.sig := rfl
@[simp] theorem State.afterRead_pk : (s.afterRead a).pk = s.pk := rfl
@[simp] theorem State.afterRead_bytes : (s.afterRead a).bytes = s.bytes := rfl
@[simp] theorem State.afterRead_epos : (s.afterRead a).epos = s.epos := rfl
@[simp] theorem State.afterRead_nconf : (s.afterRead a).nconf = s.nconf := rfl
@[simp] theorem State.afterRead_tones : (s.afterRead a).tones = s.tones := rfl
@[simp] theorem State.afterRead_pcm : (s.afterRead a).pcm = s.pcm := rfl
@[simp] theorem State.afterRead_agenda : (s.afterRead a).agenda = s.agenda := rfl
@[simp] theorem State.afterRead_readLog : (s.afterRead a).readLog = s.memRead a :: s.readLog := rfl
@[simp] theorem State.afterRead_draws : (s.afterRead a).draws = if s.readIsDraw (locate a) then s.draws + 1 else s.draws := rfl
@[simp] theorem State.afterRead_powerOnDraw : (s.afterRead a).powerOnDraw = s.powerOnDraw := rfl

end

/-! ### `State.writeStatus` -/

section

variable (v : Word)

@[simp] theorem State.writeStatus_phase : (s.writeStatus v).phase = s.phase := rfl
@[simp] theorem State.writeStatus_irqEn : (s.writeStatus v).irqEn = s.irqEn := rfl
@[simp] theorem State.writeStatus_done : (s.writeStatus v).done = (s.done && !v.getLsbD 1) := rfl
@[simp] theorem State.writeStatus_crcOk : (s.writeStatus v).crcOk = s.crcOk := rfl
@[simp] theorem State.writeStatus_ovr : (s.writeStatus v).ovr = (s.ovr && !v.getLsbD 4) := rfl
@[simp] theorem State.writeStatus_lastCmd : (s.writeStatus v).lastCmd = s.lastCmd := rfl
@[simp] theorem State.writeStatus_err : (s.writeStatus v).err = s.err := rfl
@[simp] theorem State.writeStatus_crcRes : (s.writeStatus v).crcRes = s.crcRes := rfl
@[simp] theorem State.writeStatus_fType : (s.writeStatus v).fType = s.fType := rfl
@[simp] theorem State.writeStatus_fSev : (s.writeStatus v).fSev = s.fSev := rfl
@[simp] theorem State.writeStatus_fLat : (s.writeStatus v).fLat = s.fLat := rfl
@[simp] theorem State.writeStatus_fLon : (s.writeStatus v).fLon = s.fLon := rfl
@[simp] theorem State.writeStatus_fPop : (s.writeStatus v).fPop = s.fPop := rfl
@[simp] theorem State.writeStatus_fMsgLen : (s.writeStatus v).fMsgLen = s.fMsgLen := rfl
@[simp] theorem State.writeStatus_fMsg : (s.writeStatus v).fMsg = s.fMsg := rfl
@[simp] theorem State.writeStatus_codeLen : (s.writeStatus v).codeLen = s.codeLen := rfl
@[simp] theorem State.writeStatus_sigLen : (s.writeStatus v).sigLen = s.sigLen := rfl
@[simp] theorem State.writeStatus_pkLen : (s.writeStatus v).pkLen = s.pkLen := rfl
@[simp] theorem State.writeStatus_bLen : (s.writeStatus v).bLen = s.bLen := rfl
@[simp] theorem State.writeStatus_rxLen : (s.writeStatus v).rxLen = s.rxLen := rfl
@[simp] theorem State.writeStatus_pcmLen : (s.writeStatus v).pcmLen = s.pcmLen := rfl
@[simp] theorem State.writeStatus_toneCnt : (s.writeStatus v).toneCnt = s.toneCnt := rfl
@[simp] theorem State.writeStatus_dmSync : (s.writeStatus v).dmSync = s.dmSync := rfl
@[simp] theorem State.writeStatus_dmOnset : (s.writeStatus v).dmOnset = s.dmOnset := rfl
@[simp] theorem State.writeStatus_dmStart : (s.writeStatus v).dmStart = s.dmStart := rfl
@[simp] theorem State.writeStatus_dmScore : (s.writeStatus v).dmScore = s.dmScore := rfl
@[simp] theorem State.writeStatus_dmConf : (s.writeStatus v).dmConf = s.dmConf := rfl
@[simp] theorem State.writeStatus_dmErrCnt : (s.writeStatus v).dmErrCnt = s.dmErrCnt := rfl
@[simp] theorem State.writeStatus_code : (s.writeStatus v).code = s.code := rfl
@[simp] theorem State.writeStatus_sig : (s.writeStatus v).sig = s.sig := rfl
@[simp] theorem State.writeStatus_pk : (s.writeStatus v).pk = s.pk := rfl
@[simp] theorem State.writeStatus_bytes : (s.writeStatus v).bytes = s.bytes := rfl
@[simp] theorem State.writeStatus_epos : (s.writeStatus v).epos = s.epos := rfl
@[simp] theorem State.writeStatus_nconf : (s.writeStatus v).nconf = s.nconf := rfl
@[simp] theorem State.writeStatus_tones : (s.writeStatus v).tones = s.tones := rfl
@[simp] theorem State.writeStatus_pcm : (s.writeStatus v).pcm = s.pcm := rfl
@[simp] theorem State.writeStatus_agenda : (s.writeStatus v).agenda = s.agenda := rfl
@[simp] theorem State.writeStatus_readLog : (s.writeStatus v).readLog = s.readLog := rfl
@[simp] theorem State.writeStatus_draws : (s.writeStatus v).draws = s.draws := rfl
@[simp] theorem State.writeStatus_powerOnDraw : (s.writeStatus v).powerOnDraw = s.powerOnDraw := rfl

end

/-! ### `State.unpackWith` -/

section

variable (c : Crc) (ok : Bool)

@[simp] theorem State.unpackWith_phase : (s.unpackWith c ok).phase = s.phase := rfl
@[simp] theorem State.unpackWith_irqEn : (s.unpackWith c ok).irqEn = s.irqEn := rfl
@[simp] theorem State.unpackWith_done : (s.unpackWith c ok).done = s.done := rfl
@[simp] theorem State.unpackWith_crcOk : (s.unpackWith c ok).crcOk = ok := rfl
@[simp] theorem State.unpackWith_ovr : (s.unpackWith c ok).ovr = s.ovr := rfl
@[simp] theorem State.unpackWith_lastCmd : (s.unpackWith c ok).lastCmd = s.lastCmd := rfl
@[simp] theorem State.unpackWith_err : (s.unpackWith c ok).err = s.err := rfl
@[simp] theorem State.unpackWith_crcRes : (s.unpackWith c ok).crcRes = c := rfl
@[simp] theorem State.unpackWith_fType : (s.unpackWith c ok).fType = s.codeAt 0 := rfl
@[simp] theorem State.unpackWith_fSev : (s.unpackWith c ok).fSev = (s.codeAt 1).setWidth 32 := rfl
@[simp] theorem State.unpackWith_fLat : (s.unpackWith c ok).fLat = BitVec.ofInt 32 (decLat (s.codeAt 2) (s.codeAt 3) (s.codeAt 4)) := rfl
@[simp] theorem State.unpackWith_fLon : (s.unpackWith c ok).fLon = BitVec.ofInt 32 (decLon (s.codeAt 5) (s.codeAt 6) (s.codeAt 7)) := rfl
@[simp] theorem State.unpackWith_fPop : (s.unpackWith c ok).fPop = decPop (s.codeAt 8) := rfl
@[simp] theorem State.unpackWith_fMsgLen : (s.unpackWith c ok).fMsgLen = BitVec.ofNat 8 s.unpackedLen := rfl
@[simp] theorem State.unpackWith_fMsg : (s.unpackWith c ok).fMsg = #v[s.unpackedMsgAt 0, s.unpackedMsgAt 1, s.unpackedMsgAt 2, s.unpackedMsgAt 3,
      s.unpackedMsgAt 4, s.unpackedMsgAt 5, s.unpackedMsgAt 6, s.unpackedMsgAt 7] := rfl
@[simp] theorem State.unpackWith_codeLen : (s.unpackWith c ok).codeLen = s.codeLen := rfl
@[simp] theorem State.unpackWith_sigLen : (s.unpackWith c ok).sigLen = s.sigLen := rfl
@[simp] theorem State.unpackWith_pkLen : (s.unpackWith c ok).pkLen = s.pkLen := rfl
@[simp] theorem State.unpackWith_bLen : (s.unpackWith c ok).bLen = s.bLen := rfl
@[simp] theorem State.unpackWith_rxLen : (s.unpackWith c ok).rxLen = s.rxLen := rfl
@[simp] theorem State.unpackWith_pcmLen : (s.unpackWith c ok).pcmLen = s.pcmLen := rfl
@[simp] theorem State.unpackWith_toneCnt : (s.unpackWith c ok).toneCnt = s.toneCnt := rfl
@[simp] theorem State.unpackWith_dmSync : (s.unpackWith c ok).dmSync = s.dmSync := rfl
@[simp] theorem State.unpackWith_dmOnset : (s.unpackWith c ok).dmOnset = s.dmOnset := rfl
@[simp] theorem State.unpackWith_dmStart : (s.unpackWith c ok).dmStart = s.dmStart := rfl
@[simp] theorem State.unpackWith_dmScore : (s.unpackWith c ok).dmScore = s.dmScore := rfl
@[simp] theorem State.unpackWith_dmConf : (s.unpackWith c ok).dmConf = s.dmConf := rfl
@[simp] theorem State.unpackWith_dmErrCnt : (s.unpackWith c ok).dmErrCnt = s.dmErrCnt := rfl
@[simp] theorem State.unpackWith_code : (s.unpackWith c ok).code = s.code := rfl
@[simp] theorem State.unpackWith_sig : (s.unpackWith c ok).sig = s.sig := rfl
@[simp] theorem State.unpackWith_pk : (s.unpackWith c ok).pk = s.pk := rfl
@[simp] theorem State.unpackWith_bytes : (s.unpackWith c ok).bytes = s.bytes := rfl
@[simp] theorem State.unpackWith_epos : (s.unpackWith c ok).epos = s.epos := rfl
@[simp] theorem State.unpackWith_nconf : (s.unpackWith c ok).nconf = s.nconf := rfl
@[simp] theorem State.unpackWith_tones : (s.unpackWith c ok).tones = s.tones := rfl
@[simp] theorem State.unpackWith_pcm : (s.unpackWith c ok).pcm = s.pcm := rfl
@[simp] theorem State.unpackWith_agenda : (s.unpackWith c ok).agenda = s.agenda := rfl
@[simp] theorem State.unpackWith_readLog : (s.unpackWith c ok).readLog = s.readLog := rfl
@[simp] theorem State.unpackWith_draws : (s.unpackWith c ok).draws = s.draws := rfl
@[simp] theorem State.unpackWith_powerOnDraw : (s.unpackWith c ok).powerOnDraw = s.powerOnDraw := rfl

end

/-! ### `State.withCrc` -/

section

variable (c : Crc)

@[simp] theorem State.withCrc_phase : (s.withCrc c).phase = s.phase := rfl
@[simp] theorem State.withCrc_irqEn : (s.withCrc c).irqEn = s.irqEn := rfl
@[simp] theorem State.withCrc_done : (s.withCrc c).done = s.done := rfl
@[simp] theorem State.withCrc_crcOk : (s.withCrc c).crcOk = s.crcOk := rfl
@[simp] theorem State.withCrc_ovr : (s.withCrc c).ovr = s.ovr := rfl
@[simp] theorem State.withCrc_lastCmd : (s.withCrc c).lastCmd = s.lastCmd := rfl
@[simp] theorem State.withCrc_err : (s.withCrc c).err = s.err := rfl
@[simp] theorem State.withCrc_crcRes : (s.withCrc c).crcRes = c := rfl
@[simp] theorem State.withCrc_fType : (s.withCrc c).fType = s.fType := rfl
@[simp] theorem State.withCrc_fSev : (s.withCrc c).fSev = s.fSev := rfl
@[simp] theorem State.withCrc_fLat : (s.withCrc c).fLat = s.fLat := rfl
@[simp] theorem State.withCrc_fLon : (s.withCrc c).fLon = s.fLon := rfl
@[simp] theorem State.withCrc_fPop : (s.withCrc c).fPop = s.fPop := rfl
@[simp] theorem State.withCrc_fMsgLen : (s.withCrc c).fMsgLen = s.fMsgLen := rfl
@[simp] theorem State.withCrc_fMsg : (s.withCrc c).fMsg = s.fMsg := rfl
@[simp] theorem State.withCrc_codeLen : (s.withCrc c).codeLen = s.codeLen := rfl
@[simp] theorem State.withCrc_sigLen : (s.withCrc c).sigLen = s.sigLen := rfl
@[simp] theorem State.withCrc_pkLen : (s.withCrc c).pkLen = s.pkLen := rfl
@[simp] theorem State.withCrc_bLen : (s.withCrc c).bLen = s.bLen := rfl
@[simp] theorem State.withCrc_rxLen : (s.withCrc c).rxLen = s.rxLen := rfl
@[simp] theorem State.withCrc_pcmLen : (s.withCrc c).pcmLen = s.pcmLen := rfl
@[simp] theorem State.withCrc_toneCnt : (s.withCrc c).toneCnt = s.toneCnt := rfl
@[simp] theorem State.withCrc_dmSync : (s.withCrc c).dmSync = s.dmSync := rfl
@[simp] theorem State.withCrc_dmOnset : (s.withCrc c).dmOnset = s.dmOnset := rfl
@[simp] theorem State.withCrc_dmStart : (s.withCrc c).dmStart = s.dmStart := rfl
@[simp] theorem State.withCrc_dmScore : (s.withCrc c).dmScore = s.dmScore := rfl
@[simp] theorem State.withCrc_dmConf : (s.withCrc c).dmConf = s.dmConf := rfl
@[simp] theorem State.withCrc_dmErrCnt : (s.withCrc c).dmErrCnt = s.dmErrCnt := rfl
@[simp] theorem State.withCrc_code : (s.withCrc c).code = s.code := rfl
@[simp] theorem State.withCrc_sig : (s.withCrc c).sig = s.sig := rfl
@[simp] theorem State.withCrc_pk : (s.withCrc c).pk = s.pk := rfl
@[simp] theorem State.withCrc_bytes : (s.withCrc c).bytes = s.bytes := rfl
@[simp] theorem State.withCrc_epos : (s.withCrc c).epos = s.epos := rfl
@[simp] theorem State.withCrc_nconf : (s.withCrc c).nconf = s.nconf := rfl
@[simp] theorem State.withCrc_tones : (s.withCrc c).tones = s.tones := rfl
@[simp] theorem State.withCrc_pcm : (s.withCrc c).pcm = s.pcm := rfl
@[simp] theorem State.withCrc_agenda : (s.withCrc c).agenda = s.agenda := rfl
@[simp] theorem State.withCrc_readLog : (s.withCrc c).readLog = s.readLog := rfl
@[simp] theorem State.withCrc_draws : (s.withCrc c).draws = s.draws := rfl
@[simp] theorem State.withCrc_powerOnDraw : (s.withCrc c).powerOnDraw = s.powerOnDraw := rfl

end

/-! ### `State.withCrcOk` -/

section

variable (ok : Bool)

@[simp] theorem State.withCrcOk_phase : (s.withCrcOk ok).phase = s.phase := rfl
@[simp] theorem State.withCrcOk_irqEn : (s.withCrcOk ok).irqEn = s.irqEn := rfl
@[simp] theorem State.withCrcOk_done : (s.withCrcOk ok).done = s.done := rfl
@[simp] theorem State.withCrcOk_crcOk : (s.withCrcOk ok).crcOk = ok := rfl
@[simp] theorem State.withCrcOk_ovr : (s.withCrcOk ok).ovr = s.ovr := rfl
@[simp] theorem State.withCrcOk_lastCmd : (s.withCrcOk ok).lastCmd = s.lastCmd := rfl
@[simp] theorem State.withCrcOk_err : (s.withCrcOk ok).err = s.err := rfl
@[simp] theorem State.withCrcOk_crcRes : (s.withCrcOk ok).crcRes = s.crcRes := rfl
@[simp] theorem State.withCrcOk_fType : (s.withCrcOk ok).fType = s.fType := rfl
@[simp] theorem State.withCrcOk_fSev : (s.withCrcOk ok).fSev = s.fSev := rfl
@[simp] theorem State.withCrcOk_fLat : (s.withCrcOk ok).fLat = s.fLat := rfl
@[simp] theorem State.withCrcOk_fLon : (s.withCrcOk ok).fLon = s.fLon := rfl
@[simp] theorem State.withCrcOk_fPop : (s.withCrcOk ok).fPop = s.fPop := rfl
@[simp] theorem State.withCrcOk_fMsgLen : (s.withCrcOk ok).fMsgLen = s.fMsgLen := rfl
@[simp] theorem State.withCrcOk_fMsg : (s.withCrcOk ok).fMsg = s.fMsg := rfl
@[simp] theorem State.withCrcOk_codeLen : (s.withCrcOk ok).codeLen = s.codeLen := rfl
@[simp] theorem State.withCrcOk_sigLen : (s.withCrcOk ok).sigLen = s.sigLen := rfl
@[simp] theorem State.withCrcOk_pkLen : (s.withCrcOk ok).pkLen = s.pkLen := rfl
@[simp] theorem State.withCrcOk_bLen : (s.withCrcOk ok).bLen = s.bLen := rfl
@[simp] theorem State.withCrcOk_rxLen : (s.withCrcOk ok).rxLen = s.rxLen := rfl
@[simp] theorem State.withCrcOk_pcmLen : (s.withCrcOk ok).pcmLen = s.pcmLen := rfl
@[simp] theorem State.withCrcOk_toneCnt : (s.withCrcOk ok).toneCnt = s.toneCnt := rfl
@[simp] theorem State.withCrcOk_dmSync : (s.withCrcOk ok).dmSync = s.dmSync := rfl
@[simp] theorem State.withCrcOk_dmOnset : (s.withCrcOk ok).dmOnset = s.dmOnset := rfl
@[simp] theorem State.withCrcOk_dmStart : (s.withCrcOk ok).dmStart = s.dmStart := rfl
@[simp] theorem State.withCrcOk_dmScore : (s.withCrcOk ok).dmScore = s.dmScore := rfl
@[simp] theorem State.withCrcOk_dmConf : (s.withCrcOk ok).dmConf = s.dmConf := rfl
@[simp] theorem State.withCrcOk_dmErrCnt : (s.withCrcOk ok).dmErrCnt = s.dmErrCnt := rfl
@[simp] theorem State.withCrcOk_code : (s.withCrcOk ok).code = s.code := rfl
@[simp] theorem State.withCrcOk_sig : (s.withCrcOk ok).sig = s.sig := rfl
@[simp] theorem State.withCrcOk_pk : (s.withCrcOk ok).pk = s.pk := rfl
@[simp] theorem State.withCrcOk_bytes : (s.withCrcOk ok).bytes = s.bytes := rfl
@[simp] theorem State.withCrcOk_epos : (s.withCrcOk ok).epos = s.epos := rfl
@[simp] theorem State.withCrcOk_nconf : (s.withCrcOk ok).nconf = s.nconf := rfl
@[simp] theorem State.withCrcOk_tones : (s.withCrcOk ok).tones = s.tones := rfl
@[simp] theorem State.withCrcOk_pcm : (s.withCrcOk ok).pcm = s.pcm := rfl
@[simp] theorem State.withCrcOk_agenda : (s.withCrcOk ok).agenda = s.agenda := rfl
@[simp] theorem State.withCrcOk_readLog : (s.withCrcOk ok).readLog = s.readLog := rfl
@[simp] theorem State.withCrcOk_draws : (s.withCrcOk ok).draws = s.draws := rfl
@[simp] theorem State.withCrcOk_powerOnDraw : (s.withCrcOk ok).powerOnDraw = s.powerOnDraw := rfl

end

/-! ### `State.withAgenda` -/

section

variable (rest : List Turn)

@[simp] theorem State.withAgenda_phase : (s.withAgenda rest).phase = s.phase := rfl
@[simp] theorem State.withAgenda_irqEn : (s.withAgenda rest).irqEn = s.irqEn := rfl
@[simp] theorem State.withAgenda_done : (s.withAgenda rest).done = s.done := rfl
@[simp] theorem State.withAgenda_crcOk : (s.withAgenda rest).crcOk = s.crcOk := rfl
@[simp] theorem State.withAgenda_ovr : (s.withAgenda rest).ovr = s.ovr := rfl
@[simp] theorem State.withAgenda_lastCmd : (s.withAgenda rest).lastCmd = s.lastCmd := rfl
@[simp] theorem State.withAgenda_err : (s.withAgenda rest).err = s.err := rfl
@[simp] theorem State.withAgenda_crcRes : (s.withAgenda rest).crcRes = s.crcRes := rfl
@[simp] theorem State.withAgenda_fType : (s.withAgenda rest).fType = s.fType := rfl
@[simp] theorem State.withAgenda_fSev : (s.withAgenda rest).fSev = s.fSev := rfl
@[simp] theorem State.withAgenda_fLat : (s.withAgenda rest).fLat = s.fLat := rfl
@[simp] theorem State.withAgenda_fLon : (s.withAgenda rest).fLon = s.fLon := rfl
@[simp] theorem State.withAgenda_fPop : (s.withAgenda rest).fPop = s.fPop := rfl
@[simp] theorem State.withAgenda_fMsgLen : (s.withAgenda rest).fMsgLen = s.fMsgLen := rfl
@[simp] theorem State.withAgenda_fMsg : (s.withAgenda rest).fMsg = s.fMsg := rfl
@[simp] theorem State.withAgenda_codeLen : (s.withAgenda rest).codeLen = s.codeLen := rfl
@[simp] theorem State.withAgenda_sigLen : (s.withAgenda rest).sigLen = s.sigLen := rfl
@[simp] theorem State.withAgenda_pkLen : (s.withAgenda rest).pkLen = s.pkLen := rfl
@[simp] theorem State.withAgenda_bLen : (s.withAgenda rest).bLen = s.bLen := rfl
@[simp] theorem State.withAgenda_rxLen : (s.withAgenda rest).rxLen = s.rxLen := rfl
@[simp] theorem State.withAgenda_pcmLen : (s.withAgenda rest).pcmLen = s.pcmLen := rfl
@[simp] theorem State.withAgenda_toneCnt : (s.withAgenda rest).toneCnt = s.toneCnt := rfl
@[simp] theorem State.withAgenda_dmSync : (s.withAgenda rest).dmSync = s.dmSync := rfl
@[simp] theorem State.withAgenda_dmOnset : (s.withAgenda rest).dmOnset = s.dmOnset := rfl
@[simp] theorem State.withAgenda_dmStart : (s.withAgenda rest).dmStart = s.dmStart := rfl
@[simp] theorem State.withAgenda_dmScore : (s.withAgenda rest).dmScore = s.dmScore := rfl
@[simp] theorem State.withAgenda_dmConf : (s.withAgenda rest).dmConf = s.dmConf := rfl
@[simp] theorem State.withAgenda_dmErrCnt : (s.withAgenda rest).dmErrCnt = s.dmErrCnt := rfl
@[simp] theorem State.withAgenda_code : (s.withAgenda rest).code = s.code := rfl
@[simp] theorem State.withAgenda_sig : (s.withAgenda rest).sig = s.sig := rfl
@[simp] theorem State.withAgenda_pk : (s.withAgenda rest).pk = s.pk := rfl
@[simp] theorem State.withAgenda_bytes : (s.withAgenda rest).bytes = s.bytes := rfl
@[simp] theorem State.withAgenda_epos : (s.withAgenda rest).epos = s.epos := rfl
@[simp] theorem State.withAgenda_nconf : (s.withAgenda rest).nconf = s.nconf := rfl
@[simp] theorem State.withAgenda_tones : (s.withAgenda rest).tones = s.tones := rfl
@[simp] theorem State.withAgenda_pcm : (s.withAgenda rest).pcm = s.pcm := rfl
@[simp] theorem State.withAgenda_agenda : (s.withAgenda rest).agenda = rest := rfl
@[simp] theorem State.withAgenda_readLog : (s.withAgenda rest).readLog = s.readLog := rfl
@[simp] theorem State.withAgenda_draws : (s.withAgenda rest).draws = s.draws := rfl
@[simp] theorem State.withAgenda_powerOnDraw : (s.withAgenda rest).powerOnDraw = s.powerOnDraw := rfl

end

/-! ### `State.packed` -/

theorem State.packed_eq : s.packed =
    { s with code := Memory.writeRange s.code 0 s.packCode, crcRes := crc16 s.packBody, codeLen := 24 } := rfl

@[simp] theorem State.packed_phase : (s.packed).phase = s.phase := by rw [State.packed_eq]
@[simp] theorem State.packed_irqEn : (s.packed).irqEn = s.irqEn := by rw [State.packed_eq]
@[simp] theorem State.packed_done : (s.packed).done = s.done := by rw [State.packed_eq]
@[simp] theorem State.packed_crcOk : (s.packed).crcOk = s.crcOk := by rw [State.packed_eq]
@[simp] theorem State.packed_ovr : (s.packed).ovr = s.ovr := by rw [State.packed_eq]
@[simp] theorem State.packed_lastCmd : (s.packed).lastCmd = s.lastCmd := by rw [State.packed_eq]
@[simp] theorem State.packed_err : (s.packed).err = s.err := by rw [State.packed_eq]
@[simp] theorem State.packed_crcRes : (s.packed).crcRes = crc16 s.packBody := by rw [State.packed_eq]
@[simp] theorem State.packed_fType : (s.packed).fType = s.fType := by rw [State.packed_eq]
@[simp] theorem State.packed_fSev : (s.packed).fSev = s.fSev := by rw [State.packed_eq]
@[simp] theorem State.packed_fLat : (s.packed).fLat = s.fLat := by rw [State.packed_eq]
@[simp] theorem State.packed_fLon : (s.packed).fLon = s.fLon := by rw [State.packed_eq]
@[simp] theorem State.packed_fPop : (s.packed).fPop = s.fPop := by rw [State.packed_eq]
@[simp] theorem State.packed_fMsgLen : (s.packed).fMsgLen = s.fMsgLen := by rw [State.packed_eq]
@[simp] theorem State.packed_fMsg : (s.packed).fMsg = s.fMsg := by rw [State.packed_eq]
@[simp] theorem State.packed_codeLen : (s.packed).codeLen = 24 := by rw [State.packed_eq]
@[simp] theorem State.packed_sigLen : (s.packed).sigLen = s.sigLen := by rw [State.packed_eq]
@[simp] theorem State.packed_pkLen : (s.packed).pkLen = s.pkLen := by rw [State.packed_eq]
@[simp] theorem State.packed_bLen : (s.packed).bLen = s.bLen := by rw [State.packed_eq]
@[simp] theorem State.packed_rxLen : (s.packed).rxLen = s.rxLen := by rw [State.packed_eq]
@[simp] theorem State.packed_pcmLen : (s.packed).pcmLen = s.pcmLen := by rw [State.packed_eq]
@[simp] theorem State.packed_toneCnt : (s.packed).toneCnt = s.toneCnt := by rw [State.packed_eq]
@[simp] theorem State.packed_dmSync : (s.packed).dmSync = s.dmSync := by rw [State.packed_eq]
@[simp] theorem State.packed_dmOnset : (s.packed).dmOnset = s.dmOnset := by rw [State.packed_eq]
@[simp] theorem State.packed_dmStart : (s.packed).dmStart = s.dmStart := by rw [State.packed_eq]
@[simp] theorem State.packed_dmScore : (s.packed).dmScore = s.dmScore := by rw [State.packed_eq]
@[simp] theorem State.packed_dmConf : (s.packed).dmConf = s.dmConf := by rw [State.packed_eq]
@[simp] theorem State.packed_dmErrCnt : (s.packed).dmErrCnt = s.dmErrCnt := by rw [State.packed_eq]
@[simp] theorem State.packed_code : (s.packed).code = Memory.writeRange s.code 0 s.packCode := by rw [State.packed_eq]
@[simp] theorem State.packed_sig : (s.packed).sig = s.sig := by rw [State.packed_eq]
@[simp] theorem State.packed_pk : (s.packed).pk = s.pk := by rw [State.packed_eq]
@[simp] theorem State.packed_bytes : (s.packed).bytes = s.bytes := by rw [State.packed_eq]
@[simp] theorem State.packed_epos : (s.packed).epos = s.epos := by rw [State.packed_eq]
@[simp] theorem State.packed_nconf : (s.packed).nconf = s.nconf := by rw [State.packed_eq]
@[simp] theorem State.packed_tones : (s.packed).tones = s.tones := by rw [State.packed_eq]
@[simp] theorem State.packed_pcm : (s.packed).pcm = s.pcm := by rw [State.packed_eq]
@[simp] theorem State.packed_agenda : (s.packed).agenda = s.agenda := by rw [State.packed_eq]
@[simp] theorem State.packed_readLog : (s.packed).readLog = s.readLog := by rw [State.packed_eq]
@[simp] theorem State.packed_draws : (s.packed).draws = s.draws := by rw [State.packed_eq]
@[simp] theorem State.packed_powerOnDraw : (s.packed).powerOnDraw = s.powerOnDraw := by rw [State.packed_eq]

/-! ### `State.joinFrame` -/

@[simp] theorem State.joinFrame_phase : (s.joinFrame).phase = s.phase := rfl
@[simp] theorem State.joinFrame_irqEn : (s.joinFrame).irqEn = s.irqEn := rfl
@[simp] theorem State.joinFrame_done : (s.joinFrame).done = s.done := rfl
@[simp] theorem State.joinFrame_crcOk : (s.joinFrame).crcOk = s.crcOk := rfl
@[simp] theorem State.joinFrame_ovr : (s.joinFrame).ovr = s.ovr := rfl
@[simp] theorem State.joinFrame_lastCmd : (s.joinFrame).lastCmd = s.lastCmd := rfl
@[simp] theorem State.joinFrame_err : (s.joinFrame).err = s.err := rfl
@[simp] theorem State.joinFrame_crcRes : (s.joinFrame).crcRes = s.crcRes := rfl
@[simp] theorem State.joinFrame_fType : (s.joinFrame).fType = s.fType := rfl
@[simp] theorem State.joinFrame_fSev : (s.joinFrame).fSev = s.fSev := rfl
@[simp] theorem State.joinFrame_fLat : (s.joinFrame).fLat = s.fLat := rfl
@[simp] theorem State.joinFrame_fLon : (s.joinFrame).fLon = s.fLon := rfl
@[simp] theorem State.joinFrame_fPop : (s.joinFrame).fPop = s.fPop := rfl
@[simp] theorem State.joinFrame_fMsgLen : (s.joinFrame).fMsgLen = s.fMsgLen := rfl
@[simp] theorem State.joinFrame_fMsg : (s.joinFrame).fMsg = s.fMsg := rfl
@[simp] theorem State.joinFrame_codeLen : (s.joinFrame).codeLen = s.codeLen := rfl
@[simp] theorem State.joinFrame_sigLen : (s.joinFrame).sigLen = s.sigLen := rfl
@[simp] theorem State.joinFrame_pkLen : (s.joinFrame).pkLen = s.pkLen := rfl
@[simp] theorem State.joinFrame_bLen : (s.joinFrame).bLen = 120 := rfl
@[simp] theorem State.joinFrame_rxLen : (s.joinFrame).rxLen = s.rxLen := rfl
@[simp] theorem State.joinFrame_pcmLen : (s.joinFrame).pcmLen = s.pcmLen := rfl
@[simp] theorem State.joinFrame_toneCnt : (s.joinFrame).toneCnt = s.toneCnt := rfl
@[simp] theorem State.joinFrame_dmSync : (s.joinFrame).dmSync = s.dmSync := rfl
@[simp] theorem State.joinFrame_dmOnset : (s.joinFrame).dmOnset = s.dmOnset := rfl
@[simp] theorem State.joinFrame_dmStart : (s.joinFrame).dmStart = s.dmStart := rfl
@[simp] theorem State.joinFrame_dmScore : (s.joinFrame).dmScore = s.dmScore := rfl
@[simp] theorem State.joinFrame_dmConf : (s.joinFrame).dmConf = s.dmConf := rfl
@[simp] theorem State.joinFrame_dmErrCnt : (s.joinFrame).dmErrCnt = s.dmErrCnt := rfl
@[simp] theorem State.joinFrame_code : (s.joinFrame).code = s.code := rfl
@[simp] theorem State.joinFrame_sig : (s.joinFrame).sig = s.sig := rfl
@[simp] theorem State.joinFrame_pk : (s.joinFrame).pk = s.pk := rfl
@[simp] theorem State.joinFrame_bytes : (s.joinFrame).bytes = Memory.writeRange s.bytes 0 s.wireFrame := rfl
@[simp] theorem State.joinFrame_epos : (s.joinFrame).epos = s.epos := rfl
@[simp] theorem State.joinFrame_nconf : (s.joinFrame).nconf = s.nconf := rfl
@[simp] theorem State.joinFrame_tones : (s.joinFrame).tones = s.tones := rfl
@[simp] theorem State.joinFrame_pcm : (s.joinFrame).pcm = s.pcm := rfl
@[simp] theorem State.joinFrame_agenda : (s.joinFrame).agenda = s.agenda := rfl
@[simp] theorem State.joinFrame_readLog : (s.joinFrame).readLog = s.readLog := rfl
@[simp] theorem State.joinFrame_draws : (s.joinFrame).draws = s.draws := rfl
@[simp] theorem State.joinFrame_powerOnDraw : (s.joinFrame).powerOnDraw = s.powerOnDraw := rfl

/-! ### `State.splitFrame` -/

@[simp] theorem State.splitFrame_phase : (s.splitFrame).phase = s.phase := rfl
@[simp] theorem State.splitFrame_irqEn : (s.splitFrame).irqEn = s.irqEn := rfl
@[simp] theorem State.splitFrame_done : (s.splitFrame).done = s.done := rfl
@[simp] theorem State.splitFrame_crcOk : (s.splitFrame).crcOk = s.crcOk := rfl
@[simp] theorem State.splitFrame_ovr : (s.splitFrame).ovr = s.ovr := rfl
@[simp] theorem State.splitFrame_lastCmd : (s.splitFrame).lastCmd = s.lastCmd := rfl
@[simp] theorem State.splitFrame_err : (s.splitFrame).err = s.err := rfl
@[simp] theorem State.splitFrame_crcRes : (s.splitFrame).crcRes = s.crcRes := rfl
@[simp] theorem State.splitFrame_fType : (s.splitFrame).fType = s.fType := rfl
@[simp] theorem State.splitFrame_fSev : (s.splitFrame).fSev = s.fSev := rfl
@[simp] theorem State.splitFrame_fLat : (s.splitFrame).fLat = s.fLat := rfl
@[simp] theorem State.splitFrame_fLon : (s.splitFrame).fLon = s.fLon := rfl
@[simp] theorem State.splitFrame_fPop : (s.splitFrame).fPop = s.fPop := rfl
@[simp] theorem State.splitFrame_fMsgLen : (s.splitFrame).fMsgLen = s.fMsgLen := rfl
@[simp] theorem State.splitFrame_fMsg : (s.splitFrame).fMsg = s.fMsg := rfl
@[simp] theorem State.splitFrame_codeLen : (s.splitFrame).codeLen = 24 := rfl
@[simp] theorem State.splitFrame_sigLen : (s.splitFrame).sigLen = 64 := rfl
@[simp] theorem State.splitFrame_pkLen : (s.splitFrame).pkLen = 32 := rfl
@[simp] theorem State.splitFrame_bLen : (s.splitFrame).bLen = s.bLen := rfl
@[simp] theorem State.splitFrame_rxLen : (s.splitFrame).rxLen = s.rxLen := rfl
@[simp] theorem State.splitFrame_pcmLen : (s.splitFrame).pcmLen = s.pcmLen := rfl
@[simp] theorem State.splitFrame_toneCnt : (s.splitFrame).toneCnt = s.toneCnt := rfl
@[simp] theorem State.splitFrame_dmSync : (s.splitFrame).dmSync = s.dmSync := rfl
@[simp] theorem State.splitFrame_dmOnset : (s.splitFrame).dmOnset = s.dmOnset := rfl
@[simp] theorem State.splitFrame_dmStart : (s.splitFrame).dmStart = s.dmStart := rfl
@[simp] theorem State.splitFrame_dmScore : (s.splitFrame).dmScore = s.dmScore := rfl
@[simp] theorem State.splitFrame_dmConf : (s.splitFrame).dmConf = s.dmConf := rfl
@[simp] theorem State.splitFrame_dmErrCnt : (s.splitFrame).dmErrCnt = s.dmErrCnt := rfl
@[simp] theorem State.splitFrame_code : (s.splitFrame).code = Memory.writeRange s.code 0 (s.bytesRange 0 24) := rfl
@[simp] theorem State.splitFrame_sig : (s.splitFrame).sig = Memory.writeRange s.sig 0 (s.bytesRange 24 64) := rfl
@[simp] theorem State.splitFrame_pk : (s.splitFrame).pk = Memory.writeRange s.pk 0 (s.bytesRange 88 32) := rfl
@[simp] theorem State.splitFrame_bytes : (s.splitFrame).bytes = s.bytes := rfl
@[simp] theorem State.splitFrame_epos : (s.splitFrame).epos = s.epos := rfl
@[simp] theorem State.splitFrame_nconf : (s.splitFrame).nconf = s.nconf := rfl
@[simp] theorem State.splitFrame_tones : (s.splitFrame).tones = s.tones := rfl
@[simp] theorem State.splitFrame_pcm : (s.splitFrame).pcm = s.pcm := rfl
@[simp] theorem State.splitFrame_agenda : (s.splitFrame).agenda = s.agenda := rfl
@[simp] theorem State.splitFrame_readLog : (s.splitFrame).readLog = s.readLog := rfl
@[simp] theorem State.splitFrame_draws : (s.splitFrame).draws = s.draws := rfl
@[simp] theorem State.splitFrame_powerOnDraw : (s.splitFrame).powerOnDraw = s.powerOnDraw := rfl

/-! ### `State.withTimeline` -/

@[simp] theorem State.withTimeline_phase : (s.withTimeline).phase = s.phase := rfl
@[simp] theorem State.withTimeline_irqEn : (s.withTimeline).irqEn = s.irqEn := rfl
@[simp] theorem State.withTimeline_done : (s.withTimeline).done = s.done := rfl
@[simp] theorem State.withTimeline_crcOk : (s.withTimeline).crcOk = s.crcOk := rfl
@[simp] theorem State.withTimeline_ovr : (s.withTimeline).ovr = s.ovr := rfl
@[simp] theorem State.withTimeline_lastCmd : (s.withTimeline).lastCmd = s.lastCmd := rfl
@[simp] theorem State.withTimeline_err : (s.withTimeline).err = s.err := rfl
@[simp] theorem State.withTimeline_crcRes : (s.withTimeline).crcRes = s.crcRes := rfl
@[simp] theorem State.withTimeline_fType : (s.withTimeline).fType = s.fType := rfl
@[simp] theorem State.withTimeline_fSev : (s.withTimeline).fSev = s.fSev := rfl
@[simp] theorem State.withTimeline_fLat : (s.withTimeline).fLat = s.fLat := rfl
@[simp] theorem State.withTimeline_fLon : (s.withTimeline).fLon = s.fLon := rfl
@[simp] theorem State.withTimeline_fPop : (s.withTimeline).fPop = s.fPop := rfl
@[simp] theorem State.withTimeline_fMsgLen : (s.withTimeline).fMsgLen = s.fMsgLen := rfl
@[simp] theorem State.withTimeline_fMsg : (s.withTimeline).fMsg = s.fMsg := rfl
@[simp] theorem State.withTimeline_codeLen : (s.withTimeline).codeLen = s.codeLen := rfl
@[simp] theorem State.withTimeline_sigLen : (s.withTimeline).sigLen = s.sigLen := rfl
@[simp] theorem State.withTimeline_pkLen : (s.withTimeline).pkLen = s.pkLen := rfl
@[simp] theorem State.withTimeline_bLen : (s.withTimeline).bLen = s.bLen := rfl
@[simp] theorem State.withTimeline_rxLen : (s.withTimeline).rxLen = s.rxLen := rfl
@[simp] theorem State.withTimeline_pcmLen : (s.withTimeline).pcmLen = s.pcmLen := rfl
@[simp] theorem State.withTimeline_toneCnt : (s.withTimeline).toneCnt = BitVec.ofNat 32 (Config.params.nTones s.bLen.toNat) := rfl
@[simp] theorem State.withTimeline_dmSync : (s.withTimeline).dmSync = s.dmSync := rfl
@[simp] theorem State.withTimeline_dmOnset : (s.withTimeline).dmOnset = s.dmOnset := rfl
@[simp] theorem State.withTimeline_dmStart : (s.withTimeline).dmStart = s.dmStart := rfl
@[simp] theorem State.withTimeline_dmScore : (s.withTimeline).dmScore = s.dmScore := rfl
@[simp] theorem State.withTimeline_dmConf : (s.withTimeline).dmConf = s.dmConf := rfl
@[simp] theorem State.withTimeline_dmErrCnt : (s.withTimeline).dmErrCnt = s.dmErrCnt := rfl
@[simp] theorem State.withTimeline_code : (s.withTimeline).code = s.code := rfl
@[simp] theorem State.withTimeline_sig : (s.withTimeline).sig = s.sig := rfl
@[simp] theorem State.withTimeline_pk : (s.withTimeline).pk = s.pk := rfl
@[simp] theorem State.withTimeline_bytes : (s.withTimeline).bytes = s.bytes := rfl
@[simp] theorem State.withTimeline_epos : (s.withTimeline).epos = s.epos := rfl
@[simp] theorem State.withTimeline_nconf : (s.withTimeline).nconf = s.nconf := rfl
@[simp] theorem State.withTimeline_tones : (s.withTimeline).tones = Memory.writeRange s.tones 0 ((timeline Config.params s.payload).map Tone.entry) := rfl
@[simp] theorem State.withTimeline_pcm : (s.withTimeline).pcm = s.pcm := rfl
@[simp] theorem State.withTimeline_agenda : (s.withTimeline).agenda = s.agenda := rfl
@[simp] theorem State.withTimeline_readLog : (s.withTimeline).readLog = s.readLog := rfl
@[simp] theorem State.withTimeline_draws : (s.withTimeline).draws = s.draws := rfl
@[simp] theorem State.withTimeline_powerOnDraw : (s.withTimeline).powerOnDraw = s.powerOnDraw := rfl

/-! ### `State.withWaveform` -/

@[simp] theorem State.withWaveform_phase : (s.withWaveform).phase = s.phase := rfl
@[simp] theorem State.withWaveform_irqEn : (s.withWaveform).irqEn = s.irqEn := rfl
@[simp] theorem State.withWaveform_done : (s.withWaveform).done = s.done := rfl
@[simp] theorem State.withWaveform_crcOk : (s.withWaveform).crcOk = s.crcOk := rfl
@[simp] theorem State.withWaveform_ovr : (s.withWaveform).ovr = s.ovr := rfl
@[simp] theorem State.withWaveform_lastCmd : (s.withWaveform).lastCmd = s.lastCmd := rfl
@[simp] theorem State.withWaveform_err : (s.withWaveform).err = s.err := rfl
@[simp] theorem State.withWaveform_crcRes : (s.withWaveform).crcRes = s.crcRes := rfl
@[simp] theorem State.withWaveform_fType : (s.withWaveform).fType = s.fType := rfl
@[simp] theorem State.withWaveform_fSev : (s.withWaveform).fSev = s.fSev := rfl
@[simp] theorem State.withWaveform_fLat : (s.withWaveform).fLat = s.fLat := rfl
@[simp] theorem State.withWaveform_fLon : (s.withWaveform).fLon = s.fLon := rfl
@[simp] theorem State.withWaveform_fPop : (s.withWaveform).fPop = s.fPop := rfl
@[simp] theorem State.withWaveform_fMsgLen : (s.withWaveform).fMsgLen = s.fMsgLen := rfl
@[simp] theorem State.withWaveform_fMsg : (s.withWaveform).fMsg = s.fMsg := rfl
@[simp] theorem State.withWaveform_codeLen : (s.withWaveform).codeLen = s.codeLen := rfl
@[simp] theorem State.withWaveform_sigLen : (s.withWaveform).sigLen = s.sigLen := rfl
@[simp] theorem State.withWaveform_pkLen : (s.withWaveform).pkLen = s.pkLen := rfl
@[simp] theorem State.withWaveform_bLen : (s.withWaveform).bLen = s.bLen := rfl
@[simp] theorem State.withWaveform_rxLen : (s.withWaveform).rxLen = s.rxLen := rfl
@[simp] theorem State.withWaveform_pcmLen : (s.withWaveform).pcmLen = BitVec.ofNat 32 (Config.params.lMod s.bLen.toNat) := rfl
@[simp] theorem State.withWaveform_toneCnt : (s.withWaveform).toneCnt = s.toneCnt := rfl
@[simp] theorem State.withWaveform_dmSync : (s.withWaveform).dmSync = s.dmSync := rfl
@[simp] theorem State.withWaveform_dmOnset : (s.withWaveform).dmOnset = s.dmOnset := rfl
@[simp] theorem State.withWaveform_dmStart : (s.withWaveform).dmStart = s.dmStart := rfl
@[simp] theorem State.withWaveform_dmScore : (s.withWaveform).dmScore = s.dmScore := rfl
@[simp] theorem State.withWaveform_dmConf : (s.withWaveform).dmConf = s.dmConf := rfl
@[simp] theorem State.withWaveform_dmErrCnt : (s.withWaveform).dmErrCnt = s.dmErrCnt := rfl
@[simp] theorem State.withWaveform_code : (s.withWaveform).code = s.code := rfl
@[simp] theorem State.withWaveform_sig : (s.withWaveform).sig = s.sig := rfl
@[simp] theorem State.withWaveform_pk : (s.withWaveform).pk = s.pk := rfl
@[simp] theorem State.withWaveform_bytes : (s.withWaveform).bytes = s.bytes := rfl
@[simp] theorem State.withWaveform_epos : (s.withWaveform).epos = s.epos := rfl
@[simp] theorem State.withWaveform_nconf : (s.withWaveform).nconf = s.nconf := rfl
@[simp] theorem State.withWaveform_tones : (s.withWaveform).tones = s.tones := rfl
@[simp] theorem State.withWaveform_pcm : (s.withWaveform).pcm = Memory.writeRange s.pcm 0 (render Config.params Config.numerics s.payload) := rfl
@[simp] theorem State.withWaveform_agenda : (s.withWaveform).agenda = s.agenda := rfl
@[simp] theorem State.withWaveform_readLog : (s.withWaveform).readLog = s.readLog := rfl
@[simp] theorem State.withWaveform_draws : (s.withWaveform).draws = s.draws := rfl
@[simp] theorem State.withWaveform_powerOnDraw : (s.withWaveform).powerOnDraw = s.powerOnDraw := rfl

/-! ### `State.storeResult` -/

section

variable (r : DecodeResult)

@[simp] theorem State.storeResult_phase : (s.storeResult r).phase = s.phase := rfl
@[simp] theorem State.storeResult_irqEn : (s.storeResult r).irqEn = s.irqEn := rfl
@[simp] theorem State.storeResult_done : (s.storeResult r).done = s.done := rfl
@[simp] theorem State.storeResult_crcOk : (s.storeResult r).crcOk = s.crcOk := rfl
@[simp] theorem State.storeResult_ovr : (s.storeResult r).ovr = s.ovr := rfl
@[simp] theorem State.storeResult_lastCmd : (s.storeResult r).lastCmd = s.lastCmd := rfl
@[simp] theorem State.storeResult_err : (s.storeResult r).err = s.err := rfl
@[simp] theorem State.storeResult_crcRes : (s.storeResult r).crcRes = s.crcRes := rfl
@[simp] theorem State.storeResult_fType : (s.storeResult r).fType = s.fType := rfl
@[simp] theorem State.storeResult_fSev : (s.storeResult r).fSev = s.fSev := rfl
@[simp] theorem State.storeResult_fLat : (s.storeResult r).fLat = s.fLat := rfl
@[simp] theorem State.storeResult_fLon : (s.storeResult r).fLon = s.fLon := rfl
@[simp] theorem State.storeResult_fPop : (s.storeResult r).fPop = s.fPop := rfl
@[simp] theorem State.storeResult_fMsgLen : (s.storeResult r).fMsgLen = s.fMsgLen := rfl
@[simp] theorem State.storeResult_fMsg : (s.storeResult r).fMsg = s.fMsg := rfl
@[simp] theorem State.storeResult_codeLen : (s.storeResult r).codeLen = s.codeLen := rfl
@[simp] theorem State.storeResult_sigLen : (s.storeResult r).sigLen = s.sigLen := rfl
@[simp] theorem State.storeResult_pkLen : (s.storeResult r).pkLen = s.pkLen := rfl
@[simp] theorem State.storeResult_bLen : (s.storeResult r).bLen = s.rxLen := rfl
@[simp] theorem State.storeResult_rxLen : (s.storeResult r).rxLen = s.rxLen := rfl
@[simp] theorem State.storeResult_pcmLen : (s.storeResult r).pcmLen = s.pcmLen := rfl
@[simp] theorem State.storeResult_toneCnt : (s.storeResult r).toneCnt = s.toneCnt := rfl
@[simp] theorem State.storeResult_dmSync : (s.storeResult r).dmSync = r.sync := rfl
@[simp] theorem State.storeResult_dmOnset : (s.storeResult r).dmOnset = BitVec.ofNat 32 r.onset := rfl
@[simp] theorem State.storeResult_dmStart : (s.storeResult r).dmStart = BitVec.ofNat 32 r.start := rfl
@[simp] theorem State.storeResult_dmScore : (s.storeResult r).dmScore = round32 r.score := rfl
@[simp] theorem State.storeResult_dmConf : (s.storeResult r).dmConf = round32 (meanOf Config.numerics r.confidences) := rfl
@[simp] theorem State.storeResult_dmErrCnt : (s.storeResult r).dmErrCnt = BitVec.ofNat 32 r.errorPositions.length := rfl
@[simp] theorem State.storeResult_code : (s.storeResult r).code = s.code := rfl
@[simp] theorem State.storeResult_sig : (s.storeResult r).sig = s.sig := rfl
@[simp] theorem State.storeResult_pk : (s.storeResult r).pk = s.pk := rfl
@[simp] theorem State.storeResult_bytes : (s.storeResult r).bytes = Memory.writeRange s.bytes 0 (r.decoded.map DecodedByte.value) := rfl
@[simp] theorem State.storeResult_epos : (s.storeResult r).epos = Memory.writeRange s.epos 0 (r.errorPositions.map (BitVec.ofNat 32)) := rfl
@[simp] theorem State.storeResult_nconf : (s.storeResult r).nconf = Memory.writeRange s.nconf 0 (r.confidences.map round32) := rfl
@[simp] theorem State.storeResult_tones : (s.storeResult r).tones = s.tones := rfl
@[simp] theorem State.storeResult_pcm : (s.storeResult r).pcm = s.pcm := rfl
@[simp] theorem State.storeResult_agenda : (s.storeResult r).agenda = s.agenda := rfl
@[simp] theorem State.storeResult_readLog : (s.storeResult r).readLog = s.readLog := rfl
@[simp] theorem State.storeResult_draws : (s.storeResult r).draws = s.draws := rfl
@[simp] theorem State.storeResult_powerOnDraw : (s.storeResult r).powerOnDraw = s.powerOnDraw := rfl

end

end Sys2Proof.Machine
end

