-- ==== Sys2Proof/Laws/Ops.lean ====
section
/-!
SUPPORT. What the shared operations over the memories and the sequencer can do, said once: an element read after a range
write, an element read after an update that leaves its memory alone, the turn of the sequencer.
-/

namespace Sys2Proof.Machine

/-! ### An element depends on its own memory and the power-on draw only -/

theorem State.codeAt_congr {s t : State} (h : t.code = s.code) (h' : t.powerOnDraw = s.powerOnDraw) (k : Nat) :
    t.codeAt k = s.codeAt k := by
  rw [State.codeAt, State.codeAt, h, h']

theorem State.sigAt_congr {s t : State} (h : t.sig = s.sig) (h' : t.powerOnDraw = s.powerOnDraw) (k : Nat) :
    t.sigAt k = s.sigAt k := by
  rw [State.sigAt, State.sigAt, h, h']

theorem State.pkAt_congr {s t : State} (h : t.pk = s.pk) (h' : t.powerOnDraw = s.powerOnDraw) (k : Nat) :
    t.pkAt k = s.pkAt k := by
  rw [State.pkAt, State.pkAt, h, h']

theorem State.bytesAt_congr {s t : State} (h : t.bytes = s.bytes) (h' : t.powerOnDraw = s.powerOnDraw) (k : Nat) :
    t.bytesAt k = s.bytesAt k := by
  rw [State.bytesAt, State.bytesAt, h, h']

theorem State.eposAt_congr {s t : State} (h : t.epos = s.epos) (h' : t.powerOnDraw = s.powerOnDraw) (k : Nat) :
    t.eposAt k = s.eposAt k := by
  rw [State.eposAt, State.eposAt, h, h']

theorem State.nconfAt_congr {s t : State} (h : t.nconf = s.nconf) (h' : t.powerOnDraw = s.powerOnDraw) (k : Nat) :
    t.nconfAt k = s.nconfAt k := by
  rw [State.nconfAt, State.nconfAt, h, h']

theorem State.toneAt_congr {s t : State} (h : t.tones = s.tones) (h' : t.powerOnDraw = s.powerOnDraw) (k : Nat) :
    t.toneAt k = s.toneAt k := by
  rw [State.toneAt, State.toneAt, h, h']

theorem State.pcmAt_congr {s t : State} (h : t.pcm = s.pcm) (h' : t.powerOnDraw = s.powerOnDraw) (k : Nat) :
    t.pcmAt k = s.pcmAt k := by
  rw [State.pcmAt, State.pcmAt, h, h']

/-! ### An element after a range write of its memory -/

theorem State.codeAt_writeCode (s : State) (base : Nat) (vs : List Byte) (k : Nat) :
    (s.writeCode base vs).codeAt k =
      if base ≤ k ∧ k < base + vs.length then vs[k - base]?.getD (s.codeAt k) else s.codeAt k := by
  unfold State.codeAt
  rw [State.writeCode_code, State.writeCode_powerOnDraw, Memory.get?_writeRange]
  split
  · next h =>
    have : k - base < vs.length := by omega
    simp [this]
  · rfl

theorem State.codeAt_writeCode_of_lt (s : State) (vs : List Byte) (k : Nat) (h : k < vs.length) :
    (s.writeCode 0 vs).codeAt k = vs[k] := by
  rw [State.codeAt_writeCode, if_pos (by omega)]
  simp [h]

theorem State.codeAt_writeCode_of_outside (s : State) (base : Nat) (vs : List Byte) (k : Nat)
    (h : k < base ∨ base + vs.length ≤ k) : (s.writeCode base vs).codeAt k = s.codeAt k := by
  rw [State.codeAt_writeCode, if_neg (by omega)]

theorem State.sigAt_writeSig (s : State) (base : Nat) (vs : List Byte) (k : Nat) :
    (s.writeSig base vs).sigAt k =
      if base ≤ k ∧ k < base + vs.length then vs[k - base]?.getD (s.sigAt k) else s.sigAt k := by
  unfold State.sigAt
  rw [State.writeSig_sig, State.writeSig_powerOnDraw, Memory.get?_writeRange]
  split
  · next h =>
    have : k - base < vs.length := by omega
    simp [this]
  · rfl

theorem State.sigAt_writeSig_of_lt (s : State) (vs : List Byte) (k : Nat) (h : k < vs.length) :
    (s.writeSig 0 vs).sigAt k = vs[k] := by
  rw [State.sigAt_writeSig, if_pos (by omega)]
  simp [h]

theorem State.sigAt_writeSig_of_outside (s : State) (base : Nat) (vs : List Byte) (k : Nat)
    (h : k < base ∨ base + vs.length ≤ k) : (s.writeSig base vs).sigAt k = s.sigAt k := by
  rw [State.sigAt_writeSig, if_neg (by omega)]

theorem State.pkAt_writePk (s : State) (base : Nat) (vs : List Byte) (k : Nat) :
    (s.writePk base vs).pkAt k =
      if base ≤ k ∧ k < base + vs.length then vs[k - base]?.getD (s.pkAt k) else s.pkAt k := by
  unfold State.pkAt
  rw [State.writePk_pk, State.writePk_powerOnDraw, Memory.get?_writeRange]
  split
  · next h =>
    have : k - base < vs.length := by omega
    simp [this]
  · rfl

theorem State.pkAt_writePk_of_lt (s : State) (vs : List Byte) (k : Nat) (h : k < vs.length) :
    (s.writePk 0 vs).pkAt k = vs[k] := by
  rw [State.pkAt_writePk, if_pos (by omega)]
  simp [h]

theorem State.pkAt_writePk_of_outside (s : State) (base : Nat) (vs : List Byte) (k : Nat)
    (h : k < base ∨ base + vs.length ≤ k) : (s.writePk base vs).pkAt k = s.pkAt k := by
  rw [State.pkAt_writePk, if_neg (by omega)]

theorem State.bytesAt_writeBytes (s : State) (base : Nat) (vs : List Byte) (k : Nat) :
    (s.writeBytes base vs).bytesAt k =
      if base ≤ k ∧ k < base + vs.length then vs[k - base]?.getD (s.bytesAt k) else s.bytesAt k := by
  unfold State.bytesAt
  rw [State.writeBytes_bytes, State.writeBytes_powerOnDraw, Memory.get?_writeRange]
  split
  · next h =>
    have : k - base < vs.length := by omega
    simp [this]
  · rfl

theorem State.bytesAt_writeBytes_of_lt (s : State) (vs : List Byte) (k : Nat) (h : k < vs.length) :
    (s.writeBytes 0 vs).bytesAt k = vs[k] := by
  rw [State.bytesAt_writeBytes, if_pos (by omega)]
  simp [h]

theorem State.bytesAt_writeBytes_of_outside (s : State) (base : Nat) (vs : List Byte) (k : Nat)
    (h : k < base ∨ base + vs.length ≤ k) : (s.writeBytes base vs).bytesAt k = s.bytesAt k := by
  rw [State.bytesAt_writeBytes, if_neg (by omega)]

theorem State.eposAt_writeEpos (s : State) (base : Nat) (vs : List Word) (k : Nat) :
    (s.writeEpos base vs).eposAt k =
      if base ≤ k ∧ k < base + vs.length then vs[k - base]?.getD (s.eposAt k) else s.eposAt k := by
  unfold State.eposAt
  rw [State.writeEpos_epos, State.writeEpos_powerOnDraw, Memory.get?_writeRange]
  split
  · next h =>
    have : k - base < vs.length := by omega
    simp [this]
  · rfl

theorem State.eposAt_writeEpos_of_lt (s : State) (vs : List Word) (k : Nat) (h : k < vs.length) :
    (s.writeEpos 0 vs).eposAt k = vs[k] := by
  rw [State.eposAt_writeEpos, if_pos (by omega)]
  simp [h]

theorem State.eposAt_writeEpos_of_outside (s : State) (base : Nat) (vs : List Word) (k : Nat)
    (h : k < base ∨ base + vs.length ≤ k) : (s.writeEpos base vs).eposAt k = s.eposAt k := by
  rw [State.eposAt_writeEpos, if_neg (by omega)]

theorem State.nconfAt_writeNconf (s : State) (base : Nat) (vs : List Word) (k : Nat) :
    (s.writeNconf base vs).nconfAt k =
      if base ≤ k ∧ k < base + vs.length then vs[k - base]?.getD (s.nconfAt k) else s.nconfAt k := by
  unfold State.nconfAt
  rw [State.writeNconf_nconf, State.writeNconf_powerOnDraw, Memory.get?_writeRange]
  split
  · next h =>
    have : k - base < vs.length := by omega
    simp [this]
  · rfl

theorem State.nconfAt_writeNconf_of_lt (s : State) (vs : List Word) (k : Nat) (h : k < vs.length) :
    (s.writeNconf 0 vs).nconfAt k = vs[k] := by
  rw [State.nconfAt_writeNconf, if_pos (by omega)]
  simp [h]

theorem State.nconfAt_writeNconf_of_outside (s : State) (base : Nat) (vs : List Word) (k : Nat)
    (h : k < base ∨ base + vs.length ≤ k) : (s.writeNconf base vs).nconfAt k = s.nconfAt k := by
  rw [State.nconfAt_writeNconf, if_neg (by omega)]

theorem State.toneAt_writeTones (s : State) (base : Nat) (vs : List ToneEntry) (k : Nat) :
    (s.writeTones base vs).toneAt k =
      if base ≤ k ∧ k < base + vs.length then vs[k - base]?.getD (s.toneAt k) else s.toneAt k := by
  unfold State.toneAt
  rw [State.writeTones_tones, State.writeTones_powerOnDraw, Memory.get?_writeRange]
  split
  · next h =>
    have : k - base < vs.length := by omega
    simp [this]
  · rfl

theorem State.toneAt_writeTones_of_lt (s : State) (vs : List ToneEntry) (k : Nat) (h : k < vs.length) :
    (s.writeTones 0 vs).toneAt k = vs[k] := by
  rw [State.toneAt_writeTones, if_pos (by omega)]
  simp [h]

theorem State.toneAt_writeTones_of_outside (s : State) (base : Nat) (vs : List ToneEntry) (k : Nat)
    (h : k < base ∨ base + vs.length ≤ k) : (s.writeTones base vs).toneAt k = s.toneAt k := by
  rw [State.toneAt_writeTones, if_neg (by omega)]

theorem State.pcmAt_writePcm (s : State) (base : Nat) (vs : List Word) (k : Nat) :
    (s.writePcm base vs).pcmAt k =
      if base ≤ k ∧ k < base + vs.length then vs[k - base]?.getD (s.pcmAt k) else s.pcmAt k := by
  unfold State.pcmAt
  rw [State.writePcm_pcm, State.writePcm_powerOnDraw, Memory.get?_writeRange]
  split
  · next h =>
    have : k - base < vs.length := by omega
    simp [this]
  · rfl

theorem State.pcmAt_writePcm_of_lt (s : State) (vs : List Word) (k : Nat) (h : k < vs.length) :
    (s.writePcm 0 vs).pcmAt k = vs[k] := by
  rw [State.pcmAt_writePcm, if_pos (by omega)]
  simp [h]

theorem State.pcmAt_writePcm_of_outside (s : State) (base : Nat) (vs : List Word) (k : Nat)
    (h : k < base ∨ base + vs.length ≤ k) : (s.writePcm base vs).pcmAt k = s.pcmAt k := by
  rw [State.pcmAt_writePcm, if_neg (by omega)]

/-! ### An element after an update that leaves its memory alone -/

section

variable (s : State) (k : Nat)

@[simp] theorem State.codeAt_writeSig (base : Nat) (vs : List Byte) : (s.writeSig base vs).codeAt k = s.codeAt k := rfl
@[simp] theorem State.codeAt_writePk (base : Nat) (vs : List Byte) : (s.writePk base vs).codeAt k = s.codeAt k := rfl
@[simp] theorem State.codeAt_writeBytes (base : Nat) (vs : List Byte) : (s.writeBytes base vs).codeAt k = s.codeAt k := rfl
@[simp] theorem State.codeAt_writeEpos (base : Nat) (vs : List Word) : (s.writeEpos base vs).codeAt k = s.codeAt k := rfl
@[simp] theorem State.codeAt_writeNconf (base : Nat) (vs : List Word) : (s.writeNconf base vs).codeAt k = s.codeAt k := rfl
@[simp] theorem State.codeAt_writeTones (base : Nat) (vs : List ToneEntry) : (s.writeTones base vs).codeAt k = s.codeAt k := rfl
@[simp] theorem State.codeAt_writePcm (base : Nat) (vs : List Word) : (s.writePcm base vs).codeAt k = s.codeAt k := rfl
@[simp] theorem State.codeAt_finish (e : ErrCode) : (s.finish e).codeAt k = s.codeAt k := rfl
@[simp] theorem State.codeAt_resetRegisters : s.resetRegisters.codeAt k = s.codeAt k := rfl
@[simp] theorem State.codeAt_unpackWith (c : Crc) (ok : Bool) : (s.unpackWith c ok).codeAt k = s.codeAt k := rfl
@[simp] theorem State.codeAt_afterRead (a : Addr) : (s.afterRead a).codeAt k = s.codeAt k := rfl
@[simp] theorem State.codeAt_writeStatus (v : Word) : (s.writeStatus v).codeAt k = s.codeAt k := rfl
@[simp] theorem State.sigAt_writeCode (base : Nat) (vs : List Byte) : (s.writeCode base vs).sigAt k = s.sigAt k := rfl
@[simp] theorem State.sigAt_writePk (base : Nat) (vs : List Byte) : (s.writePk base vs).sigAt k = s.sigAt k := rfl
@[simp] theorem State.sigAt_writeBytes (base : Nat) (vs : List Byte) : (s.writeBytes base vs).sigAt k = s.sigAt k := rfl
@[simp] theorem State.sigAt_writeEpos (base : Nat) (vs : List Word) : (s.writeEpos base vs).sigAt k = s.sigAt k := rfl
@[simp] theorem State.sigAt_writeNconf (base : Nat) (vs : List Word) : (s.writeNconf base vs).sigAt k = s.sigAt k := rfl
@[simp] theorem State.sigAt_writeTones (base : Nat) (vs : List ToneEntry) : (s.writeTones base vs).sigAt k = s.sigAt k := rfl
@[simp] theorem State.sigAt_writePcm (base : Nat) (vs : List Word) : (s.writePcm base vs).sigAt k = s.sigAt k := rfl
@[simp] theorem State.sigAt_finish (e : ErrCode) : (s.finish e).sigAt k = s.sigAt k := rfl
@[simp] theorem State.sigAt_resetRegisters : s.resetRegisters.sigAt k = s.sigAt k := rfl
@[simp] theorem State.sigAt_unpackWith (c : Crc) (ok : Bool) : (s.unpackWith c ok).sigAt k = s.sigAt k := rfl
@[simp] theorem State.sigAt_afterRead (a : Addr) : (s.afterRead a).sigAt k = s.sigAt k := rfl
@[simp] theorem State.sigAt_writeStatus (v : Word) : (s.writeStatus v).sigAt k = s.sigAt k := rfl
@[simp] theorem State.pkAt_writeCode (base : Nat) (vs : List Byte) : (s.writeCode base vs).pkAt k = s.pkAt k := rfl
@[simp] theorem State.pkAt_writeSig (base : Nat) (vs : List Byte) : (s.writeSig base vs).pkAt k = s.pkAt k := rfl
@[simp] theorem State.pkAt_writeBytes (base : Nat) (vs : List Byte) : (s.writeBytes base vs).pkAt k = s.pkAt k := rfl
@[simp] theorem State.pkAt_writeEpos (base : Nat) (vs : List Word) : (s.writeEpos base vs).pkAt k = s.pkAt k := rfl
@[simp] theorem State.pkAt_writeNconf (base : Nat) (vs : List Word) : (s.writeNconf base vs).pkAt k = s.pkAt k := rfl
@[simp] theorem State.pkAt_writeTones (base : Nat) (vs : List ToneEntry) : (s.writeTones base vs).pkAt k = s.pkAt k := rfl
@[simp] theorem State.pkAt_writePcm (base : Nat) (vs : List Word) : (s.writePcm base vs).pkAt k = s.pkAt k := rfl
@[simp] theorem State.pkAt_finish (e : ErrCode) : (s.finish e).pkAt k = s.pkAt k := rfl
@[simp] theorem State.pkAt_resetRegisters : s.resetRegisters.pkAt k = s.pkAt k := rfl
@[simp] theorem State.pkAt_unpackWith (c : Crc) (ok : Bool) : (s.unpackWith c ok).pkAt k = s.pkAt k := rfl
@[simp] theorem State.pkAt_afterRead (a : Addr) : (s.afterRead a).pkAt k = s.pkAt k := rfl
@[simp] theorem State.pkAt_writeStatus (v : Word) : (s.writeStatus v).pkAt k = s.pkAt k := rfl
@[simp] theorem State.bytesAt_writeCode (base : Nat) (vs : List Byte) : (s.writeCode base vs).bytesAt k = s.bytesAt k := rfl
@[simp] theorem State.bytesAt_writeSig (base : Nat) (vs : List Byte) : (s.writeSig base vs).bytesAt k = s.bytesAt k := rfl
@[simp] theorem State.bytesAt_writePk (base : Nat) (vs : List Byte) : (s.writePk base vs).bytesAt k = s.bytesAt k := rfl
@[simp] theorem State.bytesAt_writeEpos (base : Nat) (vs : List Word) : (s.writeEpos base vs).bytesAt k = s.bytesAt k := rfl
@[simp] theorem State.bytesAt_writeNconf (base : Nat) (vs : List Word) : (s.writeNconf base vs).bytesAt k = s.bytesAt k := rfl
@[simp] theorem State.bytesAt_writeTones (base : Nat) (vs : List ToneEntry) : (s.writeTones base vs).bytesAt k = s.bytesAt k := rfl
@[simp] theorem State.bytesAt_writePcm (base : Nat) (vs : List Word) : (s.writePcm base vs).bytesAt k = s.bytesAt k := rfl
@[simp] theorem State.bytesAt_finish (e : ErrCode) : (s.finish e).bytesAt k = s.bytesAt k := rfl
@[simp] theorem State.bytesAt_resetRegisters : s.resetRegisters.bytesAt k = s.bytesAt k := rfl
@[simp] theorem State.bytesAt_unpackWith (c : Crc) (ok : Bool) : (s.unpackWith c ok).bytesAt k = s.bytesAt k := rfl
@[simp] theorem State.bytesAt_afterRead (a : Addr) : (s.afterRead a).bytesAt k = s.bytesAt k := rfl
@[simp] theorem State.bytesAt_writeStatus (v : Word) : (s.writeStatus v).bytesAt k = s.bytesAt k := rfl
@[simp] theorem State.eposAt_writeCode (base : Nat) (vs : List Byte) : (s.writeCode base vs).eposAt k = s.eposAt k := rfl
@[simp] theorem State.eposAt_writeSig (base : Nat) (vs : List Byte) : (s.writeSig base vs).eposAt k = s.eposAt k := rfl
@[simp] theorem State.eposAt_writePk (base : Nat) (vs : List Byte) : (s.writePk base vs).eposAt k = s.eposAt k := rfl
@[simp] theorem State.eposAt_writeBytes (base : Nat) (vs : List Byte) : (s.writeBytes base vs).eposAt k = s.eposAt k := rfl
@[simp] theorem State.eposAt_writeNconf (base : Nat) (vs : List Word) : (s.writeNconf base vs).eposAt k = s.eposAt k := rfl
@[simp] theorem State.eposAt_writeTones (base : Nat) (vs : List ToneEntry) : (s.writeTones base vs).eposAt k = s.eposAt k := rfl
@[simp] theorem State.eposAt_writePcm (base : Nat) (vs : List Word) : (s.writePcm base vs).eposAt k = s.eposAt k := rfl
@[simp] theorem State.eposAt_finish (e : ErrCode) : (s.finish e).eposAt k = s.eposAt k := rfl
@[simp] theorem State.eposAt_resetRegisters : s.resetRegisters.eposAt k = s.eposAt k := rfl
@[simp] theorem State.eposAt_unpackWith (c : Crc) (ok : Bool) : (s.unpackWith c ok).eposAt k = s.eposAt k := rfl
@[simp] theorem State.eposAt_afterRead (a : Addr) : (s.afterRead a).eposAt k = s.eposAt k := rfl
@[simp] theorem State.eposAt_writeStatus (v : Word) : (s.writeStatus v).eposAt k = s.eposAt k := rfl
@[simp] theorem State.nconfAt_writeCode (base : Nat) (vs : List Byte) : (s.writeCode base vs).nconfAt k = s.nconfAt k := rfl
@[simp] theorem State.nconfAt_writeSig (base : Nat) (vs : List Byte) : (s.writeSig base vs).nconfAt k = s.nconfAt k := rfl
@[simp] theorem State.nconfAt_writePk (base : Nat) (vs : List Byte) : (s.writePk base vs).nconfAt k = s.nconfAt k := rfl
@[simp] theorem State.nconfAt_writeBytes (base : Nat) (vs : List Byte) : (s.writeBytes base vs).nconfAt k = s.nconfAt k := rfl
@[simp] theorem State.nconfAt_writeEpos (base : Nat) (vs : List Word) : (s.writeEpos base vs).nconfAt k = s.nconfAt k := rfl
@[simp] theorem State.nconfAt_writeTones (base : Nat) (vs : List ToneEntry) : (s.writeTones base vs).nconfAt k = s.nconfAt k := rfl
@[simp] theorem State.nconfAt_writePcm (base : Nat) (vs : List Word) : (s.writePcm base vs).nconfAt k = s.nconfAt k := rfl
@[simp] theorem State.nconfAt_finish (e : ErrCode) : (s.finish e).nconfAt k = s.nconfAt k := rfl
@[simp] theorem State.nconfAt_resetRegisters : s.resetRegisters.nconfAt k = s.nconfAt k := rfl
@[simp] theorem State.nconfAt_unpackWith (c : Crc) (ok : Bool) : (s.unpackWith c ok).nconfAt k = s.nconfAt k := rfl
@[simp] theorem State.nconfAt_afterRead (a : Addr) : (s.afterRead a).nconfAt k = s.nconfAt k := rfl
@[simp] theorem State.nconfAt_writeStatus (v : Word) : (s.writeStatus v).nconfAt k = s.nconfAt k := rfl
@[simp] theorem State.toneAt_writeCode (base : Nat) (vs : List Byte) : (s.writeCode base vs).toneAt k = s.toneAt k := rfl
@[simp] theorem State.toneAt_writeSig (base : Nat) (vs : List Byte) : (s.writeSig base vs).toneAt k = s.toneAt k := rfl
@[simp] theorem State.toneAt_writePk (base : Nat) (vs : List Byte) : (s.writePk base vs).toneAt k = s.toneAt k := rfl
@[simp] theorem State.toneAt_writeBytes (base : Nat) (vs : List Byte) : (s.writeBytes base vs).toneAt k = s.toneAt k := rfl
@[simp] theorem State.toneAt_writeEpos (base : Nat) (vs : List Word) : (s.writeEpos base vs).toneAt k = s.toneAt k := rfl
@[simp] theorem State.toneAt_writeNconf (base : Nat) (vs : List Word) : (s.writeNconf base vs).toneAt k = s.toneAt k := rfl
@[simp] theorem State.toneAt_writePcm (base : Nat) (vs : List Word) : (s.writePcm base vs).toneAt k = s.toneAt k := rfl
@[simp] theorem State.toneAt_finish (e : ErrCode) : (s.finish e).toneAt k = s.toneAt k := rfl
@[simp] theorem State.toneAt_resetRegisters : s.resetRegisters.toneAt k = s.toneAt k := rfl
@[simp] theorem State.toneAt_unpackWith (c : Crc) (ok : Bool) : (s.unpackWith c ok).toneAt k = s.toneAt k := rfl
@[simp] theorem State.toneAt_afterRead (a : Addr) : (s.afterRead a).toneAt k = s.toneAt k := rfl
@[simp] theorem State.toneAt_writeStatus (v : Word) : (s.writeStatus v).toneAt k = s.toneAt k := rfl
@[simp] theorem State.pcmAt_writeCode (base : Nat) (vs : List Byte) : (s.writeCode base vs).pcmAt k = s.pcmAt k := rfl
@[simp] theorem State.pcmAt_writeSig (base : Nat) (vs : List Byte) : (s.writeSig base vs).pcmAt k = s.pcmAt k := rfl
@[simp] theorem State.pcmAt_writePk (base : Nat) (vs : List Byte) : (s.writePk base vs).pcmAt k = s.pcmAt k := rfl
@[simp] theorem State.pcmAt_writeBytes (base : Nat) (vs : List Byte) : (s.writeBytes base vs).pcmAt k = s.pcmAt k := rfl
@[simp] theorem State.pcmAt_writeEpos (base : Nat) (vs : List Word) : (s.writeEpos base vs).pcmAt k = s.pcmAt k := rfl
@[simp] theorem State.pcmAt_writeNconf (base : Nat) (vs : List Word) : (s.writeNconf base vs).pcmAt k = s.pcmAt k := rfl
@[simp] theorem State.pcmAt_writeTones (base : Nat) (vs : List ToneEntry) : (s.writeTones base vs).pcmAt k = s.pcmAt k := rfl
@[simp] theorem State.pcmAt_finish (e : ErrCode) : (s.finish e).pcmAt k = s.pcmAt k := rfl
@[simp] theorem State.pcmAt_resetRegisters : s.resetRegisters.pcmAt k = s.pcmAt k := rfl
@[simp] theorem State.pcmAt_unpackWith (c : Crc) (ok : Bool) : (s.unpackWith c ok).pcmAt k = s.pcmAt k := rfl
@[simp] theorem State.pcmAt_afterRead (a : Addr) : (s.afterRead a).pcmAt k = s.pcmAt k := rfl
@[simp] theorem State.pcmAt_writeStatus (v : Word) : (s.writeStatus v).pcmAt k = s.pcmAt k := rfl

end

/-! ### Reads of an element word by word -/

/-- An element reads the same in two states with the same memories and the same power-on draw. -/
theorem State.readElem_congr {s t : State} (hcode : t.code = s.code) (hsig : t.sig = s.sig) (hpk : t.pk = s.pk)
    (hbytes : t.bytes = s.bytes) (hepos : t.epos = s.epos) (hnconf : t.nconf = s.nconf) (htones : t.tones = s.tones)
    (hpcm : t.pcm = s.pcm) (hd : t.powerOnDraw = s.powerOnDraw) (m : Region) (k f : Nat) :
    t.readElem m k f = s.readElem m k f := by
  cases m <;> simp only [State.readElem]
  · rw [State.codeAt_congr hcode hd]
  · rw [State.sigAt_congr hsig hd]
  · rw [State.pkAt_congr hpk hd]
  · rw [State.bytesAt_congr hbytes hd]
  · rw [State.eposAt_congr hepos hd]
  · rw [State.nconfAt_congr hnconf hd]
  · rw [State.toneAt_congr htones hd]
  · rw [State.pcmAt_congr hpcm hd]

@[simp] theorem State.readElem_finish (s : State) (e : ErrCode) (m : Region) (k f : Nat) :
    (s.finish e).readElem m k f = s.readElem m k f := by cases m <;> rfl

@[simp] theorem State.readElem_resetRegisters (s : State) (m : Region) (k f : Nat) :
    s.resetRegisters.readElem m k f = s.readElem m k f := by cases m <;> rfl

/-- A register other than STATUS and ERR reads the same after a completion. -/
theorem State.readReg_finish (s : State) (e : ErrCode) {r : Reg} (h : r ≠ .status) (h' : r ≠ .err) :
    (s.finish e).readReg r = s.readReg r := by
  cases r <;> first | rfl | contradiction

/-! ### The turn of the sequencer -/

/-- `completing` answers a word exactly when the phase is BUSY with it and the agenda is empty or gives the sequencer the
next turn. -/
theorem State.completing_eq_some {s : State} {c : Word} :
    s.completing = some c ↔ s.phase = .busy c ∧ (s.agenda = [] ∨ ∃ rest, s.agenda = .sequencer :: rest) := by
  unfold State.completing
  split <;> simp_all

/-- While BUSY, it is the host's turn exactly when the agenda starts with a turn that is not the sequencer's. -/
theorem State.completing_busy {s : State} {c : Word} (h : s.phase = .busy c) :
    s.completing = some c ∨ (s.completing = none ∧ ∃ turn rest, s.agenda = turn :: rest ∧ turn ≠ .sequencer) := by
  unfold State.completing
  rcases hs : s.agenda with _ | ⟨_ | _ | _ | _, rest⟩ <;> simp [h]

theorem State.completing_idle {s : State} (h : s.phase = .idle) : s.completing = none := by
  simp [State.completing, h]

end Sys2Proof.Machine
end

