-- ==== Sys2Proof/Laws/Bus.lean ====
section
/-!
SUPPORT. What the host bus and the resets can do, said once: the elements an abort redraws, the fields it leaves alone,
the fields every write leaves alone, and the agenda after a turn of the host.
-/

namespace Sys2Proof.Machine

/-! ### The address map -/

/-- The element of a word that lies in a memory is within the memory's capacity. -/
theorem Region.index_lt_of_holds {m : Region} {w : Nat} (h : m.holds w = true) :
    (w - m.base / 4) / m.strideWords < m.capacity := by
  simp only [Region.holds, Bool.and_eq_true, decide_eq_true_eq] at h
  have hs : 0 < m.strideWords := by cases m <;> decide
  rw [Nat.div_lt_iff_lt_mul hs, Nat.mul_comm]
  omega

/-- No memory overlaps another (rule R101). -/
theorem Region.holds_unique {m m' : Region} {w : Nat} (h : m.holds w = true) (h' : m'.holds w = true) : m = m' := by
  have h1 := Config.maxB_le
  have h2 := Config.tMax_le
  simp only [Region.holds, Bool.and_eq_true, decide_eq_true_eq] at h h'
  cases m <;> cases m' <;> first
    | rfl
    | (simp only [Region.base, Region.strideWords, Region.capacity] at h h'; omega)

/-- The address map finds the memory a word lies in. -/
theorem Region.find_eq_some {m : Region} {w : Nat} (h : m.holds w = true) :
    Region.all.find? (fun m => m.holds w) = some m := by
  cases hf : Region.all.find? (fun m => m.holds w) with
  | none => exact absurd h (List.find?_eq_none.mp hf m (by cases m <;> decide))
  | some m' =>
    have h' := List.find?_some hf
    rw [Region.holds_unique h' h]

/-- An address decodes to elements that exist only. -/
theorem locate_elem {a : Addr} {m : Region} {k f : Nat} (h : locate a = .elem m k f) :
    k < m.capacity ∧ f < m.strideWords := by
  unfold locate locateWord at h
  split at h
  · split at h <;> cases h
  · split at h
    · next m' hm =>
      have hold := List.find?_some hm
      cases h
      exact ⟨Region.index_lt_of_holds hold, Nat.mod_lt _ (by cases m <;> decide)⟩
    · cases h

/-- What an aborted command could write fits its memories (rule R428). -/
theorem abortSet_fits (c : Word) : ∀ e ∈ abortSet c, e.2 ≤ e.1.capacity := by
  unfold abortSet
  split
  · next i _ =>
    have := Config.maxB_ge
    cases i <;> simp [Instr.writeSet, Region.capacity]
    exact this
  · simp

/-! ### Scrambling -/

/-- The fields of the model's own that no reset and no write touches, and the agenda. -/
structure RunSame (s t : State) : Prop where
  agenda : t.agenda = s.agenda
  readLog : t.readLog = s.readLog
  powerOnDraw : t.powerOnDraw = s.powerOnDraw

theorem RunSame.refl (s : State) : RunSame s s := ⟨rfl, rfl, rfl⟩

theorem RunSame.trans {s t u : State} (h : RunSame s t) (k : RunSame t u) : RunSame s u :=
  ⟨k.1.trans h.1, k.2.trans h.2, k.3.trans h.3⟩

theorem State.scramble_runSame (s : State) (n : Nat) (m : Region) (count : Nat) : RunSame s (s.scramble n m count) := by
  cases m <;> exact ⟨rfl, rfl, rfl⟩

@[simp] theorem State.scramble_draws (s : State) (n : Nat) (m : Region) (count : Nat) :
    (s.scramble n m count).draws = s.draws := by cases m <;> rfl

theorem State.scrambleAll_runSame (s : State) (n : Nat) (l : List (Region × Nat)) : RunSame s (s.scrambleAll n l) := by
  induction l generalizing s with
  | nil => exact RunSame.refl s
  | cons e l ih => exact (s.scramble_runSame n e.1 e.2).trans (ih _)

@[simp] theorem State.scrambleAll_draws (s : State) (n : Nat) (l : List (Region × Nat)) :
    (s.scrambleAll n l).draws = s.draws := by
  induction l generalizing s with
  | nil => rfl
  | cons e l ih => exact (ih _).trans (s.scramble_draws n e.1 e.2)

/-- What an element reads after a scramble: its draw inside the scrambled range, what it read before outside. -/
theorem State.readElem_scramble (s : State) (n : Nat) (m : Region) (count : Nat) (m' : Region) (k f : Nat) :
    (s.scramble n m count).readElem m' k f =
      if m' = m ∧ k < count then Safety.drawnElem n m' k f else s.readElem m' k f := by
  by_cases h : m' = m
  · subst h
    by_cases hk : k < count
    · cases m' <;> simp only [State.scramble, State.readElem, Safety.drawnElem, true_and, if_pos hk]
      · rw [State.codeAt_writeCode_of_lt _ _ _ (by simpa using hk)]; simp
      · rw [State.sigAt_writeSig_of_lt _ _ _ (by simpa using hk)]; simp
      · rw [State.pkAt_writePk_of_lt _ _ _ (by simpa using hk)]; simp
      · rw [State.bytesAt_writeBytes_of_lt _ _ _ (by simpa using hk)]; simp
      · rw [State.eposAt_writeEpos_of_lt _ _ _ (by simpa using hk)]; simp
      · rw [State.nconfAt_writeNconf_of_lt _ _ _ (by simpa using hk)]; simp
      · rw [State.toneAt_writeTones_of_lt _ _ _ (by simpa using hk)]; simp
      · rw [State.pcmAt_writePcm_of_lt _ _ _ (by simpa using hk)]; simp
    · have hk' : ∀ l, l = count → 0 + l ≤ k := by omega
      cases m' <;> simp only [State.scramble, State.readElem, true_and, if_neg hk]
      · rw [State.codeAt_writeCode_of_outside _ _ _ _ (.inr (hk' _ (by simp)))]
      · rw [State.sigAt_writeSig_of_outside _ _ _ _ (.inr (hk' _ (by simp)))]
      · rw [State.pkAt_writePk_of_outside _ _ _ _ (.inr (hk' _ (by simp)))]
      · rw [State.bytesAt_writeBytes_of_outside _ _ _ _ (.inr (hk' _ (by simp)))]
      · rw [State.eposAt_writeEpos_of_outside _ _ _ _ (.inr (hk' _ (by simp)))]
      · rw [State.nconfAt_writeNconf_of_outside _ _ _ _ (.inr (hk' _ (by simp)))]
      · rw [State.toneAt_writeTones_of_outside _ _ _ _ (.inr (hk' _ (by simp)))]
      · rw [State.pcmAt_writePcm_of_outside _ _ _ _ (.inr (hk' _ (by simp)))]
  · rw [if_neg (by simp [h])]
    cases m <;> cases m' <;> first | rfl | exact absurd rfl h

/-- What an element reads after every range of a list has been scrambled. -/
theorem State.readElem_scrambleAll (s : State) (n : Nat) (l : List (Region × Nat)) (m : Region) (k f : Nat) :
    (s.scrambleAll n l).readElem m k f =
      if ∃ e ∈ l, e.1 = m ∧ k < e.2 then Safety.drawnElem n m k f else s.readElem m k f := by
  induction l generalizing s with
  | nil => simp [State.scrambleAll]
  | cons e l ih =>
    obtain ⟨r, count⟩ := e
    rw [State.scrambleAll, ih, State.readElem_scramble]
    by_cases h : ∃ e ∈ l, e.1 = m ∧ k < e.2
    · rw [if_pos h, if_pos]
      obtain ⟨e, he, h⟩ := h
      exact ⟨e, List.mem_cons_of_mem _ he, h⟩
    · rw [if_neg h]
      by_cases h' : m = r ∧ k < count
      · rw [if_pos h', if_pos]
        exact ⟨_, List.mem_cons_self, h'.1.symm, h'.2⟩
      · rw [if_neg h', if_neg]
        rintro ⟨e, he, h1, h2⟩
        rcases List.mem_cons.mp he with rfl | he
        · exact h' ⟨h1.symm, h2⟩
        · exact h ⟨e, he, h1, h2⟩

/-! ### Resets -/

theorem State.abort_runSame (s : State) : RunSame s s.abort := by
  unfold State.abort
  split
  · exact RunSame.refl s
  · exact ⟨(s.scrambleAll_runSame _ _).1, (s.scrambleAll_runSame _ _).2, (s.scrambleAll_runSame _ _).3⟩

theorem State.abort_draws_ge (s : State) : s.draws ≤ s.abort.draws := by
  unfold State.abort
  split <;> simp

theorem State.abort_of_idle {s : State} (h : s.phase = .idle) : s.abort = s := by simp [State.abort, h]

/-- What an element reads after a soft reset that aborts the command word `c`: a draw inside the abort set (rule R428). -/
theorem State.readElem_softReset_of_busy {s : State} {c : Word} (h : s.phase = .busy c) (m : Region) (k f : Nat) :
    s.softReset.readElem m k f =
      if ∃ e ∈ abortSet c, e.1 = m ∧ k < e.2 then Safety.drawnElem s.draws m k f else s.readElem m k f := by
  rw [State.softReset, State.readElem_resetRegisters, ← State.readElem_scrambleAll]
  exact State.readElem_congr (by simp [State.abort, h]) (by simp [State.abort, h]) (by simp [State.abort, h])
    (by simp [State.abort, h]) (by simp [State.abort, h]) (by simp [State.abort, h]) (by simp [State.abort, h])
    (by simp [State.abort, h]) (by simp [State.abort, h]) m k f

theorem State.softReset_runSame (s : State) : RunSame s s.softReset :=
  s.abort_runSame.trans ⟨rfl, rfl, rfl⟩

theorem State.readReg_resetRegisters (s : State) (r : Reg) : s.resetRegisters.readReg r = State.reset.readReg r := by
  cases r <;> rfl

theorem State.readReg_powerOnReset (s : State) (r : Reg) : s.powerOnReset.readReg r = State.reset.readReg r := by
  cases r <;> rfl

/-! ### Writes -/

/-- Where a write to a word goes (rules R105, R425): dropped, to its register, to its element, or nowhere. -/
theorem State.memWrite_cases (s : State) (a : Addr) (v : Word) :
    (s.busyFlag = true ∧ writableWhileBusy (locate a) = false ∧ s.memWrite a v = { s with ovr := true }) ∨
    ((s.busyFlag = false ∨ writableWhileBusy (locate a) = true) ∧
      ((∃ r, locate a = .reg r ∧ s.memWrite a v = s.writeReg r v) ∨
       (∃ m k f, locate a = .elem m k f ∧ s.memWrite a v = s.writeElem m k v) ∨
       (locate a = .unmapped ∧ s.memWrite a v = s))) := by
  by_cases h : (s.busyFlag && !writableWhileBusy (locate a)) = true
  · refine .inl ⟨by simp_all, by simp_all, ?_⟩
    rw [State.memWrite, if_pos h]
  · refine .inr ⟨?_, ?_⟩
    · cases hb : s.busyFlag
      · exact .inl rfl
      · cases hw : writableWhileBusy (locate a)
        · simp [hb, hw] at h
        · exact .inr rfl
    · rw [State.memWrite, if_neg h]
      cases locate a with
      | reg r => exact .inl ⟨r, rfl, rfl⟩
      | elem m k f => exact .inr (.inl ⟨m, k, f, rfl, rfl⟩)
      | unmapped => exact .inr (.inr ⟨rfl, rfl⟩)

theorem State.writeReg_runSame (s : State) (r : Reg) (v : Word) : RunSame s (s.writeReg r v) := by
  cases r <;> first | exact ⟨rfl, rfl, rfl⟩ | skip
  · simp only [State.writeReg, State.writeCtrl]
    split
    · exact s.softReset_runSame
    · exact ⟨rfl, rfl, rfl⟩
  · simp only [State.writeReg, State.issue]
    split <;> exact ⟨rfl, rfl, rfl⟩

theorem State.writeElem_runSame (s : State) (m : Region) (k : Nat) (v : Word) : RunSame s (s.writeElem m k v) := by
  cases m <;> exact ⟨rfl, rfl, rfl⟩

theorem State.memWrite_runSame (s : State) (a : Addr) (v : Word) : RunSame s (s.memWrite a v) := by
  rcases s.memWrite_cases a v with ⟨-, -, h⟩ | ⟨-, ⟨r, -, h⟩ | ⟨m, k, f, -, h⟩ | ⟨-, h⟩⟩ <;> rw [h]
  · exact ⟨rfl, rfl, rfl⟩
  · exact s.writeReg_runSame r v
  · exact s.writeElem_runSame m k v
  · exact RunSame.refl s

/-! ### The host's turn -/

/-- A turn of the host uses up the first turn of the agenda. -/
theorem State.hostTurn_agenda {s : State} {turn : Turn} {rest : List Turn} (h : s.agenda = turn :: rest) :
    s.hostTurn.agenda = rest := by
  unfold State.hostTurn
  rw [h]
  cases turn with
  | hostRead a => rfl
  | hostWrite a v => exact (State.memWrite_runSame _ a v).1
  | sequencer => rfl
  | powerOn => rfl

end Sys2Proof.Machine
end

