-- ==== Sys2Proof/Laws/Exec.lean ====
section
/-!
SUPPORT. What a command can do, said once: `exec` always ends in a completion, either of the state with the command's
writes in it, which leaves the sequencer's and the model's own fields alone, or of the untouched state with an error.
-/

namespace Sys2Proof.Machine

/-- The fields no command writes before its completion. -/
structure ControlSame (s u : State) : Prop where
  irqEn : u.irqEn = s.irqEn
  ovr : u.ovr = s.ovr
  lastCmd : u.lastCmd = s.lastCmd
  rxLen : u.rxLen = s.rxLen
  agenda : u.agenda = s.agenda
  readLog : u.readLog = s.readLog
  draws : u.draws = s.draws
  powerOnDraw : u.powerOnDraw = s.powerOnDraw

theorem ControlSame.refl (s : State) : ControlSame s s := ⟨rfl, rfl, rfl, rfl, rfl, rfl, rfl, rfl⟩

theorem execCrc_eq (s : State) : execCrc s = .next ((s.withCrc (crc16 s.codeBody)).finish .none) := rfl

theorem execVerify_eq (s : State) :
    execVerify s = .next (((s.withCrc s.check.1).withCrcOk s.check.2).finish .none) := rfl

theorem execPack_eq (s : State) :
    execPack s = .next (s.packed.finish .none) := rfl

theorem execUnpackL_eq (s : State) : execUnpackL s = .next ((s.unpackWith s.check.1 s.check.2).finish .none) := rfl

theorem execUnpackS_of_match {s : State} (h : s.check.2 = true) :
    execUnpackS s = .next ((s.unpackWith s.check.1 true).finish .none) := by simp [execUnpackS, h]

theorem execUnpackS_of_mismatch {s : State} (h : s.check.2 = false) :
    execUnpackS s = .next (s.finish .checksumMismatch) := by simp [execUnpackS, h]

theorem execPackf_of_ok {s : State} (h : s.lengthsOk = true) :
    execPackf s = .next (s.joinFrame.finish .none) := by
  simp [execPackf, h]

theorem execPackf_of_bad {s : State} (h : s.lengthsOk = false) :
    execPackf s = .next (s.finish .lengthMismatch) := by simp [execPackf, h]

theorem execUnpackf_of_ok {s : State} (h : s.bLen = 120) : execUnpackf s = .next (s.splitFrame.finish .none) := by
  simp [execUnpackf, h]

theorem execUnpackf_of_bad {s : State} (h : s.bLen ≠ 120) : execUnpackf s = .next (s.finish .truncatedFrame) := by
  rw [execUnpackf, if_neg h]
  rfl

theorem execTones_of_fits {s : State} (h : s.bLen.toNat ≤ Config.params.maxB) :
    execTones s = .next (s.withTimeline.finish .none) := by simp [execTones, not_lt.mpr h]

theorem execTones_of_long {s : State} (h : Config.params.maxB < s.bLen.toNat) :
    execTones s = .next (s.finish .badLength) := by simp [execTones, h]

theorem execMod_of_fits {s : State} (h : s.bLen.toNat ≤ Config.params.maxB) :
    execMod s = .next (s.withTimeline.withWaveform.finish .none) := by simp [execMod, not_lt.mpr h]

theorem execMod_of_long {s : State} (h : Config.params.maxB < s.bLen.toNat) :
    execMod s = .next (s.finish .badLength) := by simp [execMod, h]

theorem captureTooLong_eq_false {s : State} :
    s.captureTooLong = false ↔ s.rxLen.toNat ≤ Config.params.maxB ∧ s.pcmLen.toNat ≤ Config.params.pcmMax := by
  simp [State.captureTooLong]

theorem execDemod_of_fits {s : State} (h : s.captureTooLong = false) :
    execDemod s = .next ((s.storeResult s.demodResult).finish .none) := by simp [execDemod, h]

theorem execDemod_of_long {s : State} (h : s.captureTooLong = true) :
    execDemod s = .next (s.finish .badLength) := by simp [execDemod, h]

theorem ControlSame.withTimeline (s : State) : ControlSame s s.withTimeline :=
  ⟨rfl, rfl, rfl, rfl, rfl, rfl, rfl, rfl⟩

theorem ControlSame.withWaveform (s : State) : ControlSame s s.withWaveform :=
  ⟨rfl, rfl, rfl, rfl, rfl, rfl, rfl, rfl⟩

theorem ControlSame.trans {s t u : State} (h : ControlSame s t) (k : ControlSame t u) : ControlSame s u :=
  ⟨k.1.trans h.1, k.2.trans h.2, k.3.trans h.3, k.4.trans h.4, k.5.trans h.5, k.6.trans h.6, k.7.trans h.7,
    k.8.trans h.8⟩

theorem ControlSame.storeResult (s : State) (r : DecodeResult) : ControlSame s (s.storeResult r) :=
  ⟨rfl, rfl, rfl, rfl, rfl, rfl, rfl, rfl⟩

theorem ControlSame.splitFrame (s : State) : ControlSame s s.splitFrame :=
  ⟨rfl, rfl, rfl, rfl, rfl, rfl, rfl, rfl⟩

/-- Everything a command can do, control fields apart: it completes with its writes, or it fails with an error of its own
and none of them. -/
theorem exec_cases (i : Instr) (s : State) :
    (∃ u, exec i s = .next (u.finish .none) ∧ ControlSame s u) ∨
      ∃ e, e ≠ .none ∧ e ≠ .illegalCmd ∧ exec i s = .next (s.finish e) := by
  cases i
  case crc => exact .inl ⟨_, execCrc_eq s, ⟨rfl, rfl, rfl, rfl, rfl, rfl, rfl, rfl⟩⟩
  case verify => exact .inl ⟨_, execVerify_eq s, ⟨rfl, rfl, rfl, rfl, rfl, rfl, rfl, rfl⟩⟩
  case pack => exact .inl ⟨_, execPack_eq s, ⟨rfl, rfl, rfl, rfl, rfl, rfl, rfl, rfl⟩⟩
  case unpackL => exact .inl ⟨_, execUnpackL_eq s, ⟨rfl, rfl, rfl, rfl, rfl, rfl, rfl, rfl⟩⟩
  case unpackS =>
    cases h : s.check.2
    · exact .inr ⟨_, by decide, by decide, execUnpackS_of_mismatch h⟩
    · exact .inl ⟨_, execUnpackS_of_match h, ⟨rfl, rfl, rfl, rfl, rfl, rfl, rfl, rfl⟩⟩
  case packf =>
    cases h : s.lengthsOk
    · exact .inr ⟨_, by decide, by decide, execPackf_of_bad h⟩
    · exact .inl ⟨_, execPackf_of_ok h, ⟨rfl, rfl, rfl, rfl, rfl, rfl, rfl, rfl⟩⟩
  case unpackf =>
    by_cases h : s.bLen = 120
    · exact .inl ⟨_, execUnpackf_of_ok h, ControlSame.splitFrame s⟩
    · exact .inr ⟨_, by decide, by decide, execUnpackf_of_bad h⟩
  case tones =>
    rcases Nat.lt_or_ge Config.params.maxB s.bLen.toNat with h | h
    · exact .inr ⟨_, by decide, by decide, execTones_of_long h⟩
    · exact .inl ⟨_, execTones_of_fits h, ControlSame.withTimeline s⟩
  case mod =>
    rcases Nat.lt_or_ge Config.params.maxB s.bLen.toNat with h | h
    · exact .inr ⟨_, by decide, by decide, execMod_of_long h⟩
    · exact .inl ⟨_, execMod_of_fits h, (ControlSame.withTimeline s).trans (ControlSame.withWaveform _)⟩
  case demod =>
    cases h : s.captureTooLong
    · exact .inl ⟨_, execDemod_of_fits h, ControlSame.storeResult s _⟩
    · exact .inr ⟨_, by decide, by decide, execDemod_of_long h⟩

/-- How a command that leaves the control fields alone ends (rule R424). -/
theorem completedWith_finish {s u : State} (h : ControlSame s u) :
    Safety.CompletedWith .none s (u.finish .none) := by
  refine ⟨rfl, rfl, rfl, h.ovr, h.irqEn, h.lastCmd, ?_, h.readLog, h.draws, h.powerOnDraw⟩
  simp [State.agendaAfterTurn, h.agenda]

/-- How a command that raises an error ends (rule R452). -/
theorem failedWith_finish (s : State) (e : ErrCode) : Safety.FailedWith e s (s.finish e) := by
  refine ⟨⟨rfl, rfl, rfl, rfl, rfl, rfl, rfl, rfl, rfl, rfl⟩, rfl, ?_, fun m k f => s.readElem_finish e m k f⟩
  intro r hr
  exact s.readReg_finish e (by simp_all) (by simp_all)

/-- The three kinds of step (rule R420). -/
theorem step_cases (s : State) :
    (s.completing = none ∧ step s = .next s.hostTurn) ∨
    (∃ c i, s.completing = some c ∧ decode c = .ok i ∧ step s = exec i s) ∨
    ∃ c e, s.completing = some c ∧ decode c = .error e ∧ step s = .next (s.finish .illegalCmd) := by
  cases hc : s.completing with
  | none => exact .inl ⟨rfl, by simp [step, hc]⟩
  | some c =>
    cases hd : decode c with
    | ok i => exact .inr (.inl ⟨c, i, rfl, hd, by simp [step, hc, hd]⟩)
    | error e => exact .inr (.inr ⟨c, e, rfl, hd, by simp [step, hc, hd]⟩)

/-- A run starts with its first step. -/
theorem run_succ_of_next {s t : State} (h : step s = .next t) (k : Nat) :
    Sys2Proof.core.run (k + 1) s = Sys2Proof.core.run k t := by
  have h' : Sys2Proof.core.step s = .next t := h
  simp only [Host.Core.run, h']

/-- While it is not the sequencer's turn to complete, the step is the host's turn. -/
theorem step_of_not_completing {s : State} (h : s.completing = none) : step s = .next s.hostTurn := by
  simp [step, h]

/-- When it is the sequencer's turn, the step completes the running command: it answers an IDLE state. -/
theorem step_of_completing {s : State} {c : Word} (h : s.completing = some c) :
    ∃ t, step s = .next t ∧ t.phase = .idle ∧ t.done = true := by
  rcases step_cases s with ⟨h', -⟩ | ⟨c', i, -, -, h'⟩ | ⟨c', e, -, -, h'⟩
  · rw [h'] at h
    cases h
  · rw [h']
    rcases exec_cases i s with ⟨u, h, -⟩ | ⟨e, -, -, h⟩ <;> exact ⟨_, h, rfl, rfl⟩
  · exact ⟨_, h', rfl, rfl⟩

end Sys2Proof.Machine
end

