-- ==== Sys2Proof/Laws/PerInstr.lean ====
section
/-!
SUPPORT. What holds of every command as syntax: its fields pass the checks of WellFormed.lean, its command word splits
back into those fields, and the word uses no bit above S (30_encoding.md rules R140 to R142).
-/

namespace Sys2Proof.Laws.CommandWord

/-- The fields of a command are legal, its word holds exactly them, and bits 31:9 of its word are 0. -/
def Statement (i : Instr) : Prop :=
  i.WellFormed ∧ CommandFields.ofWord (encode i) = i.fields ∧ (encode i).toNat < 2 ^ 9

theorem crc : Statement .crc := by unfold Statement; decide
theorem verify : Statement .verify := by unfold Statement; decide
theorem pack : Statement .pack := by unfold Statement; decide
theorem unpackL : Statement .unpackL := by unfold Statement; decide
theorem unpackS : Statement .unpackS := by unfold Statement; decide
theorem packf : Statement .packf := by unfold Statement; decide
theorem unpackf : Statement .unpackf := by unfold Statement; decide
theorem tones : Statement .tones := by unfold Statement; decide
theorem mod : Statement .mod := by unfold Statement; decide
theorem demod : Statement .demod := by unfold Statement; decide

end Sys2Proof.Laws.CommandWord
end

