-- ==== Sys2Proof/Laws/Reference.lean ====
section
/-!
SUPPORT. Comparisons of internal values within an error of their exact values come out as the exact ones where the exact
values differ by more than twice the error (00_scope.md rule R12); the samples of a source; and the tie of two neighbouring
candidates (44_demodulator.md rule R384).
-/

namespace Sys2Proof.Reference

open Sys2Proof.Machine

/-- A comparison the exact values decide by more than `2 δ` is decided the same by the internal values (rule R12). -/
theorem lt_of_close {δ : ℝ} {a b : ℚ} {r s : ℝ} (ha : Close δ a r) (hb : Close δ b s) (h : r + 2 * δ < s) : a < b := by
  have h1 := (abs_le.mp ha).2
  have h2 := (abs_le.mp hb).1
  have h3 : (a : ℝ) < b := by linarith
  exact_mod_cast h3

/-! ### The samples of a source -/

@[simp] theorem Source.words_capture (p : Params) (num : Numerics) (ws : List Word) :
    (Source.capture ws).words p num = ws := rfl

@[simp] theorem Source.words_transmission (p : Params) (num : Numerics) (z : ℕ) (bs : List Byte) :
    (Source.transmission z bs).words p num = List.replicate z 0 ++ render p num bs := rfl

/-- The working copy has the length of the capture (rule R358). -/
@[simp] theorem length_blockCopy (p : Params) (num : Numerics) (src : Source) :
    (blockCopy p num src).length = (src.words p num).length := by
  unfold blockCopy Machine.normalised
  split <;> simp

/-- Before a transmission the samples are 0. -/
theorem exact_transmission_of_lt (p : Params) {z n : ℕ} (bs : List Byte) (h : n < z) :
    ((Source.transmission z bs).exact p)[n]? = some 0 := by
  rw [Source.exact, List.getElem?_append_left (by simpa using h), List.getElem?_replicate_of_lt h]

/-- The samples of a transmission are those of its waveform (rule R312). -/
theorem exact_transmission_add (p : Params) (z : ℕ) {n : ℕ} (bs : List Byte) (h : n < p.lMod bs.length) :
    ((Source.transmission z bs).exact p)[z + n]? = some (signal p bs n) := by
  rw [Source.exact, List.getElem?_append_right (by simp)]
  simp [h]

/-- Normalisation keeps a zero (rule R358). -/
theorem exactCopy_of_zero (p : Params) (src : Source) {n : ℕ} (h : (src.exact p)[n]? = some 0) :
    (exactCopy p src)[n]? = some 0 := by
  unfold exactCopy normalised
  split
  · rw [List.getElem?_map, h]
    simp
  · exact h

/-! ### The edges of a tone -/

/-- The last sample of a tone is 0 (rule R311). -/
theorem toneSample_last (p : Params) (t : Tone) (h : 1 ≤ t.dur) : toneSample p t (t.start + t.dur - 1) = 0 := by
  have hk : t.start + t.dur - 1 - t.start = t.dur - 1 := by omega
  have he : env p (t.dur - 1) t.dur ≤ 0 ∧ 0 ≤ env p (t.dur - 1) t.dur := by
    have h0 : ((t.dur : ℝ) - 1 - (t.dur - 1 : ℕ)) / p.fadeN = 0 := by
      rw [Nat.cast_sub h]; simp
    unfold env
    rw [h0]
    exact ⟨(min_le_right _ _).trans (min_le_right _ _), le_min zero_le_one (le_min (by positivity) le_rfl)⟩
  unfold toneSample
  rw [hk, le_antisymm he.1 he.2]
  simp

theorem fourierSum_succ (w : ℝ) (n : ℕ) (ys : List ℝ) :
    fourierSum w (n + 1) ys = Complex.exp (-Complex.I * w) * fourierSum w n ys := by
  induction ys generalizing n with
  | nil => simp [fourierSum]
  | cons y ys ih =>
    simp only [fourierSum, ih]
    have : Complex.exp (-Complex.I * w * ((n + 1 : ℕ) : ℂ)) = Complex.exp (-Complex.I * w) * Complex.exp (-Complex.I * w * n) := by
      rw [← Complex.exp_add]; congr 1; push_cast; ring
    rw [this]; ring

theorem fourierSum_append_zero (w : ℝ) (n : ℕ) (ys : List ℝ) : fourierSum w n (ys ++ [0]) = fourierSum w n ys := by
  induction ys generalizing n with
  | nil => simp [fourierSum]
  | cons y ys ih => simp [fourierSum, ih]

/-- A zero sample before a sequence gives the same energy as one after it. -/
theorem energy_zero_cons (p : Params) (ys : List ℝ) (f : ℕ) : energy p (0 :: ys) f = energy p (ys ++ [0]) f := by
  unfold energy
  rw [fourierSum_append_zero]
  simp only [fourierSum, fourierSum_succ _ 0]
  simp [Complex.norm_exp]

theorem energy_window_shift (p : Params) (xs : List ℝ) (q m f : ℕ) (hm : 1 ≤ m) (h0 : xs[q]? = some 0)
    (h1 : xs[q + m]? = some 0) : energy p (window xs q m) f = energy p (window xs (q + 1) m) f := by
  obtain ⟨m, rfl⟩ : ∃ n, m = n + 1 := ⟨m - 1, by omega⟩
  have a : window xs q (m + 1) = 0 :: window xs (q + 1) m := by
    unfold window
    rw [List.drop_eq_getElem_cons (List.getElem?_eq_some_iff.mp h0).1, List.take_succ_cons, (List.getElem?_eq_some_iff.mp h0).2]
  have b : window xs (q + 1) (m + 1) = window xs (q + 1) m ++ [0] := by
    unfold window
    rw [List.take_add_one, List.getElem?_drop, show q + 1 + m = q + (m + 1) by omega, h1]
    rfl
  rw [a, b, energy_zero_cons]

/-- Rule R384: where the sample before every preamble window and the last sample of the preamble are 0, the candidate one
sample earlier has the same score. -/
theorem score_tie (p : Params) (xs : List ℝ) (q : ℕ) (hp : 1 ≤ p.preN)
    (h : ∀ j, j ≤ 2 * p.preCycles → xs[q + j * p.preN]? = some 0) : score p xs q = score p xs (q + 1) := by
  unfold score
  congr 1
  apply List.map_congr_left
  intro c hc
  rw [List.mem_range] at hc
  have e0 := h (2 * c) (by omega)
  have e1 : xs[q + 2 * c * p.preN + p.preN]? = some 0 := by
    rw [show q + 2 * c * p.preN + p.preN = q + (2 * c + 1) * p.preN by ring]; exact h _ (by omega)
  have e2 : xs[q + 2 * c * p.preN + p.preN + p.preN]? = some 0 := by
    rw [show q + 2 * c * p.preN + p.preN + p.preN = q + (2 * c + 2) * p.preN by ring]; exact h _ (by omega)
  have s1 : q + 1 + 2 * c * p.preN = q + 2 * c * p.preN + 1 := by ring
  simp only [s1, energy_window_shift p xs _ _ _ hp e0 e1, energy_window_shift p xs _ _ _ hp e1 e2,
    show q + 2 * c * p.preN + 1 + p.preN = q + 2 * c * p.preN + p.preN + 1 by ring]
end Sys2Proof.Reference
end

