-- ==== Sys2Proof/Laws/Units.lean ====
section
/-!
SUPPORT. The sizes of what the units read and write, and the small lemmas of their functions: the byte sequences of
Operands.lean, PACK's code, the timeline and its rendering, the DecodeResult, and the first maximum of a list.
-/

namespace Sys2Proof.Machine

/-! ### Byte sequences -/

@[simp] theorem State.codeRange_length (s : State) (a n : Nat) : (s.codeRange a n).length = n := by
  simp [State.codeRange]

@[simp] theorem State.sigRange_length (s : State) (a n : Nat) : (s.sigRange a n).length = n := by
  simp [State.sigRange]

@[simp] theorem State.pkRange_length (s : State) (a n : Nat) : (s.pkRange a n).length = n := by
  simp [State.pkRange]

@[simp] theorem State.bytesRange_length (s : State) (a n : Nat) : (s.bytesRange a n).length = n := by
  simp [State.bytesRange]

@[simp] theorem State.pcmRange_length (s : State) (n : Nat) : (s.pcmRange n).length = n := by
  simp [State.pcmRange]

@[simp] theorem State.packBody_length (s : State) : s.packBody.length = 17 := rfl

@[simp] theorem State.packCode_length (s : State) : s.packCode.length = 24 := rfl

@[simp] theorem State.wireFrame_length (s : State) : s.wireFrame.length = 120 := by
  simp [State.wireFrame]

@[simp] theorem State.payload_length (s : State) : s.payload.length = s.bLen.toNat := by
  simp [State.payload]

/-! ### The elements after a unit's update -/

section

variable (s : State) (k : Nat)

/-- CODE after PACK (rule R236). -/
theorem State.codeAt_packed : s.packed.codeAt k = s.packCode[k]?.getD (s.codeAt k) :=
  Memory.getD_writeRange_zero s.code s.packCode k (drawByte s.powerOnDraw .code k)

/-- BYTES after PACKF (rule R262). -/
theorem State.bytesAt_joinFrame : s.joinFrame.bytesAt k = s.wireFrame[k]?.getD (s.bytesAt k) :=
  Memory.getD_writeRange_zero s.bytes s.wireFrame k (drawByte s.powerOnDraw .bytes k)

/-- CODE after UNPACKF (rule R263). -/
theorem State.codeAt_splitFrame : s.splitFrame.codeAt k = (s.bytesRange 0 24)[k]?.getD (s.codeAt k) :=
  Memory.getD_writeRange_zero s.code (s.bytesRange 0 24) k (drawByte s.powerOnDraw .code k)

/-- SIG after UNPACKF (rule R263). -/
theorem State.sigAt_splitFrame : s.splitFrame.sigAt k = (s.bytesRange 24 64)[k]?.getD (s.sigAt k) :=
  Memory.getD_writeRange_zero s.sig (s.bytesRange 24 64) k (drawByte s.powerOnDraw .sig k)

/-- PK after UNPACKF (rule R263). -/
theorem State.pkAt_splitFrame : s.splitFrame.pkAt k = (s.bytesRange 88 32)[k]?.getD (s.pkAt k) :=
  Memory.getD_writeRange_zero s.pk (s.bytesRange 88 32) k (drawByte s.powerOnDraw .pk k)

/-- TONES after TONES (rule R308). -/
theorem State.toneAt_withTimeline :
    s.withTimeline.toneAt k = ((timeline Config.params s.payload).map Tone.entry)[k]?.getD (s.toneAt k) :=
  Memory.getD_writeRange_zero s.tones ((timeline Config.params s.payload).map Tone.entry) k
    (drawTone s.powerOnDraw k)

/-- PCM after MOD (rule R315). -/
theorem State.pcmAt_withWaveform :
    s.withWaveform.pcmAt k = (render Config.params Config.numerics s.payload)[k]?.getD (s.pcmAt k) :=
  Memory.getD_writeRange_zero s.pcm (render Config.params Config.numerics s.payload) k
    (drawWord s.powerOnDraw .pcm k)

/-- BYTES after DEMOD (rule R379). -/
theorem State.bytesAt_storeResult (r : DecodeResult) :
    (s.storeResult r).bytesAt k = (r.decoded.map DecodedByte.value)[k]?.getD (s.bytesAt k) :=
  Memory.getD_writeRange_zero s.bytes (r.decoded.map DecodedByte.value) k (drawByte s.powerOnDraw .bytes k)

/-- NCONF after DEMOD (rule R379). -/
theorem State.nconfAt_storeResult (r : DecodeResult) :
    (s.storeResult r).nconfAt k = (r.confidences.map round32)[k]?.getD (s.nconfAt k) :=
  Memory.getD_writeRange_zero s.nconf (r.confidences.map round32) k
    (drawWord s.powerOnDraw .nconf k)

/-- EPOS after DEMOD (rule R379). -/
theorem State.eposAt_storeResult (r : DecodeResult) :
    (s.storeResult r).eposAt k = (r.errorPositions.map (BitVec.ofNat 32))[k]?.getD (s.eposAt k) :=
  Memory.getD_writeRange_zero s.epos (r.errorPositions.map (BitVec.ofNat 32)) k (drawWord s.powerOnDraw .epos k)

end

/-- CODE[0..16] and the stored checksum, element by element (rule R203). -/
theorem State.codeBody_eq (s : State) : s.codeBody = (List.range 17).map s.codeAt := by
  simp [State.codeBody, State.codeRange]

/-! ### The timeline and its rendering -/

@[simp] theorem preambleTones_length (p : Params) : (preambleTones p).length = 2 * p.preCycles := by
  simp [preambleTones, Nat.mul_comm]

@[simp] theorem dataTones_length (p : Params) (j : Nat) (bs : List Byte) :
    (dataTones p j bs).length = 2 * bs.length := by
  induction bs generalizing j with
  | nil => rfl
  | cons b bs ih =>
    simp only [dataTones, List.length_append, ih, byteTones, List.length_cons, List.length_nil]
    omega

@[simp] theorem timeline_length (p : Params) (bs : List Byte) : (timeline p bs).length = p.nTones bs.length := by
  simp [timeline, Params.nTones]
  omega

@[simp] theorem render_length (p : Params) (num : Numerics) (bs : List Byte) :
    (render p num bs).length = p.lMod bs.length := by
  simp [render]

/-! ### The first maximum of a list -/

/-- Where the first maximum of a list is: it splits the list, everything before it is less, everything after it at most
equal. -/
theorem firstMax_eq_some {α : Type} [LinearOrder α] {f : Nat → α} {ks : List Nat} {m : Nat} (h : firstMax f ks = some m) :
    ∃ before after, ks = before ++ m :: after ∧ (∀ k ∈ before, f k < f m) ∧ ∀ k ∈ after, f k ≤ f m := by
  induction ks generalizing m with
  | nil => cases h
  | cons k ks ih =>
    unfold firstMax at h
    cases hr : firstMax f ks with
    | none =>
      rw [hr] at h
      cases h
      cases ks with
      | nil => exact ⟨[], [], rfl, by simp, by simp⟩
      | cons k' ks' =>
        unfold firstMax at hr
        split at hr
        · cases hr
        · split at hr <;> cases hr
    | some m' =>
      rw [hr] at h
      obtain ⟨before, after, rfl, hb, ha⟩ := ih hr
      simp only at h
      split at h
      · next hlt =>
        cases h
        refine ⟨k :: before, after, rfl, ?_, ha⟩
        intro x hx
        rcases List.mem_cons.mp hx with rfl | hx
        · exact hlt
        · exact hb x hx
      · next hle =>
        cases h
        have hle := not_lt.mp hle
        refine ⟨[], before ++ m' :: after, rfl, by simp, ?_⟩
        intro x hx
        rcases List.mem_append.mp hx with hx | hx
        · exact (hb x hx).le.trans hle
        · rcases List.mem_cons.mp hx with rfl | hx
          · exact hle
          · exact (ha x hx).trans hle

/-- A list that is not empty has a first maximum. -/
theorem firstMax_isSome {α : Type} [LT α] [DecidableLT α] (f : Nat → α) {ks : List Nat} (h : ks ≠ []) : ∃ m, firstMax f ks = some m := by
  cases ks with
  | nil => exact absurd rfl h
  | cons k ks =>
    unfold firstMax
    split
    · exact ⟨_, rfl⟩
    · split <;> exact ⟨_, rfl⟩

/-! ### The DecodeResult -/

@[simp] theorem noSignalResult_length (n : Nat) : (noSignalResult n).decoded.length = n := by
  simp [noSignalResult]

@[simp] theorem decodeFrom_length (p : Params) (num : Numerics) (xs : List Rat) (onset n : Nat) :
    (decodeFrom p num xs onset n).decoded.length = n := by
  simp [decodeFrom]

/-- A demodulation decodes as many bytes as are expected. -/
@[simp] theorem demodulate_length (p : Params) (num : Numerics) (ws : List Word) (n : Nat) :
    (demodulate p num ws n).decoded.length = n := by
  simp only [demodulate]
  split <;> simp

@[simp] theorem DecodeResult.confidences_length (r : DecodeResult) :
    r.confidences.length = 2 * r.decoded.length := by
  simp [DecodeResult.confidences, Nat.mul_comm]

theorem DecodeResult.errorPositions_length_le (r : DecodeResult) : r.errorPositions.length ≤ r.decoded.length := by
  have := List.length_filter_le (fun j => (r.decoded.map DecodedByte.flagged)[j]?.getD false)
    (List.range r.decoded.length)
  simpa [DecodeResult.errorPositions] using this

/-- The error positions are strictly increasing byte indices. -/
theorem DecodeResult.errorPositions_rising (r : DecodeResult) : r.errorPositions.Pairwise (· < ·) :=
  List.Pairwise.filter _ List.pairwise_lt_range

theorem DecodeResult.mem_errorPositions {r : DecodeResult} {j : Nat} :
    j ∈ r.errorPositions ↔ ∃ h : j < r.decoded.length, r.decoded[j].flagged = true := by
  simp only [DecodeResult.errorPositions, List.mem_filter, List.mem_range, List.getElem?_map]
  constructor
  · rintro ⟨h, hf⟩
    exact ⟨h, by simpa [List.getElem?_eq_getElem h] using hf⟩
  · rintro ⟨h, hf⟩
    exact ⟨h, by simpa [List.getElem?_eq_getElem h] using hf⟩

/-- A completed demodulation has a synchronisation outcome. -/
theorem demodulate_sync_ne_none (p : Params) (num : Numerics) (ws : List Word) (n : Nat) :
    (demodulate p num ws n).sync ≠ .none := by
  simp only [demodulate]
  split
  · simp [noSignalResult]
  · simp only [decodeFrom, synchronise]
    split
    · simp
    · split <;> simp

/-! ### NUMERICS on zeros -/

@[simp] theorem allZero_nil : allZero [] = true := rfl

theorem allZero_iff {xs : List Rat} : allZero xs = true ↔ ∀ x ∈ xs, x = 0 := by
  simp [allZero]

theorem allZero_of_sublist {xs ys : List Rat} (h : ys.Sublist xs) (hx : allZero xs = true) : allZero ys = true :=
  allZero_iff.mpr fun y hy => allZero_iff.mp hx y (h.subset hy)

theorem meanOf_of_allZero (num : Numerics) {cs : List Rat} (h : allZero cs = true) : meanOf num cs = 0 := by
  simp [meanOf, h]

@[simp] theorem round32_zero : round32 0 = 0 := by decide +kernel

/-- The DecodeResult with every byte undecoded has only zero confidences. -/
theorem confidences_of_undecoded {r : DecodeResult} (h : ∀ d ∈ r.decoded, d = undecoded) :
    allZero r.confidences = true := by
  rw [allZero_iff]
  intro x hx
  simp only [DecodeResult.confidences, List.mem_flatMap] at hx
  obtain ⟨d, hd, hx⟩ := hx
  rw [h d hd] at hx
  simp [undecoded] at hx
  exact hx

end Sys2Proof.Machine
end

