-- ==== Sys2Proof/Tests/Slice0.lean ====
section
/-!
SUPPORT. Small tests on fixed values, each expected value from spec/95_test_vectors.md or worked out by hand from the rule
it names; the smoke test of WellFormed.lean; and a concrete state that meets the hypotheses of each statement that has
some.
-/

namespace Sys2Proof.Tests

open Sys2Proof.Machine Sys2Proof.Safety

/-! ### Two small configurations -/

/-- Preamble of two samples a tone, data tones of three. -/
def tiny : Params where
  fs := 10000
  toneN := 3
  gapN := 1
  preN := 2
  preCycles := 1
  postN := 4
  fLo := 500
  fHi := 4500
  fadeN := 1
  amp := 1
  settleN := 1
  noiseN := 2
  onsetWinN := 2
  onsetStrideN := 1
  absFloor := 1
  silentPeak := 0
  preBackoffN := 1
  searchSpanN := 2
  searchStepN := 1
  maxB := 120
  pcmMax := 2000

/-- A preamble of four samples and slots of four analysed samples. -/
def small : Params where
  fs := 48000
  toneN := 4
  gapN := 0
  preN := 2
  preCycles := 1
  postN := 5
  fLo := 500
  fHi := 4500
  fadeN := 1
  amp := 1
  settleN := 0
  noiseN := 1
  onsetWinN := 1
  onsetStrideN := 1
  absFloor := 1 / 2
  silentPeak := 1 / 2
  preBackoffN := 0
  searchSpanN := 0
  searchStepN := 1
  maxB := 120
  pcmMax := 2000

/-- Both are legal (rule R9). -/
def legalParams : List { p : Params // p.Valid } := [⟨tiny, by decide +kernel⟩, ⟨small, by decide +kernel⟩]

theorem tiny_valid : tiny.Valid := (legalParams[0]).2

theorem small_valid : small.Valid := (legalParams[1]).2

/-! ### The checks of a command word -/

theorem test_wf_refuses_reserved_bits :
    CommandFields.reservedOk ⟨1, false, 1⟩ = false ∧ CommandFields.legal ⟨1, false, 1⟩ = false ∧
    CommandFields.reservedOk ⟨1, false, 1 <<< 22⟩ = false := by decide

theorem test_wf_refuses_reserved_operations :
    CommandFields.opOk ⟨0x00, false, 0⟩ = false ∧ CommandFields.opOk ⟨0x0A, false, 0⟩ = false ∧
    CommandFields.opOk ⟨0xFF, false, 0⟩ = false ∧ CommandFields.legal ⟨0x0A, false, 0⟩ = false := by decide

theorem test_wf_refuses_strict_elsewhere :
    CommandFields.strictOk ⟨1, true, 0⟩ = false ∧ CommandFields.strictOk ⟨9, true, 0⟩ = false ∧
    CommandFields.legal ⟨5, true, 0⟩ = false := by decide

/-! ### Decoding: each word written bit by bit from the tables of rules R140 and R141 -/

theorem test_decode_crc : decode 0b0000000_00000000_0000000_0_00000001#32 = .ok .crc := by decide
theorem test_decode_verify : decode 0b0000000_00000000_0000000_0_00000010#32 = .ok .verify := by decide
theorem test_decode_pack : decode 0b0000000_00000000_0000000_0_00000011#32 = .ok .pack := by decide
theorem test_decode_unpackL : decode 0b0000000_00000000_0000000_0_00000100#32 = .ok .unpackL := by decide
theorem test_decode_unpackS : decode 0b0000000_00000000_0000000_1_00000100#32 = .ok .unpackS := by decide
theorem test_decode_packf : decode 0b0000000_00000000_0000000_0_00000101#32 = .ok .packf := by decide
theorem test_decode_unpackf : decode 0b0000000_00000000_0000000_0_00000110#32 = .ok .unpackf := by decide
theorem test_decode_tones : decode 0b0000000_00000000_0000000_0_00000111#32 = .ok .tones := by decide
theorem test_decode_mod : decode 0b0000000_00000000_0000000_0_00001000#32 = .ok .mod := by decide
theorem test_decode_demod : decode 0b0000000_00000000_0000000_0_00001001#32 = .ok .demod := by decide

/-- V-CTL-1: the illegal words, by the check each fails. -/
theorem test_decode_refuses :
    decode 0x00000000#32 = .error .reservedOp ∧ decode 0x0000000A#32 = .error .reservedOp ∧
    decode 0x000000FF#32 = .error .reservedOp ∧ decode 0x00000101#32 = .error .strictNotAllowed ∧
    decode 0x00000209#32 = .error .reservedBits ∧ decode 0x80000001#32 = .error .reservedBits := by decide

theorem test_table_word : decodeTableWord 32 0x104 = some .unpackS ∧ decodeTableWord 32 0x109 = none := by decide

/-! ### Small states -/

/-- The state after a step, or the state itself where the machine does not go on. -/
def after (o : Host.Outcome State Fault Refusal) : State :=
  match o with
  | .next t => t
  | .fault _ => State.reset
  | .refused _ => State.reset

/-- The reset state with bytes in CODE. -/
def withCode (bs : List Byte) : State := State.reset.writeCode 0 bs

/-- The reset state with the command word `c` running and some turns to come. -/
def running (c : Word) (turns : List Turn) : State :=
  { State.reset with phase := .busy c, lastCmd := c, agenda := turns }

/-- The code of V-PACK-1. -/
def vpack1 : List Byte :=
  [0x03, 0x07, 0x12, 0xed, 0xca, 0x09, 0x6c, 0x5b, 0xb0, 0x54, 0x52, 0x41, 0x50, 0x50, 0x45, 0x44, 0x00, 0x1a, 0xd9,
   0x00, 0x00, 0x00, 0x00, 0x00]

/-- The fields of V-PACK-1. -/
def vpack1Fields : State :=
  { State.reset with
    fType := 0x03, fSev := 7, fLat := 0x0005322A, fLon := 0xFFEDF51B, fPop := 2000, fMsgLen := 7
    fMsg := #v[0x54, 0x52, 0x41, 0x50, 0x50, 0x45, 0x44, 0x00] }

/-- The code of V-UNP-5: a valid checksum over a code that is not canonical. -/
def vunp5 : List Byte :=
  [0x03, 0x00, 0x12, 0xed, 0xca, 0x09, 0x6c, 0x5b, 0xf7, 0x54, 0x52, 0x41, 0x50, 0x50, 0x45, 0x44, 0x00, 0x9c, 0x34,
   0xaa, 0x00, 0x00, 0x00, 0x00]

/-! ### CRC and VERIFY -/

/-- V-CRC-3 and V-CRC-3b. -/
theorem test_crc16 :
    crc16 (List.replicate 17 0x00#8) = 0xC7EC#16 ∧ crc16 (List.replicate 17 0xFF#8) = 0x981C#16 := by decide +kernel

/-- V-CRC-2. -/
theorem test_crc : (after (exec .crc (withCode vpack1))).crcRes = 0x1AD9#16 := by decide +kernel

/-- V-CRC-4. -/
theorem test_verify_valid :
    (after (exec .verify (withCode vpack1))).crcOk = true ∧
    (after (exec .verify (withCode vpack1))).crcRes = 0x1AD9#16 := by decide +kernel

/-- V-CRC-4b: CODE[1] = 0x06. -/
theorem test_verify_corrupt :
    (after (exec .verify ((withCode vpack1).writeCode 1 [0x06]))).crcOk = false ∧
    (after (exec .verify ((withCode vpack1).writeCode 1 [0x06]))).crcRes = 0xB2FD#16 := by decide +kernel

/-! ### PACK, UNPACK.L, UNPACK.S -/

/-- V-PACK-1. -/
theorem test_pack :
    vpack1Fields.packCode = vpack1 ∧ (after (exec .pack vpack1Fields)).crcRes = 0x1AD9#16 := by decide +kernel

/-- V-PACK-4: every clamp. -/
theorem test_pack_clamps :
    State.packCode { State.reset with
      fType := 0x41, fSev := 300, fLat := BitVec.ofInt 32 (-950000), fLon := 20000000, fPop := 40000, fMsgLen := 12
      fMsg := #v[0x41, 0x42, 0x43, 0x44, 0x45, 0x46, 0x47, 0x48] } =
    [0x41, 0x09, 0x00, 0x00, 0x00, 0xff, 0xff, 0xff, 0xf0, 0x41, 0x42, 0x43, 0x44, 0x45, 0x46, 0x47, 0x48, 0xfb, 0xee,
     0x00, 0x00, 0x00, 0x00, 0x00] := by decide +kernel

/-- V-PACK-6. -/
theorem test_bucket :
    [0, 1, 2, 3, 4, 5, 2000, 2048, 2049, 32768, 32769, 0xFFFFFFFF].map bucket =
      [0, 0, 1, 2, 2, 3, 11, 11, 12, 15, 15, 15] := by decide +kernel

/-- V-UNP-3: CODE[18] = 0xd8. -/
theorem test_unpackL_of_a_corrupt_code :
    let t := after (exec .unpackL ((withCode vpack1).writeCode 18 [0xd8]))
    t.err = .none ∧ t.crcOk = false ∧ t.crcRes = 0x1AD9#16 ∧ t.fLat = 340522 ∧ t.fLon = 0xFFEDF51B ∧ t.fPop = 2048 ∧
      t.fMsgLen = 7 := by decide +kernel

/-- V-UNP-2: the same code. -/
theorem test_unpackS_of_a_corrupt_code :
    let t := after (exec .unpackS ((withCode vpack1).writeCode 18 [0xd8]))
    t.err = .checksumMismatch ∧ t.fSev = 0 ∧ t.crcRes = 0 ∧ t.statusWord = 0x06 := by decide +kernel

/-- V-UNP-5. -/
theorem test_unpackS_returns_raw_fields :
    let t := after (exec .unpackS (withCode vunp5))
    t.err = .none ∧ t.fSev = 0 ∧ t.fPop = 32768 ∧ t.crcOk = true := by decide +kernel

/-! ### PACKF, UNPACKF -/

/-- V-FRAME-1: SIG[k] = (7k + 1) mod 256, PK[k] = (0xA0 + 3k) mod 256. -/
theorem test_packf :
    let s := ((withCode vpack1).writeSig 0 ((List.range 64).map fun k => BitVec.ofNat 8 (7 * k + 1))).writePk 0
      ((List.range 32).map fun k => BitVec.ofNat 8 (0xA0 + 3 * k))
    let t := after (exec .packf s)
    t.bLen = 120 ∧ t.bytesAt 0 = 0x03 ∧ t.bytesAt 24 = 0x01 ∧ t.bytesAt 25 = 0x08 ∧ t.bytesAt 87 = 0xba ∧
      t.bytesAt 88 = 0xa0 ∧ t.bytesAt 119 = 0xfd := by decide +kernel

/-- V-FRAME-2. -/
theorem test_packf_length :
    (after (exec .packf { State.reset with sigLen := 63 })).err = .lengthMismatch ∧
    (after (exec .packf { State.reset with codeLen := 25 })).err = .lengthMismatch ∧
    (after (exec .packf { State.reset with pkLen := 0 })).err = .lengthMismatch := by decide

theorem test_unpackf :
    let s := State.reset.writeBytes 0 ((List.range 120).map fun k => BitVec.ofNat 8 k)
    let t := after (exec .unpackf { s with bLen := 120, sigLen := 1 })
    t.codeAt 23 = 23 ∧ t.sigAt 0 = 24 ∧ t.pkAt 31 = 119 ∧ t.sigLen = 64 := by decide +kernel

/-- V-FRAME-3. -/
theorem test_unpackf_length :
    (after (exec .unpackf { State.reset with bLen := 119 })).err = .truncatedFrame ∧
    (after (exec .unpackf { State.reset with bLen := 121 })).err = .truncatedFrame := by decide

/-! ### TONES, MOD, DEMOD -/

/-- V-MOD-1: entries 7 to 10 and TONE_CNT. -/
theorem test_tones :
    (timeline Params.ex1 [0xA5]).drop 7 =
      [⟨4500, 30870, 4410⟩, ⟨3000, 35280, 1764⟩, ⟨2000, 37485, 1764⟩, ⟨4500, 39690, 8820⟩] ∧
    Params.ex1.nTones 1 = 11 := by decide +kernel

/-- V-MOD-1b, V-MOD-2, V-MOD-3: PCM_LEN. -/
theorem test_mod_length :
    Params.ex1.lMod 1 = 48510 ∧ Params.ex1.lMod 0 = 44100 ∧ Params.ex1.lMod 120 = 573300 := by decide

/-- Binary32 patterns: 1.0, -0.5, the least subnormal, an infinity. -/
theorem test_binary32 :
    f32Value 0x3F800000 = 1 ∧ f32Value 0xBF000000 = mkRat (-1) 2 ∧ f32Value 0x00000001 = mkRat 1 (2 ^ 149) ∧
    f32NonFinite 0x7F800000 = true := by decide +kernel

/-- Rounding to binary32, worked out from the format's layout (rules R12, R102): 1, 1/10, -1/2, 0; the ties 1 + 2^-24 and
1 + 3 x 2^-24, and those of the subnormals 2^-150 and 3 x 2^-150, go to the even fraction. -/
theorem test_round32 :
    round32 1 = 0x3F800000 ∧ round32 (mkRat 1 10) = 0x3DCCCCCD ∧ round32 (mkRat (-1) 2) = 0xBF000000 ∧ round32 0 = 0 ∧
    round32 (1 + mkRat 1 (2 ^ 24)) = 0x3F800000 ∧ round32 (1 + mkRat 3 (2 ^ 24)) = 0x3F800002 ∧
    round32 (mkRat 1 (2 ^ 150)) = 0 ∧ round32 (mkRat 3 (2 ^ 150)) = 0x00000002 := by decide +kernel

/-- A NUMERICS for tests: energies tell only silence from sound. -/
def toy : Numerics where
  synth := fun _ _ => 0x3F800000
  nonFinite := fun _ => 1
  peak := fun _ => 1
  normalise := fun x _ => x
  noise := fun _ => 1
  windowEnergy := fun ys => ys.length
  sentinelEnergy := fun _ f => f
  toneEnergy := fun _ f => if f = 2000 then 9 else 1
  ratio := fun a b => a / (a + b)
  scoreSum := fun rs => rs.length
  mean := fun cs => cs.headD 0

/-- V-DEM-6: an empty capture. -/
theorem test_demod_of_nothing : demodulate tiny toy [] 3 = noSignalResult 3 := by decide +kernel

/-- By hand (rules R358 to R377): twelve loud samples locate the preamble at 0 and the data at 4; the slots' windows start
at 5 and 9, the loudest bin is 5 (2000 Hz), and the second byte is past the end. -/
theorem test_demod :
    let r := demodulate tiny toy (List.replicate 12 0x3F800000#32) 2
    r.sync = .located ∧ r.start = 4 ∧ r.decoded.map DecodedByte.value = [0x55, 0x00] ∧ r.errorPositions = [1] := by
  decide +kernel

/-! ### The bus -/

/-- V-CTL-7 and the map of rules R101 and R103. -/
theorem test_locate :
    locate 0x0000FC = .unmapped ∧ locate 0x001060 = .unmapped ∧ locate 0x00105F = .elem .code 23 0 ∧
    locate 0x000078 = .reg (.fMsg 6) ∧ locate 0x000018 = .reg .cmd := by decide

/-- V-CTL-8: PACK from reset, as the command after reset. -/
theorem test_step_from_reset :
    (after (step (State.reset.withFetchWord 32 3))).statusWord = 0x00000002 ∧
    (after (step (State.reset.withFetchWord 32 3))).lastCmd = 3 := by decide +kernel

/-- V-CTL-1: the first illegal word. -/
theorem test_step_of_an_illegal_word :
    (after (step (State.reset.withFetchWord 32 0))).statusWord = 0x00000006 := by decide +kernel

/-- V-CTL-6: while BUSY a write to F_SEV is dropped, and a write to STATUS clears OVR. -/
theorem test_write_while_busy :
    let s := (running 3 []).memWrite 0x000044 5
    s.ovr = true ∧ s.fSev = 0 ∧ (s.memWrite 0x000014 0x10).ovr = false := by decide

/-- V-CTL-4 and V-CTL-5. -/
theorem test_interrupt :
    let s := { State.reset with done := true }.memWrite 0x000010 0x2
    s.irq = true ∧ (s.memWrite 0x000014 0x2).irq = false ∧ (s.memWrite 0x000010 0x3).irqEn = false := by decide

/-- A whole exchange by turns: the host writes F_TYPE and CMD, the sequencer completes, the host reads CODE[0]. -/
theorem test_turns :
    let s := { State.reset with
      agenda := [.hostWrite 0x000040 0x1AB, .hostWrite 0x000018 3, .sequencer, .hostRead 0x001000] }
    (after (step (after (step (after (step (after (step s)))))))).readLog = [0xAB] := by decide +kernel

/-! ### What meets the hypotheses of the statements

One theorem `witness_<Name>` for each statement with hypotheses: concrete states and operands that meet them, at the
boundary of each clause. -/

/-- The word MAXB, and the least word beyond it. -/
def maxBWord : Word := BitVec.ofNat 32 Config.params.maxB
def beyondMaxB : Word := BitVec.ofNat 32 (Config.params.maxB + 1)

theorem maxBWord_toNat : maxBWord.toNat = Config.params.maxB := by
  have := Config.maxB_le
  rw [maxBWord, BitVec.toNat_ofNat, Nat.mod_eq_of_lt (by omega)]

theorem beyondMaxB_toNat : beyondMaxB.toNat = Config.params.maxB + 1 := by
  have := Config.maxB_le
  rw [beyondMaxB, BitVec.toNat_ofNat, Nat.mod_eq_of_lt (by omega)]

/-- The word PCM_MAX, and the least word beyond it. -/
def pcmMaxWord : Word := BitVec.ofNat 32 Config.params.pcmMax
def beyondPcmMax : Word := BitVec.ofNat 32 (Config.params.pcmMax + 1)

theorem pcmMaxWord_toNat : pcmMaxWord.toNat = Config.params.pcmMax := by
  have := Config.pcmMax_le
  rw [pcmMaxWord, BitVec.toNat_ofNat, Nat.mod_eq_of_lt (by omega)]

theorem beyondPcmMax_toNat : beyondPcmMax.toNat = Config.params.pcmMax + 1 := by
  have := Config.pcmMax_le
  rw [beyondPcmMax, BitVec.toNat_ofNat, Nat.mod_eq_of_lt (by omega)]

theorem witness_LegalWordsAndIllegalCompletion :
    State.reset.phase = .idle ∧ TurnToComplete (running 0x0A []) 0x0A ∧
    TurnToComplete (running 0x101 [.sequencer]) 0x101 ∧ (¬ ∃ i, decode 0x0A#32 = .ok i) ∧
    ¬ ∃ i, decode 0x101#32 = .ok i := by
  have h1 : decode 0x0A#32 = .error .reservedOp := by decide
  have h2 : decode 0x101#32 = .error .strictNotAllowed := by decide
  exact ⟨rfl, ⟨rfl, .inl rfl⟩, ⟨rfl, .inr ⟨[], rfl⟩⟩, by simp [h1], by simp [h2]⟩

theorem witness_StepRunsTheDecodedCommand :
    TurnToComplete (running 3 []) 3 ∧ TurnToComplete (running 0x104 [.sequencer]) 0x104 ∧
    decode 3#32 = .ok .pack ∧ decode 0x104#32 = .ok .unpackS ∧ decodeTableWord 32 9 = some .demod ∧
    (running 3 [.hostWrite 0x000010 1, .sequencer]).agenda = .hostWrite 0x000010 1 :: [.sequencer] :=
  ⟨⟨rfl, .inl rfl⟩, ⟨rfl, .inr ⟨[], rfl⟩⟩, by decide, by decide, by decide, rfl⟩

theorem witness_EveryStepKeepsInv : Inv (running 3 [.hostRead 0, .sequencer]) ∧
    ∃ t, step (running 3 [.hostRead 0, .sequencer]) = .next t :=
  ⟨{ code := by decide, sig := by decide, pk := by decide, bytes := ⟨by decide, by simp [running, State.reset]⟩
     epos := ⟨by decide, by simp [running, State.reset]⟩, nconf := ⟨by decide, by simp [running, State.reset]⟩
     tones := ⟨by decide, by simp [running, State.reset]⟩, pcm := ⟨by decide, by simp [running, State.reset]⟩
     busy := by intro c h; cases h; decide
     toneCnt := Nat.zero_le _, dmErrCnt := Nat.zero_le _
     noDemod := fun _ => ⟨rfl, rfl, rfl, rfl, rfl⟩, noSignal := fun _ => ⟨rfl, rfl, rfl, rfl⟩
     drawn := by decide }, _, rfl⟩

/-- A valid code, and the same with bit `b` of byte `j` flipped. -/
def flipped (j b : Nat) : State := (withCode vpack1).writeCode j [vpack1[j]?.getD 0 ^^^ (1#8 <<< b)]

theorem witness_VerifyCatchesSingleBitFlips :
    (after (exec .verify (withCode vpack1))).crcOk = true ∧
    ∀ e ∈ [(0, 0), (18, 7), (19, 0), (23, 7)],
      (∀ k, k < 24 → k ≠ e.1 → (flipped e.1 e.2).codeAt k = (withCode vpack1).codeAt k) ∧
      (flipped e.1 e.2).codeAt e.1 = (withCode vpack1).codeAt e.1 ^^^ (1#8 <<< e.2) := by decide +kernel

/-- Both clauses: the code of V-PACK-1, and with CODE[18] = 0xd8. -/
theorem witness_StrictUnpackDecodesOrRejects :
    (let s := withCode vpack1
     crc16 ((List.range 17).map s.codeAt) = s.codeAt 17 ++ s.codeAt 18) ∧
    (let s := (withCode vpack1).writeCode 18 [0xd8]
     crc16 ((List.range 17).map s.codeAt) ≠ s.codeAt 17 ++ s.codeAt 18) := by decide +kernel

/-- A canonical code and one that is not, both with a valid checksum. -/
theorem witness_UnpackThenPackRestoresCanonicalCodes :
    (let s := withCode vpack1
     crc16 ((List.range 17).map s.codeAt) = s.codeAt 17 ++ s.codeAt 18 ∧ (s.codeAt 8).toNat % 16 = 0) ∧
    (let s := withCode vunp5
     crc16 ((List.range 17).map s.codeAt) = s.codeAt 17 ++ s.codeAt 18 ∧ (s.codeAt 8).toNat % 16 ≠ 0) := by
  decide +kernel

theorem witness_PackfBuildsTheFrame :
    (State.reset.codeLen = 24 ∧ State.reset.sigLen = 64 ∧ State.reset.pkLen = 32) ∧
    ∀ s ∈ [{ State.reset with codeLen := 25 }, { State.reset with sigLen := 63 }, { State.reset with pkLen := 0 }],
      ¬ (s.codeLen = 24 ∧ s.sigLen = 64 ∧ s.pkLen = 32) := by decide

theorem witness_UnpackfSplitsTheFrame :
    { State.reset with bLen := 120 }.bLen = 120 ∧ { State.reset with bLen := 119 }.bLen ≠ 120 ∧
    { State.reset with bLen := 121 }.bLen ≠ 120 := by decide

theorem witness_FrameRoundTrip :
    State.reset.codeLen = 24 ∧ State.reset.sigLen = 64 ∧ State.reset.pkLen = 32 := by decide

/-- BLEN = 0 and MAXB for the one clause, MAXB + 1 for the other. -/
theorem witness_TonesWritesTheTimeline :
    State.reset.bLen.toNat ≤ Config.params.maxB ∧
    { State.reset with bLen := maxBWord }.bLen.toNat ≤ Config.params.maxB ∧
    Config.params.maxB < { State.reset with bLen := beyondMaxB }.bLen.toNat := by
  simp [maxBWord_toNat, beyondMaxB_toNat, State.reset]

theorem witness_ModRendersTheTimeline :
    State.reset.bLen.toNat ≤ Config.params.maxB ∧
    { State.reset with bLen := maxBWord }.bLen.toNat ≤ Config.params.maxB ∧
    Config.params.maxB < { State.reset with bLen := beyondMaxB }.bLen.toNat := by
  simp [maxBWord_toNat, beyondMaxB_toNat, State.reset]

/-- Two states with the same payload and different PCM. -/
theorem witness_ModDependsOnThePayloadOnly :
    let s := { State.reset with bLen := 1, bytes := [(0, 0xA5)] }
    let s' := { State.reset with bLen := 1, bytes := [(0, 0xA5)], pcm := [(7, 1)], fType := 3 }
    s.bLen.toNat ≤ Config.params.maxB ∧ s'.bLen = s.bLen ∧ (∀ k, k < s.bLen.toNat → s'.bytesAt k = s.bytesAt k) ∧
      s' ≠ s := by
  have := Config.maxB_ge
  refine ⟨?_, rfl, fun k _ => rfl, by decide⟩
  show 1 ≤ _
  omega

theorem witness_ToneTableIsInjective : Params.ex1.Valid := Params.ex1_valid

theorem witness_ReferenceWaveformInRange : Params.ex1.Valid ∧ tiny.Valid := ⟨Params.ex1_valid, tiny_valid⟩

/-- Both lengths at their capacities for the one clause, each just beyond for the other. -/
theorem witness_DemodAlwaysCompletes :
    (let s := { State.reset with rxLen := maxBWord, pcmLen := pcmMaxWord }
     s.rxLen.toNat ≤ Config.params.maxB ∧ s.pcmLen.toNat ≤ Config.params.pcmMax) ∧
    Config.params.maxB < { State.reset with rxLen := beyondMaxB }.rxLen.toNat ∧
    Config.params.pcmMax < { State.reset with pcmLen := beyondPcmMax }.pcmLen.toNat := by
  simp [maxBWord_toNat, beyondMaxB_toNat, pcmMaxWord_toNat, beyondPcmMax_toNat]

/-- As for the statement before it. -/
theorem witness_DemodStoresTheResult :
    (let s := { State.reset with rxLen := maxBWord, pcmLen := pcmMaxWord }
     s.rxLen.toNat ≤ Config.params.maxB ∧ s.pcmLen.toNat ≤ Config.params.pcmMax) ∧
    Config.params.maxB < { State.reset with rxLen := beyondMaxB }.rxLen.toNat ∧
    Config.params.pcmMax < { State.reset with pcmLen := beyondPcmMax }.pcmLen.toNat := witness_DemodAlwaysCompletes

/-- Two silent samples, +0.0 and -0.0, and two expected bytes. -/
theorem witness_DemodOfSilenceIsNoSignal :
    let s := { State.reset with rxLen := 2, pcmLen := 2, pcm := [(0, 0x00000000), (1, 0x80000000)] }
    s.rxLen.toNat ≤ Config.params.maxB ∧ s.pcmLen.toNat ≤ Config.params.pcmMax ∧
      ∀ n, n < s.pcmLen.toNat → f32NonFinite (s.pcmAt n) = false ∧ f32Value (s.pcmAt n) = 0 := by
  have h1 := Config.maxB_ge
  have h2 := Config.lMod_maxB_le
  have h3 : 1 ≤ Config.params.postN := Config.params_valid.1.2.2.2.1
  have h4 : Config.params.toneN < Config.params.postN := Config.params_valid.2.2.1.2.2
  have h5 : 1 ≤ Config.params.toneN := Config.params_valid.1.2.1
  refine ⟨?_, ?_, by decide +kernel⟩
  · show 2 ≤ _
    omega
  · show 2 ≤ _
    unfold Params.lMod at h2
    omega

/-- No samples, and one sample fewer than the preamble. -/
theorem witness_DemodOfAShortCaptureFlagsEverything :
    (let s := { State.reset with rxLen := 3 }
     s.rxLen.toNat ≤ Config.params.maxB ∧ s.pcmLen.toNat < Config.params.preLen) ∧
    (let s := { State.reset with pcmLen := BitVec.ofNat 32 (Config.params.preLen - 1) }
     s.rxLen.toNat ≤ Config.params.maxB ∧ s.pcmLen.toNat < Config.params.preLen) := by
  have h1 := Config.maxB_ge
  have h2 : 1 ≤ Config.params.preN := Config.params_valid.1.2.2.1
  have h3 : 1 ≤ Config.params.preCycles := Config.params_valid.1.2.2.2.2.1
  have h4 : 1 ≤ Config.params.preLen := by
    unfold Params.preLen
    exact Nat.mul_pos (by omega) h2
  refine ⟨⟨?_, ?_⟩, ⟨Nat.zero_le _, ?_⟩⟩
  · show 3 ≤ _
    omega
  · show 0 < _
    omega
  · show (BitVec.ofNat 32 (Config.params.preLen - 1)).toNat < _
    rw [BitVec.toNat_ofNat]
    have := Nat.mod_le (Config.params.preLen - 1) (2 ^ 32)
    omega

theorem witness_DemodReadsTheCaptureOnly :
    let s := { State.reset with rxLen := 2, pcmLen := 1, pcm := [(0, 0x3F800000)] }
    let s' := { State.reset with rxLen := 2, pcmLen := 1, pcm := [(0, 0x3F800000), (1, 0x3F800000)], bLen := 5 }
    s.rxLen.toNat ≤ Config.params.maxB ∧ s.pcmLen.toNat ≤ Config.params.pcmMax ∧ s'.rxLen = s.rxLen ∧
      s'.pcmLen = s.pcmLen ∧ (∀ n, n < s.pcmLen.toNat → s'.pcmAt n = s.pcmAt n) ∧ s' ≠ s := by
  have h1 := Config.maxB_ge
  have h2 := Config.lMod_maxB_le
  have h3 : 1 ≤ Config.params.postN := Config.params_valid.1.2.2.2.1
  refine ⟨?_, ?_, rfl, rfl, ?_, by decide⟩
  · show 2 ≤ _
    omega
  · show 1 ≤ _
    unfold Params.lMod at h2
    omega
  · intro n hn
    have : n = 0 := by
      have : n < 1 := hn
      omega
    subst this
    rfl

theorem witness_OnsetIsTheFirstLoudWindow :
    tiny.Valid ∧ onsetOf tiny toy [1, 1] = some 0 ∧ onsetOf tiny toy [1] = none := ⟨tiny_valid, by decide +kernel⟩

/-- A capture too short for a candidate, one just long enough with a score above the threshold, and one with a score
below it. -/
theorem witness_SyncTakesTheFirstBestCandidate :
    tiny.Valid ∧
    (∀ q, ¬ ∃ k, k * tiny.searchStepN ≤ tiny.searchSpanN ∧ q = 0 - tiny.preBackoffN + k * tiny.searchStepN ∧
      q + tiny.preLen ≤ [(1 : Rat), 1, 1].length) ∧
    (∃ q, ∃ k, k * tiny.searchStepN ≤ tiny.searchSpanN ∧ q = 0 - tiny.preBackoffN + k * tiny.searchStepN ∧
      q + tiny.preLen ≤ [(1 : Rat), 1, 1, 1].length) ∧
    mkRat 40 100 * (2 * tiny.preCycles : Nat) ≤ candidateScore tiny toy [1, 1, 1, 1] 0 ∧
    candidateScore tiny toy [0, 0, 0, 0] 0 < mkRat 40 100 * (2 * tiny.preCycles : Nat) := by
  refine ⟨tiny_valid, ?_, ⟨0, 0, by decide, by decide, by decide⟩, by decide +kernel, by decide +kernel⟩
  rintro q ⟨k, -, -, h⟩
  have h : q + 4 ≤ 3 := h
  omega

/-- The low-nibble slot ends exactly at the capture's end, and one sample beyond it. -/
theorem witness_BytesAreAssembledFromSlots :
    (let first := 4 + 1 * (tiny.toneN + tiny.gapN) + tiny.settleN
     first + (tiny.toneN - tiny.settleN) ≤ (List.replicate 11 (1 : Rat)).length) ∧
    (let first := 4 + 1 * (tiny.toneN + tiny.gapN) + tiny.settleN
     (List.replicate 10 (1 : Rat)).length < first + (tiny.toneN - tiny.settleN)) := by decide

theorem witness_SlicerFollowsAClearMargin :
    (∀ k, k < 16 → Reference.Close 1 (toneEnergyOf toy [1] (toneFreq k)) (if k = 5 then 9 else 1)) ∧
    ∀ k, k < 16 → k ≠ 5 → (if k = 5 then (9 : ℝ) else 1) + 2 * 1 < if (5 : Nat) = 5 then 9 else 1 := by
  constructor
  · intro k _
    have h : toneEnergyOf toy [1] (toneFreq k) = if toneFreq k = 2000 then 9 else 1 := by
      simp [toneEnergyOf, allZero, toy]
    rw [h, Reference.Close]
    by_cases hk : k = 5
    · subst hk
      simp [toneFreq]
    · have : toneFreq k ≠ 2000 := by
        unfold toneFreq
        omega
      simp [hk, this]
  · intro k _ hk
    rw [if_neg hk, if_pos rfl]
    norm_num

theorem witness_GoertzelGivesTheFourierEnergy : ∀ y ∈ [(0 : ℝ), 0], y = 0 := by simp

/-- The greatest integer below the overflow bound, and the bound itself with either sign. -/
theorem witness_Round32IsNearestTiesToEven :
    |(2 ^ 128 - 2 ^ 103 - 1 : Rat)| < 2 ^ 128 - 2 ^ 103 ∧ (2 ^ 128 - 2 ^ 103 : Rat) ≤ 2 ^ 128 - 2 ^ 103 ∧
    (-(2 ^ 128 - 2 ^ 103) : Rat) ≤ -(2 ^ 128 - 2 ^ 103) := by
  refine ⟨?_, le_rfl, le_rfl⟩
  rw [abs_lt]
  constructor <;> norm_num

/-- The capture behind `z` samples of silence. -/
def behindSilence (t : State) (z : Nat) : State :=
  { t with rxLen := maxBWord, pcmLen := BitVec.ofNat 32 (z + t.pcmLen.toNat) }.writePcm 0
    (List.replicate z 0 ++ (List.range t.pcmLen.toNat).map t.pcmAt)

theorem behindSilence_spec (t : State) (z : Nat) (h : z + t.pcmLen.toNat < 2 ^ 32) :
    (behindSilence t z).pcmLen.toNat = z + t.pcmLen.toNat ∧ (∀ n, n < z → (behindSilence t z).pcmAt n = 0) ∧
    ∀ n, n < t.pcmLen.toNat → (behindSilence t z).pcmAt (z + n) = t.pcmAt n := by
  refine ⟨?_, fun n hn => ?_, fun n hn => ?_⟩
  · show (BitVec.ofNat 32 _).toNat = _
    rw [BitVec.toNat_ofNat, Nat.mod_eq_of_lt h]
  · rw [behindSilence, State.pcmAt_writePcm, if_pos ⟨Nat.zero_le _, by simp; omega⟩, Nat.sub_zero,
      List.getElem?_append_left (by simpa using hn)]
    simp [hn]
  · rw [behindSilence, State.pcmAt_writePcm, if_pos ⟨Nat.zero_le _, by simpa using hn⟩, Nat.sub_zero,
      List.getElem?_append_right (by simp)]
    simp [hn]

/-- A frame of draws and the capture as MOD left it; the same behind the longest silence that fits. That the parameters can
be EX1 is shown by a configuration, given the last clause of rule R384 for EX1 (log entry 16). -/
theorem witness_LoopbackRestoresTheFrame :
    (∃ s t t' : State, s.bLen = 120 ∧ exec .mod s = .next t ∧ t'.rxLen = 120 ∧ t'.pcmLen = t.pcmLen ∧
      ∀ n, n < t.pcmLen.toNat → t'.pcmAt n = t.pcmAt n) ∧
    (∃ (s t : State) (z : Nat), s.bLen.toNat ≤ Config.params.maxB ∧
      z + Config.params.lMod s.bLen.toNat = Config.params.pcmMax ∧ exec .mod s = .next t ∧
      (behindSilence t z).rxLen.toNat ≤ Config.params.maxB ∧
      (behindSilence t z).pcmLen.toNat = z + t.pcmLen.toNat ∧ (∀ n, n < z → (behindSilence t z).pcmAt n = 0) ∧
      ∀ n, n < t.pcmLen.toNat → (behindSilence t z).pcmAt (z + n) = t.pcmAt n) ∧
    (Reference.PreambleStandsOut Params.ex1 → ∃ c : Configuration, c.params = Params.ex1) := by
  refine ⟨?_, ?_, fun h => ⟨Codebook.configurationOf Params.ex1 ⟨Params.ex1_valid, by decide +kernel, by decide +kernel,
    by decide⟩ fun _ => h, rfl⟩⟩
  · obtain ⟨t, ht⟩ : ∃ t, exec .mod { State.reset with bLen := 120 } = .next t := ⟨_, execMod_of_fits Config.maxB_ge⟩
    exact ⟨_, t, { t with rxLen := 120 }, rfl, ht, rfl, rfl, fun _ _ => rfl⟩
  · have hm : maxBWord.toNat ≤ Config.params.maxB := maxBWord_toNat.le
    have ht : exec .mod { State.reset with bLen := maxBWord } = .next _ := execMod_of_fits hm
    have hz := Config.lMod_le hm
    have hp := Config.pcmMax_le
    have hl : (BitVec.ofNat 32 (Config.params.lMod maxBWord.toNat)).toNat = Config.params.lMod maxBWord.toNat := by
      rw [BitVec.toNat_ofNat, Nat.mod_eq_of_lt (by omega)]
    refine ⟨_, _, Config.params.pcmMax - Config.params.lMod maxBWord.toNat, hm, Nat.sub_add_cancel hz, ht, hm,
      behindSilence_spec _ _ ?_⟩
    show _ + (BitVec.ofNat 32 (Config.params.lMod maxBWord.toNat)).toNat < _
    omega

theorem witness_ErrorsArePrecise : ∃ t, exec .unpackf State.reset = .next t ∧ t.err ≠ .none := ⟨_, rfl, by decide⟩

theorem witness_ErrorCodesSayTheCause : ∃ t, exec .packf State.reset = .next t := ⟨_, rfl⟩

/-- Clause 1 at the last word of TONES, clause 3 at the last word of the register region and at the last word of all. -/
theorem witness_LocateIsTheAddressMap :
    (0 < Region.tones.capacity ∧ Region.tones.capacity - 1 < Region.tones.capacity ∧ 3 < Region.tones.strideWords) ∧
    (∀ r : Reg, r.offset ≠ 4 * 0x3F) ∧
    ∀ (m : Region) (k f : Nat), k < m.capacity → f < m.strideWords → 0x3F ≠ m.base / 4 + m.strideWords * k + f := by
  refine ⟨?_, ?_, ?_⟩
  · have : 1 ≤ Config.params.tMax := by
      unfold Params.tMax
      omega
    refine ⟨this, ?_, by decide⟩
    show Config.params.tMax - 1 < Config.params.tMax
    omega
  · intro r
    cases r <;> try decide
    next i => revert i; decide
  · intro m k f _ _
    cases m <;> simp only [Region.base] <;> omega

theorem witness_LowAddressBitsAreIgnored :
    (0x000040#24).extractLsb' 2 22 = (0x000043#24).extractLsb' 2 22 := by decide

/-- IDLE; BUSY and a word that may be read; BUSY and one that may not. -/
theorem witness_ReadsHaveNoSideEffect :
    (let s := { State.reset with agenda := [.hostRead 0x000040] }
     s.completing = none ∧ s.phase = .idle) ∧
    ((running 3 [.hostRead 0x000014]).completing = none ∧ locate 0x000014 = .reg .status) ∧
    (running 3 [.hostRead 0x000040]).completing = none ∧ locate 0x000040 = .reg .fType ∧
    ∀ r ∈ [Reg.capMaxB, .capPcmMax, .capFs, .capTMax, .ctrl, .status, .cmd, .err], locate 0x000040 ≠ .reg r := by
  decide

/-- The first and last register of each clause, an unmapped word, STATUS, and CTRL with SRST = 0 written. -/
theorem witness_RegisterWritesWhileIdle :
    State.reset.phase = .idle ∧ locate 0x000044 = .reg .fSev ∧ locate 0x000094 = .reg .pcmLen ∧
    locate 0x000040 = .reg .fType ∧ locate 0x000054 = .reg .fMsgLen ∧ locate 0x00007C = .reg (.fMsg 7) ∧
    locate 0x000000 = .reg .capMaxB ∧ locate 0x0000B4 = .reg .dmErrCnt ∧ locate 0x0000FC = .unmapped ∧
    locate 0x000014 = .reg .status ∧ locate 0x000010 = .reg .ctrl ∧ (0x00000002 : Word).getLsbD 0 = false := by decide

/-- The last byte of CODE, and the first element of each memory whose size is a parameter. -/
theorem witness_ElementWritesWhileIdle :
    State.reset.phase = .idle ∧ locate 0x00105C = .elem .code 23 0 ∧ locate 0x0011FC = .elem .sig 63 0 ∧
    locate 0x00127C = .elem .pk 31 0 ∧ locate 0x010000 = .elem .bytes 0 0 ∧ locate 0x020000 = .elem .epos 0 0 ∧
    locate 0x040000 = .elem .nconf 0 0 ∧ locate 0x100004 = .elem .tones 0 1 ∧ locate 0x800000 = .elem .pcm 0 0 := by
  have h1 := Config.maxB_ge
  have h2 : 0 < Config.params.pcmMax := by
    have h := Config.lMod_maxB_le
    have h3 : 1 ≤ Config.params.postN := Config.params_valid.1.2.2.2.1
    unfold Params.lMod at h
    omega
  have h3 : 0 < Config.params.tMax := by
    unfold Params.tMax
    omega
  have at0 : ∀ (m : Region) (a : Addr) (f : Nat), 0 < m.capacity → f < m.strideWords → ¬ a.toNat / 4 < 0x40 →
      a.toNat / 4 = m.base / 4 + f → locate a = .elem m 0 f := by
    intro m a f hc hf hr ha
    have hh : m.holds (a.toNat / 4) = true := by
      simp only [Region.holds, Bool.and_eq_true, decide_eq_true_eq]
      have : m.strideWords * 1 ≤ m.strideWords * m.capacity := Nat.mul_le_mul_left _ hc
      omega
    have e : a.toNat / 4 - m.base / 4 = f := by omega
    unfold locate locateWord
    rw [if_neg hr, Region.find_eq_some hh]
    simp only
    rw [e, Nat.div_eq_of_lt hf, Nat.mod_eq_of_lt hf]
  refine ⟨rfl, by decide, by decide, by decide, ?_, ?_, ?_, ?_, ?_⟩
  · exact at0 .bytes _ 0 (show 0 < Config.params.maxB by omega) (by decide) (by decide) (by decide)
  · exact at0 .epos _ 0 (show 0 < Config.params.maxB by omega) (by decide) (by decide) (by decide)
  · exact at0 .nconf _ 0 (show 0 < 2 * Config.params.maxB by omega) (by decide) (by decide) (by decide)
  · exact at0 .tones _ 1 h3 (by decide) (by decide) (by decide)
  · exact at0 .pcm _ 0 h2 (by decide) (by decide) (by decide)

/-- Each clause: F_TYPE and CMD, STATUS, CTRL with SRST = 0 and with SRST = 1. -/
theorem witness_WritesWhileBusyAreDropped :
    (running 3 []).phase = .busy 3 ∧ locate 0x000040 ≠ .reg .ctrl ∧ locate 0x000040 ≠ .reg .status ∧
    locate 0x000014 = .reg .status ∧ locate 0x000010 = .reg .ctrl ∧ (2#32).getLsbD 0 = false ∧
    (3#32).getLsbD 0 = true := by decide

theorem witness_CmdWriteIssues :
    locate 0x000018 = .reg .cmd ∧ State.reset.phase = .idle ∧ (running 3 []).phase = .busy 3 := by decide

theorem witness_RunningCommandKeepsItsInputs :
    (running 3 [.hostWrite 0x000040 7]).phase = .busy 3 ∧
    ∃ t, step (running 3 [.hostWrite 0x000040 7]) = .next t ∧ t.phase ≠ .idle := ⟨rfl, _, rfl, by decide⟩

theorem witness_SoftResetAbortsAndClears :
    locate 0x000010 = .reg .ctrl ∧ (1#32).getLsbD 0 = true ∧ State.reset.phase = .idle ∧
    (running 6 []).phase = .busy 6 ∧ (Region.pk, 32) ∈ abortSet 6 := by decide

/-- A word with a reserved operation, one with STRICT where it is not allowed, and one with a reserved bit. -/
theorem witness_AbortWriteSets :
    (¬ ∃ i, decode 0x0A#32 = .ok i) ∧ (¬ ∃ i, decode 0x101#32 = .ok i) ∧ ¬ ∃ i, decode 0x80000001#32 = .ok i := by
  have h1 : decode 0x0A#32 = .error .reservedOp := by decide
  have h2 : decode 0x101#32 = .error .strictNotAllowed := by decide
  have h3 : decode 0x80000001#32 = .error .reservedBits := by decide
  exact ⟨by simp [h1], by simp [h2], by simp [h3]⟩

theorem witness_PowerOnResetDrawsTheMemories :
    (let s := { State.reset with agenda := [.powerOn] }
     s.completing = none ∧ s.agenda = [.powerOn]) ∧ (running 3 [.powerOn]).completing = none := by decide

theorem witness_InterruptFollowsEnableAndDone :
    locate 0x000010 = .reg .ctrl ∧ (2#32).getLsbD 0 = false ∧ locate 0x000014 = .reg .status ∧
    (2#32).getLsbD 1 = true := by decide

theorem witness_OnlyCompletionSetsDone :
    ∃ t, step (running 3 []) = .next t ∧ (running 3 []).done = false ∧ t.done = true := ⟨_, rfl, rfl, rfl⟩

theorem witness_OnlyCmdWritesStartCommands :
    let s := { State.reset with agenda := [.hostWrite 0x000018 3] }
    ∃ t, step s = .next t ∧ s.phase ≠ .busy 3 ∧ t.phase = .busy 3 := ⟨_, rfl, by decide, by decide⟩

/-- VERIFY of a valid code, and a soft reset with CRC_OK set. -/
theorem witness_OnlyChecksAndResetsChangeCrcOk :
    (let s := { withCode vpack1 with phase := .busy 2 }
     ∃ t, step s = .next t ∧ t.crcOk ≠ s.crcOk) ∧
    (let s := { State.reset with crcOk := true, agenda := [.hostWrite 0x000010 1] }
     ∃ t, step s = .next t ∧ t.crcOk ≠ s.crcOk) :=
  ⟨⟨_, rfl, by decide +kernel⟩, ⟨_, rfl, by decide +kernel⟩⟩

/-! ### Clear margins -/

/-- A NUMERICS that decides as the exact semantics on four ones, on four zeros and, as to the onset, on four quarters. -/
def rough : Numerics where
  synth := fun _ _ => 0
  nonFinite := fun _ => 0
  peak := fun xs => xs.headD 0
  normalise := fun x _ => x
  noise := fun ys => ys.headD 0 ^ 2
  windowEnergy := fun ys => ys.headD 0 ^ 2
  sentinelEnergy := fun _ f => f
  toneEnergy := fun _ f => 10000 - f
  ratio := fun a b => a / (a + b)
  scoreSum := fun rs => rs.sum
  mean := fun _ => 0

/-- Four samples of value 1. -/
def ones : List Word := List.replicate 4 0x3F800000

/-- Four samples of value 0. -/
def zeros : List Word := List.replicate 4 0

/-- Four samples of value 1/4, too quiet to be normalised. -/
def quarters : List Word := List.replicate 4 0x3E800000

/-- No error on those captures, as to the onset only on the third; elsewhere an error no margin is larger than. -/
def roughError : Comparison → Reference.Source → Rat :=
  fun c src =>
    if src = .capture ones ∨ src = .capture zeros ∨ src = .capture quarters ∧ (c = .onset ∨ c = .absFloor) then 0
    else Codebook.errorBound small src

theorem exact_ones : Reference.exactCopy small (.capture ones) = [1, 1, 1, 1] := by
  have h : f32Value 0x3F800000#32 = 1 := by decide +kernel
  simp [Reference.exactCopy, Reference.Source.exact, Reference.normalised, Reference.samples, ones, h, Reference.peak,
    small, List.replicate]

theorem exact_zeros : Reference.exactCopy small (.capture zeros) = [0, 0, 0, 0] := by
  have h : f32Value 0#32 = 0 := by decide +kernel
  simp [Reference.exactCopy, Reference.Source.exact, Reference.normalised, Reference.samples, zeros, h, Reference.peak,
    small, List.replicate]

theorem exact_quarters : Reference.exactCopy small (.capture quarters) = [1 / 4, 1 / 4, 1 / 4, 1 / 4] := by
  have h : f32Value 0x3E800000#32 = 1 / 4 := by decide +kernel
  have h4 : (4 : ℝ)⁻¹ ≤ 2⁻¹ := by norm_num
  simp [Reference.exactCopy, Reference.Source.exact, Reference.normalised, Reference.samples, quarters, h, Reference.peak,
    small, List.replicate, h4]

theorem block_ones : Reference.blockCopy small rough (.capture ones) = [1, 1, 1, 1] := by decide +kernel

theorem block_zeros : Reference.blockCopy small rough (.capture zeros) = [0, 0, 0, 0] := by decide +kernel

theorem block_quarters : Reference.blockCopy small rough (.capture quarters) = [1 / 4, 1 / 4, 1 / 4, 1 / 4] := by
  decide +kernel

/-- The energy of two equal samples. -/
theorem energy_pair (p : Params) (c : ℝ) (f : ℕ) :
    Reference.energy p [c, c] f = c ^ 2 * (2 + 2 * Real.cos (Reference.angle p f)) := by
  unfold Reference.energy
  have h : Reference.fourierSum (Reference.angle p f) 0 [c, c] =
      ((c * (1 + Real.cos (Reference.angle p f)) : ℝ) : ℂ) +
        ((-c * Real.sin (Reference.angle p f) : ℝ) : ℂ) * Complex.I := by
    simp only [Reference.fourierSum, CharP.cast_eq_zero, mul_zero, Complex.exp_zero, zero_add, Nat.cast_one, mul_one,
      add_zero]
    rw [show -Complex.I * (Reference.angle p f : ℂ) = (-Reference.angle p f : ℂ) * Complex.I by ring, Complex.exp_mul_I,
      Complex.cos_neg, Complex.sin_neg]
    push_cast
    ring
  rw [h, Complex.sq_norm, Complex.normSq_add_mul_I]
  linear_combination c ^ 2 * Real.sin_sq_add_cos_sq (Reference.angle p f)

/-- The Hann window of four samples is 0, 3/4, 3/4, 0. -/
theorem slotEnergy_ones (k : ℕ) :
    Reference.slotEnergy small [1, 1, 1, 1] 0 k = (3 / 4) ^ 2 * (2 + 2 * Real.cos (Reference.angle small (toneFreq k))) := by
  have h0 : Reference.hann 0 4 = 0 := by simp [Reference.hann]
  have h1 : Reference.hann 1 4 = 3 / 4 := by
    rw [Reference.hann, show 2 * Real.pi * ((1 : ℕ) : ℝ) / (((4 : ℕ) : ℝ) - 1) = Real.pi - Real.pi / 3 by push_cast; ring,
      Real.cos_pi_sub, Real.cos_pi_div_three]
    norm_num
  have h2 : Reference.hann 2 4 = 3 / 4 := by
    rw [Reference.hann, show 2 * Real.pi * ((2 : ℕ) : ℝ) / (((4 : ℕ) : ℝ) - 1) = Real.pi / 3 + Real.pi by push_cast; ring,
      Real.cos_add_pi, Real.cos_pi_div_three]
    norm_num
  have h3 : Reference.hann 3 4 = 0 := by
    rw [Reference.hann, show 2 * Real.pi * ((3 : ℕ) : ℝ) / (((4 : ℕ) : ℝ) - 1) = 2 * Real.pi by push_cast; ring,
      Real.cos_two_pi]
    norm_num
  have h : Reference.hannWindowed small.windowN 0 (window [1, 1, 1, 1] 0 small.windowN) = 0 :: [3 / 4, 3 / 4, 0] := by
    simp [small, Params.windowN, window, Reference.hannWindowed, h0, h1, h2, h3]
  have h' : ([3 / 4, 3 / 4, 0] ++ [0] : List ℝ) = ([3 / 4, 3 / 4] ++ [0]) ++ [0] := rfl
  rw [Reference.slotEnergy, h, Reference.energy_zero_cons, h', ← energy_pair]
  simp only [Reference.energy, Reference.fourierSum_append_zero]

theorem angle_tone (k : ℕ) (hk : k < 16) :
    0 ≤ Reference.angle small (toneFreq k) ∧ Reference.angle small (toneFreq k) ≤ Real.pi / 6 := by
  have hp := Real.pi_pos
  have h : (k : ℝ) ≤ 15 := by exact_mod_cast Nat.le_of_lt_succ hk
  have h' : (0 : ℝ) ≤ k := Nat.cast_nonneg k
  have e : Reference.angle small (toneFreq k) = Real.pi * (1000 + 200 * k) / 24000 := by
    simp only [Reference.angle, small, toneFreq]; push_cast; ring
  rw [e]
  constructor
  · positivity
  · rw [div_le_div_iff₀ (by norm_num) (by norm_num)]; nlinarith

theorem slotEnergy_lt {k l : ℕ} (hl : l < 16) (h : k < l) :
    Reference.slotEnergy small [1, 1, 1, 1] 0 l < Reference.slotEnergy small [1, 1, 1, 1] 0 k := by
  have a := angle_tone k (by omega)
  have b := angle_tone l hl
  have hp := Real.pi_pos
  have hlt : Reference.angle small (toneFreq k) < Reference.angle small (toneFreq l) := by
    have : (k : ℝ) < l := by exact_mod_cast h
    simp only [Reference.angle, small, toneFreq]
    apply div_lt_div_of_pos_right _ (by norm_num)
    push_cast
    nlinarith
  have := Real.cos_lt_cos_of_nonneg_of_le_pi a.1 (by linarith [b.2]) hlt
  rw [slotEnergy_ones, slotEnergy_ones]
  linarith

theorem firstMax_of_strict {f : ℕ → ℝ} {ks : List ℕ} {m : ℕ} (hm : m ∈ ks) (h : ∀ k ∈ ks, k ≠ m → f k < f m) :
    firstMax f ks = some m := by
  obtain ⟨q, hq⟩ := firstMax_isSome f (List.ne_nil_of_mem hm)
  obtain ⟨b, a, rfl, hb, ha⟩ := firstMax_eq_some hq
  rw [hq]
  by_contra hne
  have hlt := h q (by simp) (fun e => hne (by rw [e]))
  rcases List.mem_append.mp hm with h' | h'
  · exact absurd (hb m h') (not_lt.mpr hlt.le)
  · rcases List.mem_cons.mp h' with rfl | h'
    · exact hne rfl
    · exact absurd (ha m h') (not_le.mpr hlt)

/-- The first two bins differ by less than 22 in 100. -/
theorem confidence_ones : Reference.slotConfidence small [1, 1, 1, 1] 0 < 11 / 20 := by
  have h0 : Reference.slotNibble small [1, 1, 1, 1] 0 = 0 := by
    rw [Reference.slotNibble, firstMax_of_strict (m := 0) (by simp)]
    · rfl
    · intro k hk hne
      exact slotEnergy_lt (List.mem_range.mp hk) (by omega)
  have h1 : Reference.slotRunnerUp small [1, 1, 1, 1] 0 = 1 := by
    rw [Reference.slotRunnerUp, h0, firstMax_of_strict (m := 1) (by simp)]
    · rfl
    · intro k hk hne
      rw [List.mem_filter, List.mem_range, bne_iff_ne] at hk
      exact slotEnergy_lt hk.1 (by omega)
  have b := angle_tone 1 (by norm_num)
  have c0 := Real.cos_le_one (Reference.angle small (toneFreq 0))
  have c1 := Real.cos_le_cos_of_nonneg_of_le_pi b.1 (by linarith [Real.pi_pos]) b.2
  rw [Real.cos_pi_div_six] at c1
  have c2 : (3 / 2 : ℝ) ≤ √3 := by rw [Real.le_sqrt' (by norm_num)]; norm_num
  have c3 := Real.neg_one_le_cos (Reference.angle small (toneFreq 0))
  rw [Reference.slotConfidence, h0, h1, slotEnergy_ones, slotEnergy_ones, Reference.ratio, if_neg (by nlinarith),
    div_lt_div_iff₀ (by nlinarith) (by norm_num)]
  nlinarith

theorem decided_zero {m : ℝ} {o : Prop} (h1 : 0 < m → o) (h2 : m < 0 → ¬ o) : Reference.Decided 0 m o :=
  ⟨fun h => h1 (by simpa using h), fun h => h2 (by simpa using h)⟩

theorem roughError_eq (c : Comparison) (src : Reference.Source) :
    roughError c src = Codebook.errorBound small src ∨ src = .capture ones ∧ roughError c src = 0 ∨
      src = .capture zeros ∧ roughError c src = 0 ∨
      src = .capture quarters ∧ (c = .onset ∨ c = .absFloor) ∧ roughError c src = 0 := by
  unfold roughError
  split
  · next h => rcases h with rfl | rfl | ⟨rfl, h⟩ <;> simp [*]
  · exact .inl rfl

theorem roughError_other {c : Comparison} (hc : ¬ (c = .onset ∨ c = .absFloor)) (src : Reference.Source) :
    roughError c src = Codebook.errorBound small src ∨ src = .capture ones ∧ roughError c src = 0 ∨
      src = .capture zeros ∧ roughError c src = 0 := by
  have := roughError_eq c src
  tauto

theorem windowEnergy_ones {w : ℕ} (h : w + 1 ≤ 4) :
    Reference.windowEnergy small [1, 1, 1, 1] w = 1 ∧
      windowEnergyOf rough (window [1, 1, 1, 1] w small.onsetWinN) = 1 := by
  have : w = 0 ∨ w = 1 ∨ w = 2 ∨ w = 3 := by omega
  rcases this with rfl | rfl | rfl | rfl <;>
    exact ⟨by simp [Reference.windowEnergy, Reference.meanSquare, window, small], by decide +kernel⟩

theorem windowEnergy_zeros {w : ℕ} (h : w + 1 ≤ 4) :
    Reference.windowEnergy small [0, 0, 0, 0] w = 0 ∧
      windowEnergyOf rough (window [0, 0, 0, 0] w small.onsetWinN) = 0 := by
  have : w = 0 ∨ w = 1 ∨ w = 2 ∨ w = 3 := by omega
  rcases this with rfl | rfl | rfl | rfl <;>
    exact ⟨by simp [Reference.windowEnergy, Reference.meanSquare, window, small], by decide +kernel⟩

theorem windowEnergy_quarters {w : ℕ} (h : w + 1 ≤ 4) :
    Reference.windowEnergy small [1 / 4, 1 / 4, 1 / 4, 1 / 4] w = 1 / 16 ∧
      windowEnergyOf rough (window [1 / 4, 1 / 4, 1 / 4, 1 / 4] w small.onsetWinN) = 1 / 16 := by
  have : w = 0 ∨ w = 1 ∨ w = 2 ∨ w = 3 := by omega
  rcases this with rfl | rfl | rfl | rfl <;>
    exact ⟨by norm_num [Reference.windowEnergy, Reference.meanSquare, window, small], by decide +kernel⟩

theorem noiseFloor_quarters : Reference.noiseFloor small [1 / 4, 1 / 4, 1 / 4, 1 / 4] = 1 / 16 := by
  norm_num [Reference.noiseFloor, Reference.meanSquare, small]

theorem noiseFloor_ones : Reference.noiseFloor small [1, 1, 1, 1] = 1 := by
  simp [Reference.noiseFloor, Reference.meanSquare, small]

theorem score_ones : Reference.score small [1, 1, 1, 1] 0 = 1 := by
  have e : ∀ f, f ≤ 4500 → 0 < Reference.energy small [1, 1] f := by
    intro f hf
    have hp := Real.pi_pos
    have h : (f : ℝ) ≤ 4500 := by exact_mod_cast hf
    have h0 : (0 : ℝ) ≤ f := Nat.cast_nonneg f
    have a : 0 ≤ Reference.angle small f ∧ Reference.angle small f ≤ Real.pi / 2 := by
      simp only [Reference.angle, small]
      constructor
      · positivity
      · push_cast
        rw [div_le_div_iff₀ (by norm_num) (by norm_num)]
        nlinarith
    rw [energy_pair]
    linarith [Real.cos_nonneg_of_neg_pi_div_two_le_of_le (by linarith) a.2]
  have e1 := e small.fLo (by decide)
  have e2 := e small.fHi (by decide)
  have w : window ([1, 1, 1, 1] : List ℝ) 0 2 = [1, 1] ∧ window ([1, 1, 1, 1] : List ℝ) 2 2 = [1, 1] := by simp [window]
  have n : small.preN = 2 ∧ small.preCycles = 1 := by decide
  simp only [Reference.score, n, List.range_one, List.map_cons, List.map_nil, List.sum_cons, List.sum_nil, mul_zero, zero_mul,
    add_zero, zero_add, w, Reference.ratio]
  rw [if_neg (by linarith), if_neg (by linarith)]
  field_simp
  ring

theorem energy_zeros (p : Params) {ys : List ℝ} (f : ℕ) (h : ∀ y ∈ ys, y = 0) : Reference.energy p ys f = 0 := by
  have : ∀ n, Reference.fourierSum (Reference.angle p f) n ys = 0 := by
    induction ys with
    | nil => intro n; rfl
    | cons y ys ih =>
      intro n
      rw [Reference.fourierSum, h y (by simp), ih (fun y hy => h y (by simp [hy]))]
      simp
  simp [Reference.energy, this]

theorem score_zeros : Reference.score small [0, 0, 0, 0] 0 = 0 := by
  have w : window ([0, 0, 0, 0] : List ℝ) 0 2 = [0, 0] ∧ window ([0, 0, 0, 0] : List ℝ) 2 2 = [0, 0] := by simp [window]
  have n : small.preN = 2 ∧ small.preCycles = 1 := by decide
  have e : ∀ f, Reference.energy small [0, 0] f = 0 := fun f => energy_zeros _ f (by simp)
  simp [Reference.score, n, w, e, Reference.ratio]

theorem slotEnergy_zeros (k : ℕ) : Reference.slotEnergy small [0, 0, 0, 0] 0 k = 0 := by
  refine energy_zeros _ _ ?_
  simp [small, Params.windowN, window, Reference.hannWindowed]

theorem confidence_zeros : Reference.slotConfidence small [0, 0, 0, 0] 0 = 0 := by
  simp [Reference.slotConfidence, slotEnergy_zeros, Reference.ratio]

theorem bin_ones : ∀ k, k < 16 → ∀ l, l < 16 →
    (binEnergy rough (window [1, 1, 1, 1] 0 small.windowN) k < binEnergy rough (window [1, 1, 1, 1] 0 small.windowN) l ↔ l < k) := by
  decide +kernel

/-- Rule R12 for `rough`: no error on the captures. -/
theorem rough_margins : Reference.MarginsDecide small rough roughError := by
  have hE := Codebook.marginsDecide_errorBound small rough
  refine ⟨?_, ?_, ?_, ?_, ?_, ?_, ?_⟩
  · intro src hw
    rcases roughError_other (c := .silence) (by decide) src with h | ⟨rfl, h⟩ | ⟨rfl, h⟩ <;> rw [h]
    · exact hE.silence src hw
    · refine decided_zero (fun _ => by decide +kernel) fun h => absurd h (not_lt.mpr ?_)
      have h : f32Value 0x3F800000#32 = 1 := by decide +kernel
      simp [Reference.Source.exact, Reference.samples, ones, h, Reference.peak, small, List.replicate]
      norm_num
    · refine decided_zero (fun h => absurd h (not_lt.mpr ?_)) fun _ => by decide +kernel
      have h : f32Value 0#32 = 0 := by decide +kernel
      simp [Reference.Source.exact, Reference.samples, zeros, h, Reference.peak, small, List.replicate]
  · intro src hw w hb
    rcases roughError_eq .onset src with h | ⟨rfl, h⟩ | ⟨rfl, h⟩ | ⟨rfl, -, h⟩ <;> rw [h]
    · exact hE.onset src hw w hb
    · rw [exact_ones, block_ones, (windowEnergy_ones hb).1, (windowEnergy_ones hb).2, noiseFloor_ones]
      exact decided_zero (fun h => absurd h (by norm_num)) fun _ => by decide +kernel
    · rw [exact_zeros, block_zeros, (windowEnergy_zeros hb).1, (windowEnergy_zeros hb).2]
      refine decided_zero (fun h => absurd h (not_lt.mpr ?_)) fun _ => by decide +kernel
      simp [Reference.noiseFloor, Reference.meanSquare, small]
    · rw [exact_quarters, block_quarters, (windowEnergy_quarters hb).1, (windowEnergy_quarters hb).2, noiseFloor_quarters]
      exact decided_zero (fun h => absurd h (by norm_num)) fun _ => by decide +kernel
  · intro src hw w hb
    rcases roughError_eq .absFloor src with h | ⟨rfl, h⟩ | ⟨rfl, h⟩ | ⟨rfl, -, h⟩ <;> rw [h]
    · exact hE.absFloor src hw w hb
    · rw [exact_ones, block_ones, (windowEnergy_ones hb).1, (windowEnergy_ones hb).2]
      exact decided_zero (fun _ => by decide +kernel) fun h => absurd h (by norm_num [small])
    · rw [exact_zeros, block_zeros, (windowEnergy_zeros hb).1, (windowEnergy_zeros hb).2]
      exact decided_zero (fun h => absurd h (by norm_num [small])) fun _ => by decide +kernel
    · rw [exact_quarters, block_quarters, (windowEnergy_quarters hb).1, (windowEnergy_quarters hb).2]
      exact decided_zero (fun h => absurd h (by norm_num [small])) fun _ => by decide +kernel
  · intro src hw q q' hq hq'
    rcases roughError_other (c := .score) (by decide) src with h | ⟨rfl, h⟩ | ⟨rfl, h⟩
    · rw [h]; exact hE.score src hw q q' hq hq'
    all_goals
      have hq : q + 4 ≤ 4 := hq
      have hq' : q' + 4 ≤ 4 := hq'
      have : q = q' := by omega
      subst this
      rw [h]
      exact decided_zero (fun h => absurd h (by simp)) fun h => absurd h (by simp)
  · intro src hw q hq
    rcases roughError_other (c := .acceptance) (by decide) src with h | ⟨rfl, h⟩ | ⟨rfl, h⟩
    · rw [h]; exact hE.acceptance src hw q hq
    all_goals
      have hq : q + 4 ≤ 4 := hq
      have : q = 0 := by omega
      subst this
    · rw [h, exact_ones, block_ones, score_ones]
      exact decided_zero (fun _ => by decide +kernel) fun h => absurd h (by norm_num [small])
    · rw [h, exact_zeros, block_zeros, score_zeros]
      exact decided_zero (fun h => absurd h (by norm_num [small])) fun _ => by decide +kernel
  · intro src hw a k l ha hk hl
    rcases roughError_other (c := .bin) (by decide) src with h | ⟨rfl, h⟩ | ⟨rfl, h⟩
    · rw [h]; exact hE.bin src hw a k l ha hk hl
    all_goals
      have ha : a + 4 ≤ 4 := ha
      have : a = 0 := by omega
      subst this
    · rw [h, exact_ones, block_ones, bin_ones k hk l hl]
      refine decided_zero (fun h => ?_) fun h hn => ?_
      · by_contra hc
        rcases Nat.lt_or_ge k l with hkl | hkl
        · linarith [slotEnergy_lt hl hkl]
        · have : k = l := by omega
          subst this
          simp at h
      · linarith [slotEnergy_lt hk hn]
    · rw [h, exact_zeros, slotEnergy_zeros, slotEnergy_zeros]
      exact decided_zero (fun h => absurd h (by simp)) fun h => absurd h (by simp)
  · intro src hw a ha
    rcases roughError_other (c := .confidence) (by decide) src with h | ⟨rfl, h⟩ | ⟨rfl, h⟩
    · rw [h]; exact hE.confidence src hw a ha
    all_goals
      have ha : a + 4 ≤ 4 := ha
      have : a = 0 := by omega
      subst this
    · rw [h, exact_ones, block_ones]
      exact decided_zero (fun _ => by decide +kernel) fun h => absurd h (by linarith [confidence_ones])
    · rw [h, exact_zeros, block_zeros, confidence_zeros]
      exact decided_zero (fun _ => by decide +kernel) fun h => absurd h (by norm_num)

/-- Four ones meet the hypotheses of a clear onset, of the located sync, the slicer and the flag, four quarters those of no
onset, four zeros those of the fallback; and a transmission is a source of finite samples. -/
theorem witness_ClearMarginsDecideAsExact :
    small.Valid ∧ Reference.MarginsDecide small rough roughError ∧
    (∀ src ∈ [Reference.Source.capture ones, .capture quarters, .capture zeros, .transmission 3 []],
      ∀ w ∈ src.words small rough, f32NonFinite w = false) ∧
    (let src := Reference.Source.capture ones
     let exact := Reference.exactCopy small src
     0 + small.onsetWinN ≤ ones.length ∧
     (roughError .absFloor src : ℝ) < Reference.windowEnergy small exact 0 - small.absFloor ∧
     0 ∈ candidates small 0 ones.length ∧ (∀ q' ∈ candidates small 0 ones.length, q' = 0) ∧
     (roughError .acceptance src : ℝ) < |Reference.score small exact 0 - 40 / 100 * (2 * small.preCycles)| ∧
     0 < Reference.score small exact 0 - 40 / 100 * (2 * small.preCycles) ∧
     0 + small.windowN ≤ ones.length ∧
     (∀ k, k < 16 → k ≠ 0 →
        (roughError .bin src : ℝ) < Reference.slotEnergy small exact 0 0 - Reference.slotEnergy small exact 0 k) ∧
     (roughError .confidence src : ℝ) < |55 / 100 - Reference.slotConfidence small exact 0|) ∧
    (let src := Reference.Source.capture quarters
     let exact := Reference.exactCopy small src
     ∀ k, k * small.onsetStrideN + small.onsetWinN ≤ quarters.length →
       Reference.windowEnergy small exact (k * small.onsetStrideN) - 10 * Reference.noiseFloor small exact <
         -(roughError .onset src : ℝ) ∧
       Reference.windowEnergy small exact (k * small.onsetStrideN) - small.absFloor < -(roughError .absFloor src : ℝ)) ∧
    (let src := Reference.Source.capture zeros
     let exact := Reference.exactCopy small src
     0 ∈ candidates small 0 zeros.length ∧ (∀ q' ∈ candidates small 0 zeros.length, q' = 0) ∧
     (roughError .acceptance src : ℝ) < |Reference.score small exact 0 - 40 / 100 * (2 * small.preCycles)| ∧
     Reference.score small exact 0 - 40 / 100 * (2 * small.preCycles) < 0) := by
  have r1 : ∀ c, roughError c (.capture ones) = 0 := fun c => if_pos (.inl rfl)
  have r0 : ∀ c, roughError c (.capture zeros) = 0 := fun c => if_pos (.inr (.inl rfl))
  have rq : ∀ c, c = .onset ∨ c = .absFloor → roughError c (.capture quarters) = 0 :=
    fun c h => if_pos (.inr (.inr ⟨rfl, h⟩))
  have c1 : (small.preCycles : ℝ) = 1 := by norm_num [small]
  have fin : ∀ src ∈ [Reference.Source.capture ones, .capture quarters, .capture zeros, .transmission 3 []],
      (src.words small rough).all (fun w => !f32NonFinite w) = true := by decide +kernel
  refine ⟨small_valid, rough_margins, fun src hs w hw => by simpa using List.all_eq_true.mp (fin src hs) w hw, ?_, ?_, ?_⟩
  · simp only [exact_ones, r1, score_ones, c1]
    refine ⟨by decide, ?_, by decide +kernel, by decide +kernel, by norm_num, by norm_num, by decide, ?_, ?_⟩
    · rw [(windowEnergy_ones (by norm_num)).1]
      norm_num [small]
    · intro k hk hne
      have := slotEnergy_lt hk (Nat.pos_of_ne_zero hne)
      simpa using this
    · rw [Rat.cast_zero, abs_pos]
      linarith [confidence_ones]
  · simp only [exact_quarters, rq _ (.inl rfl), rq _ (.inr rfl), noiseFloor_quarters]
    intro k hk
    have hk : k * 1 + 1 ≤ 4 := hk
    rw [show small.onsetStrideN = 1 by rfl, (windowEnergy_quarters hk).1]
    norm_num [small]
  · simp only [exact_zeros, r0, score_zeros, c1]
    exact ⟨by decide +kernel, by decide +kernel, by norm_num, by norm_num⟩

end Sys2Proof.Tests
end

section
/-!
PROOFS. Detection against the exact semantics (00_scope.md rule R12): the first maximum of a list, what the onset search
and the synchronisation answer, and the comparisons that a clear margin decides (statements O37 and O39).
-/

namespace Sys2Proof

/-! ### Rule R9, one constraint at a time -/

theorem Params.Valid.onsetStrideN_pos {p : Params} (h : p.Valid) : 1 ≤ p.onsetStrideN := by
  obtain ⟨⟨-, -, -, -, -, -, -, -, stride, -⟩, -⟩ := h
  exact stride

theorem Params.Valid.preN_pos {p : Params} (h : p.Valid) : 1 ≤ p.preN := by
  obtain ⟨⟨-, -, preN, -⟩, -⟩ := h
  exact preN

theorem Params.Valid.postN_pos {p : Params} (h : p.Valid) : 1 ≤ p.postN := by
  obtain ⟨⟨-, -, -, postN, -⟩, -⟩ := h
  exact postN

theorem Params.Valid.toneN_pos {p : Params} (h : p.Valid) : 1 ≤ p.toneN := by
  obtain ⟨⟨-, toneN, -⟩, -⟩ := h
  exact toneN

theorem Params.Valid.searchStepN_pos {p : Params} (h : p.Valid) : 1 ≤ p.searchStepN := by
  obtain ⟨⟨-, -, -, -, -, -, -, -, -, step⟩, -⟩ := h
  exact step

end Sys2Proof

namespace Sys2Proof.Machine

/-! ### The first maximum of a list -/

theorem mem_of_firstMax {α : Type} [LinearOrder α] {f : Nat → α} {ks : List Nat} {m : Nat}
    (h : firstMax f ks = some m) : m ∈ ks := by
  obtain ⟨before, after, rfl, -, -⟩ := firstMax_eq_some h
  simp

theorem le_of_firstMax {α : Type} [LinearOrder α] {f : Nat → α} {ks : List Nat} {m k : Nat}
    (h : firstMax f ks = some m) (hk : k ∈ ks) : f k ≤ f m := by
  obtain ⟨before, after, rfl, hb, ha⟩ := firstMax_eq_some h
  rcases List.mem_append.mp hk with hk | hk
  · exact (hb k hk).le
  · rcases List.mem_cons.mp hk with rfl | hk
    · exact le_rfl
    · exact ha k hk

/-- On a rising list the first maximum is the least index at which the maximum is taken. -/
theorem firstMax_of_least {α : Type} [LinearOrder α] {f : Nat → α} {ks : List Nat} {m : Nat}
    (rising : ks.Pairwise (· < ·)) (hm : m ∈ ks) (hle : ∀ k ∈ ks, f k ≤ f m) (hlt : ∀ k ∈ ks, k < m → f k < f m) :
    firstMax f ks = some m := by
  obtain ⟨q, hq⟩ := firstMax_isSome f (List.ne_nil_of_mem hm)
  have hqm : ¬ q < m := fun h => (le_of_firstMax hq hm).not_gt (hlt q (mem_of_firstMax hq) h)
  have hmq : ¬ m < q := by
    obtain ⟨before, after, rfl, hb, -⟩ := firstMax_eq_some hq
    intro h
    rcases List.mem_append.mp hm with hm | hm
    · exact (hle q (by simp)).not_gt (hb m hm)
    · obtain ⟨hrest, -⟩ := List.pairwise_cons.mp (List.pairwise_append.mp rising).2.1
      rcases List.mem_cons.mp hm with rfl | hm
      · exact lt_irrefl _ h
      · exact absurd h (hrest m hm).not_gt
  rw [hq, show q = m by omega]

/-- An index ahead of every other of the list is its first maximum, whatever the order of the list. -/
theorem firstMax_of_strict {α : Type} [LinearOrder α] {f : Nat → α} {ks : List Nat} {m : Nat} (hm : m ∈ ks)
    (h : ∀ k ∈ ks, k ≠ m → f k < f m) : firstMax f ks = some m := by
  obtain ⟨q, hq⟩ := firstMax_isSome f (List.ne_nil_of_mem hm)
  have hqm : q = m := by
    by_contra hne
    exact (le_of_firstMax hq hm).not_gt (h q (mem_of_firstMax hq) hne)
  rw [hq, hqm]

/-- The slicer takes a bin ahead of every other (rule R372). -/
theorem sliceNibble_of_strict {num : Numerics} {ys : List Rat} {b : Nat} (hb : b < 16)
    (h : ∀ k, k < 16 → k ≠ b → binEnergy num ys k < binEnergy num ys b) : sliceNibble num ys = b := by
  rw [sliceNibble, firstMax_of_strict (List.mem_range.mpr hb) fun k hk => h k (List.mem_range.mp hk)]
  rfl

/-! ### Onset and synchronisation -/

/-- The onset condition is that one of the two thresholds is exceeded (rule R361). -/
theorem isOnset_iff {p : Params} {num : Numerics} {xs : List Rat} {w : Nat} :
    isOnset p num xs w = true ↔
      onsetK * noiseFloor p num xs < windowEnergyOf num (window xs w p.onsetWinN) ∨
        p.absFloor < windowEnergyOf num (window xs w p.onsetWinN) := by
  simp [isOnset]

/-- The onset search takes the strides in turn, as long as their windows lie in the capture (rules R360, R361). -/
theorem onsetOf_eq (p : Params) (num : Numerics) (xs : List Rat) :
    onsetOf p num xs =
      ((List.range (xs.length + 1)).find? fun k =>
        decide (k * p.onsetStrideN + p.onsetWinN ≤ xs.length ∧ isOnset p num xs (k * p.onsetStrideN) = true)).map
          (· * p.onsetStrideN) := by
  simp [onsetOf, onsetStarts, List.find?_filter, List.find?_map]

/-- The first window that meets the onset condition is the onset. -/
theorem onsetOf_eq_some {p : Params} {num : Numerics} {xs : List Rat} {k : Nat} (hs : 1 ≤ p.onsetStrideN)
    (hk : k * p.onsetStrideN + p.onsetWinN ≤ xs.length) (ho : isOnset p num xs (k * p.onsetStrideN) = true)
    (hlt : ∀ j, j < k → j * p.onsetStrideN + p.onsetWinN ≤ xs.length →
      isOnset p num xs (j * p.onsetStrideN) = false) :
    onsetOf p num xs = some (k * p.onsetStrideN) := by
  have hkl : k ≤ k * p.onsetStrideN := Nat.le_mul_of_pos_right k hs
  have hfind : (List.range (xs.length + 1)).find? (fun k =>
      decide (k * p.onsetStrideN + p.onsetWinN ≤ xs.length ∧ isOnset p num xs (k * p.onsetStrideN) = true)) =
      some k := by
    refine List.find?_range_eq_some.mpr ⟨by simp [hk, ho], List.mem_range.mpr (by omega), fun j hj => ?_⟩
    by_cases hfit : j * p.onsetStrideN + p.onsetWinN ≤ xs.length
    · simp [hlt j hj hfit]
    · simp [hfit]
  rw [onsetOf_eq, hfind]
  rfl

/-- There is no onset where no window meets the onset condition. -/
theorem onsetOf_eq_none {p : Params} {num : Numerics} {xs : List Rat}
    (h : ∀ k, k * p.onsetStrideN + p.onsetWinN ≤ xs.length → isOnset p num xs (k * p.onsetStrideN) = false) :
    onsetOf p num xs = none := by
  rw [onsetOf_eq, Option.map_eq_none_iff, List.find?_eq_none]
  intro k _
  by_cases hfit : k * p.onsetStrideN + p.onsetWinN ≤ xs.length
  · simp [h k hfit]
  · simp [hfit]

/-- A candidate's preamble lies in the capture (rule R364). -/
theorem fits_of_mem_candidates {p : Params} {onset len q : Nat} (h : q ∈ candidates p onset len) :
    q + p.preLen ≤ len := by
  rw [candidates, List.mem_filter] at h
  simpa using h.2

/-- What the synchronisation answers for its best candidate (rules R367, R368). -/
theorem synchronise_of_best {p : Params} {num : Numerics} {xs : List Rat} {onset q : Nat}
    (h : bestCandidate p num xs onset = some q) :
    synchronise p num xs onset =
      if preThresh * (2 * p.preCycles : Nat) ≤ candidateScore p num xs q then
        ⟨.located, q + p.preLen, candidateScore p num xs q⟩
      else ⟨.fallback, onset + p.preLen, candidateScore p num xs q⟩ := by
  rw [synchronise, h]

theorem confThresh_eq : confThresh = mkRat 55 100 := by decide +kernel

end Sys2Proof.Machine

namespace Sys2Proof.Reference

open Sys2Proof.Machine

/-- A comparison whose exact margin is larger than the error, on whichever side, comes out as the exact one. -/
theorem Decided.iff_pos {e : ℚ} {margin : ℝ} {outcome : Prop} (h : Decided e margin outcome)
    (hm : (e : ℝ) < |margin|) : outcome ↔ 0 < margin := by
  obtain ⟨yes, no⟩ := h
  rcases lt_abs.mp hm with h | h
  · have ho := yes h
    refine iff_of_true ho (lt_of_not_ge fun hneg => ?_)
    exact no (by linarith) ho
  · have ho := no (by linarith)
    refine iff_of_false ho fun hpos => ?_
    exact ho (yes (by linarith))

end Sys2Proof.Reference

namespace Sys2Proof

open Sys2Proof.Machine Sys2Proof.Reference

/-- Settles O37: each other bin's internal energy is less than bin `b`'s, so `b` is the first maximum. -/
theorem slicerFollowsAClearMargin : Obligations.SlicerFollowsAClearMargin := by
  intro num ys exact δ b hb close margin
  exact sliceNibble_of_strict hb fun k hk hne => lt_of_close (close k hk) (close b hb) (margin k hk hne)

section

variable {p : Params} {num : Numerics} {err : Comparison → Source → Rat} {src : Source}

/-- A window above one of the thresholds by more than the error meets the onset condition. -/
theorem isOnset_of_loud (hm : MarginsDecide p num err) (finite : ∀ w ∈ src.words p num, f32NonFinite w = false)
    {w : Nat} (fits : w + p.onsetWinN ≤ (src.words p num).length)
    (loud : (err .onset src : ℝ) <
        Reference.windowEnergy p (exactCopy p src) w - 10 * Reference.noiseFloor p (exactCopy p src) ∨
      (err .absFloor src : ℝ) < Reference.windowEnergy p (exactCopy p src) w - p.absFloor) :
    isOnset p num (blockCopy p num src) w = true :=
  isOnset_iff.mpr (loud.imp (hm.onset src finite w fits).1 (hm.absFloor src finite w fits).1)

/-- A window below both thresholds by more than the error does not. -/
theorem isOnset_of_quiet (hm : MarginsDecide p num err) (finite : ∀ w ∈ src.words p num, f32NonFinite w = false)
    {w : Nat} (fits : w + p.onsetWinN ≤ (src.words p num).length)
    (belowNoise : Reference.windowEnergy p (exactCopy p src) w - 10 * Reference.noiseFloor p (exactCopy p src) <
      -(err .onset src : ℝ))
    (belowFloor : Reference.windowEnergy p (exactCopy p src) w - p.absFloor < -(err .absFloor src : ℝ)) :
    isOnset p num (blockCopy p num src) w = false := by
  rw [← Bool.not_eq_true, isOnset_iff, not_or]
  exact ⟨(hm.onset src finite w fits).2 belowNoise, (hm.absFloor src finite w fits).2 belowFloor⟩

/-- A candidate whose exact score is ahead of every other's by more than the error is the best candidate. -/
theorem bestCandidate_of_clear (hm : MarginsDecide p num err) (finite : ∀ w ∈ src.words p num, f32NonFinite w = false)
    {onset q : Nat} (hq : q ∈ candidates p onset (src.words p num).length)
    (clear : ∀ q' ∈ candidates p onset (src.words p num).length, q' ≠ q →
      (err .score src : ℝ) < Reference.score p (exactCopy p src) q - Reference.score p (exactCopy p src) q') :
    bestCandidate p num (blockCopy p num src) onset = some q := by
  rw [bestCandidate, length_blockCopy]
  refine firstMax_of_strict hq fun q' hq' hne => ?_
  exact (hm.score src finite q' q (fits_of_mem_candidates hq') (fits_of_mem_candidates hq)).1 (clear q' hq' hne)

/-- A best score clear of the threshold is accepted exactly when the exact score is above it. -/
theorem accepted_iff (hm : MarginsDecide p num err) (finite : ∀ w ∈ src.words p num, f32NonFinite w = false) {q : Nat}
    (fits : q + p.preLen ≤ (src.words p num).length)
    (clear : (err .acceptance src : ℝ) <
      |Reference.score p (exactCopy p src) q - 40 / 100 * (2 * p.preCycles)|) :
    preThresh * (2 * p.preCycles : Nat) ≤ candidateScore p num (blockCopy p num src) q ↔
      0 < Reference.score p (exactCopy p src) q - 40 / 100 * (2 * p.preCycles) := by
  rw [show (40 / 100 : ℝ) = 2 / 5 by norm_num] at clear ⊢
  exact (hm.acceptance src finite q fits).iff_pos clear

end

/-- Settles O39: each clause is one or more comparisons of rule R12, each decided by its margin. -/
theorem clearMarginsDecideAsExact : Obligations.ClearMarginsDecideAsExact := by
  intro p num err valid hm src finite len xs exact overNoise overFloor over40 fits loud quiet
  have hlen : xs.length = len := length_blockCopy p num src
  have hstride : 1 ≤ p.onsetStrideN := valid.onsetStrideN_pos
  have quiet_isOnset : ∀ k, quiet k → k * p.onsetStrideN + p.onsetWinN ≤ xs.length →
      isOnset p num xs (k * p.onsetStrideN) = false := by
    intro k hquiet hfit
    rw [hlen] at hfit
    obtain ⟨belowNoise, belowFloor⟩ := hquiet hfit
    exact isOnset_of_quiet hm finite hfit belowNoise belowFloor
  refine ⟨?onset, ?noOnset, ?sync, ?bin, ?confidence⟩
  case onset =>
    intro k ⟨hfit, hloud⟩ hquiet
    exact onsetOf_eq_some hstride (hfit.trans_eq hlen.symm) (isOnset_of_loud hm finite hfit hloud)
      fun j hj => quiet_isOnset j (hquiet j hj)
  case noOnset =>
    intro hquiet
    exact onsetOf_eq_none fun k => quiet_isOnset k (hquiet k)
  case sync =>
    intro onset q hq clear clear40
    have hbest := synchronise_of_best (bestCandidate_of_clear hm finite hq clear)
    have haccept := accepted_iff hm finite (fits_of_mem_candidates hq) clear40
    constructor
    · intro habove
      rw [hbest, if_pos (haccept.mpr habove)]
      exact ⟨rfl, rfl⟩
    · intro hbelow
      rw [hbest, if_neg fun h => (haccept.mp h).not_gt hbelow]
      exact ⟨rfl, rfl⟩
  case bin =>
    intro a b hfit hb clear
    exact sliceNibble_of_strict hb fun k hk hne => (hm.bin src finite a k b hfit hk hb).1 (clear k hk hne)
  case confidence =>
    intro a hfit clear
    rw [show (55 / 100 : ℝ) = 11 / 20 by norm_num] at clear ⊢
    rw [← confThresh_eq, ← sub_pos (b := Reference.slotConfidence p exact a)]
    exact (hm.confidence src finite a hfit).iff_pos clear

end Sys2Proof
end

section
/-!
PROOFS. `round32` is rounding to the nearest binary32 value, ties to even (00_scope.md rule R12; statement O40). All
magnitudes are compared as integers: in units of 2^-149 the finite patterns are integers, and `n / d` times `d` is
`n * 2^149`. Near a value with grid exponent `e` the patterns are multiples of `2^e`, or too small to compete.
-/

namespace Sys2Proof.Machine

/-! ### The nearest integer to a quotient -/

theorem div_le_nearestEven (N D : Nat) : N / D ≤ nearestEven N D := by
  unfold nearestEven
  split
  · exact le_rfl
  · split <;> omega

theorem nearestEven_le (N D : Nat) : nearestEven N D ≤ N / D + 1 := by
  unfold nearestEven
  split
  · omega
  · split <;> omega

/-- The quotient is rounded by at most one half, and by one half only to an even integer. -/
theorem nearestEven_error {N D : Nat} (hD : 0 < D) :
    2 * |(nearestEven N D * D - N : Int)| ≤ D ∧
      (2 * |(nearestEven N D * D - N : Int)| = D → nearestEven N D % 2 = 0) := by
  have hdiv : (D * (N / D : Nat) + (N % D : Nat) : Int) = N := by exact_mod_cast Nat.div_add_mod N D
  have down : ((N / D : Nat) * D - N : Int) = -(N % D : Nat) := by linarith
  have up : ((N / D + 1 : Nat) * D - N : Int) = D - (N % D : Nat) := by push_cast at hdiv ⊢; linarith
  have hmod := Nat.mod_lt N hD
  unfold nearestEven
  split
  · rw [down, abs_neg, Nat.abs_cast]
    omega
  · split
    · rw [up, abs_of_nonneg (by omega)]
      omega
    · rcases Nat.mod_two_eq_zero_or_one (N / D) with h | h
      · rw [h, Nat.add_zero, down, abs_neg, Nat.abs_cast]
        omega
      · rw [h, up, abs_of_nonneg (by omega)]
        omega

/-- No multiple of `D` is nearer to `N` than the rounded one, and another one as near leaves it even. -/
theorem nearestEven_nearest {N D : Nat} (hD : 0 < D) (k : Int) :
    |(nearestEven N D * D - N : Int)| ≤ |k * D - N| ∧
      (k ≠ nearestEven N D → |k * D - N| = |(nearestEven N D * D - N : Int)| → nearestEven N D % 2 = 0) := by
  obtain ⟨herr, heven⟩ := nearestEven_error (N := N) hD
  rcases eq_or_ne k (nearestEven N D) with rfl | hk
  · exact ⟨le_rfl, fun h => absurd rfl h⟩
  have hstep : (D : Int) ≤ |(k - nearestEven N D) * D| := by
    rw [abs_mul, Nat.abs_cast]
    exact le_mul_of_one_le_left (Nat.cast_nonneg D) (Int.one_le_abs (sub_ne_zero.mpr hk))
  have htri := abs_sub (k * D - N : Int) (nearestEven N D * D - N)
  rw [show (k * D - N : Int) - (nearestEven N D * D - N) = (k - nearestEven N D) * D by ring] at htri
  exact ⟨by linarith, fun _ heq => heven (by linarith)⟩

/-! ### The patterns as integers -/

theorem f32Fraction_lt (w : Word) : f32Fraction w < 2 ^ 23 := (w.extractLsb' 0 23).isLt

/-- The integer a finite pattern stands for, in units of 2^-149 (rule R102). -/
def f32Integer (w : Word) : Int := if w.getLsbD 31 then -(f32Units w : Int) else f32Units w

theorem f32Value_eq (w : Word) : f32Value w = f32Integer w / 2 ^ 149 := by
  rw [f32Value, Rat.mkRat_eq_div, f32Integer]
  norm_num

theorem abs_f32Integer (w : Word) : |f32Integer w| = f32Units w := by
  unfold f32Integer
  split <;> simp

/-- A multiple of `2^e`, or an integer below the multiples of `2^e` that have 24 bits. -/
def OnGrid (e : Nat) (y : Int) : Prop := (∃ k : Int, y = k * 2 ^ e) ∨ y < 2 ^ (e + 23)

theorem f32Units_onGrid (w : Word) (e : Nat) : (∃ k : Nat, f32Units w = k * 2 ^ e) ∨ f32Units w < 2 ^ (e + 23) := by
  have hf := f32Fraction_lt w
  unfold f32Units
  split
  · exact .inr (hf.trans_le (Nat.pow_le_pow_right (by decide) (by omega)))
  · rcases Nat.lt_or_ge (f32Exponent w - 1) e with h | h
    · right
      calc (2 ^ 23 + f32Fraction w) * 2 ^ (f32Exponent w - 1)
          < 2 ^ 24 * 2 ^ (f32Exponent w - 1) := Nat.mul_lt_mul_of_pos_right (by omega) (by positivity)
        _ = 2 ^ (24 + (f32Exponent w - 1)) := (pow_add _ _ _).symm
        _ ≤ 2 ^ (e + 23) := Nat.pow_le_pow_right (by decide) (by omega)
    · left
      refine ⟨(2 ^ 23 + f32Fraction w) * 2 ^ (f32Exponent w - 1 - e), ?_⟩
      rw [mul_assoc, ← pow_add, Nat.sub_add_cancel h]

/-- Every pattern lies on every grid, with either sign. -/
theorem onGrid_of_abs {w : Word} {y : Int} (h : |y| = f32Units w) (e : Nat) : OnGrid e y := by
  rcases f32Units_onGrid w e with ⟨k, hk⟩ | hlt
  · left
    rcases abs_eq_abs.mp (h.trans (Nat.abs_cast _).symm) with hy | hy
    · exact ⟨k, by rw [hy, hk]; push_cast; rfl⟩
    · exact ⟨-k, by rw [hy, hk]; push_cast; ring⟩
  · right
    have hlt' : (f32Units w : Int) < 2 ^ (e + 23) := by exact_mod_cast hlt
    exact (le_abs_self y).trans_lt (h ▸ hlt')

/-! ### Rounding a magnitude -/

/-- The exponent of the grid on which the magnitude `n / d` is rounded. -/
def gridExponent (n d : Nat) : Nat := Nat.log2 (n * 2 ^ 149 / d) - 23

/-- The magnitude `n / d` as a multiple of the grid's step, rounded. -/
def gridMultiple (n d : Nat) : Nat := nearestEven (n * 2 ^ 149) (d * 2 ^ gridExponent n d)

theorem f32Magnitude_eq (n d : Nat) :
    f32Magnitude n d = min (gridExponent n d * 2 ^ 23 + gridMultiple n d) (255 * 2 ^ 23) := rfl

theorem lt_two_pow_gridExponent (n d : Nat) : n * 2 ^ 149 / d < 2 ^ (gridExponent n d + 24) :=
  Nat.lt_log2_self.trans_le (Nat.pow_le_pow_right (by decide) (by unfold gridExponent; omega))

theorem two_pow_gridExponent_le {n d : Nat} (h : gridExponent n d ≠ 0) :
    2 ^ (gridExponent n d + 23) ≤ n * 2 ^ 149 / d := by
  have hlog : gridExponent n d + 23 = Nat.log2 (n * 2 ^ 149 / d) := by unfold gridExponent at *; omega
  rw [hlog]
  refine Nat.log2_self_le fun h0 => ?_
  rw [h0] at hlog
  simp at hlog

theorem gridMultiple_le (n d : Nat) : gridMultiple n d ≤ 2 ^ 24 := by
  have hlt : n * 2 ^ 149 / (d * 2 ^ gridExponent n d) < 2 ^ 24 := by
    rw [← Nat.div_div_eq_div_mul]
    refine Nat.div_lt_of_lt_mul ?_
    rw [← pow_add]
    exact lt_two_pow_gridExponent n d
  have := nearestEven_le (n * 2 ^ 149) (d * 2 ^ gridExponent n d)
  unfold gridMultiple
  omega

theorem le_gridMultiple {n d : Nat} (h : gridExponent n d ≠ 0) : 2 ^ 23 ≤ gridMultiple n d := by
  refine le_trans ?_ (div_le_nearestEven (n * 2 ^ 149) (d * 2 ^ gridExponent n d))
  rw [← Nat.div_div_eq_div_mul, Nat.le_div_iff_mul_le (by positivity), ← pow_add, add_comm 23]
  exact two_pow_gridExponent_le h

theorem gridMultiple_error (n : Nat) {d : Nat} (hd : 0 < d) :
    2 * |(gridMultiple n d * (d * 2 ^ gridExponent n d : Nat) - (n * 2 ^ 149 : Nat) : Int)| ≤
        (d * 2 ^ gridExponent n d : Nat) ∧
      (2 * |(gridMultiple n d * (d * 2 ^ gridExponent n d : Nat) - (n * 2 ^ 149 : Nat) : Int)| =
          (d * 2 ^ gridExponent n d : Nat) → gridMultiple n d % 2 = 0) :=
  nearestEven_error (by positivity)

/-- The magnitude is rounded to a nearest integer of the grid, and to an even multiple where another is as near. -/
theorem gridMultiple_nearest {n d : Nat} (hd : 0 < d) {y : Int} (hy : OnGrid (gridExponent n d) y) :
    |(gridMultiple n d * 2 ^ gridExponent n d * d - n * 2 ^ 149 : Int)| ≤ |y * d - n * 2 ^ 149| ∧
      (y ≠ gridMultiple n d * 2 ^ gridExponent n d →
        |y * d - n * 2 ^ 149| = |(gridMultiple n d * 2 ^ gridExponent n d * d - n * 2 ^ 149 : Int)| →
        gridMultiple n d % 2 = 0) := by
  have hmultiple : ∀ k : Int, |(gridMultiple n d * 2 ^ gridExponent n d * d - n * 2 ^ 149 : Int)| ≤
      |k * 2 ^ gridExponent n d * d - n * 2 ^ 149| ∧ (k ≠ gridMultiple n d →
        |k * 2 ^ gridExponent n d * d - n * 2 ^ 149| =
          |(gridMultiple n d * 2 ^ gridExponent n d * d - n * 2 ^ 149 : Int)| → gridMultiple n d % 2 = 0) := by
    intro k
    have hnear := nearestEven_nearest (N := n * 2 ^ 149) (D := d * 2 ^ gridExponent n d) (by positivity) k
    push_cast [mul_comm (d : Int), ← mul_assoc] at hnear
    exact hnear
  have hbelow : gridExponent n d ≠ 0 → y < 2 ^ (gridExponent n d + 23) →
      |(gridMultiple n d * 2 ^ gridExponent n d * d - n * 2 ^ 149 : Int)| < |y * d - n * 2 ^ 149| := by
    intro he hlt
    have hfloor : ((2 ^ 23 * 2 ^ gridExponent n d * d : Int)) ≤ n * 2 ^ 149 := by
      have := (Nat.le_div_iff_mul_le hd).mp (two_pow_gridExponent_le he)
      rw [pow_add, mul_comm (2 ^ gridExponent n d)] at this
      exact_mod_cast this
    have hyd : y * d < 2 ^ 23 * 2 ^ gridExponent n d * d := by
      rw [← pow_add, add_comm 23]
      exact mul_lt_mul_of_pos_right hlt (by exact_mod_cast hd)
    refine (hmultiple (2 ^ 23)).1.trans_lt ?_
    rw [abs_of_nonpos (by linarith), abs_of_nonpos (by linarith)]
    linarith
  rcases hy with ⟨k, rfl⟩ | hlt
  · obtain ⟨hle, heven⟩ := hmultiple k
    exact ⟨hle, fun hne => heven fun hk => hne (by rw [hk])⟩
  · by_cases he : gridExponent n d = 0
    · have hy1 : y = y * 2 ^ gridExponent n d := by rw [he, pow_zero, mul_one]
      obtain ⟨hle, heven⟩ := hmultiple y
      rw [← hy1] at hle heven
      exact ⟨hle, fun hne => heven fun hk => hne (by rw [hy1, hk])⟩
    · have hfar := hbelow he hlt
      exact ⟨hfar.le, fun _ heq => absurd heq hfar.ne'⟩

/-! ### The finite range -/

/-- On the last grid, 2^24 steps are reached exactly from the midpoint below them on: the multiple below is odd. -/
theorem gridMultiple_lt_iff {n d : Nat} (hd : 0 < d) (he : gridExponent n d = 253) :
    gridMultiple n d < 2 ^ 24 ↔ n * 2 ^ 149 < (2 ^ 25 - 1) * (2 ^ 252 * d) := by
  obtain ⟨herr, heven⟩ := gridMultiple_error n hd
  have hq := gridMultiple_le n d
  have hstep : d * 2 ^ gridExponent n d = 2 * (2 ^ 252 * d) := by rw [he]; ring
  have hP : 0 < 2 ^ 252 * d := by positivity
  rw [hstep] at herr heven
  generalize 2 ^ 252 * d = P at *
  generalize n * 2 ^ 149 = N at *
  generalize gridMultiple n d = q at *
  push_cast at herr heven
  have hle := neg_abs_le ((q : Int) * (2 * P) - N)
  have hge := le_abs_self ((q : Int) * (2 * P) - N)
  constructor
  · intro hlt
    by_contra hN
    have hN' : ((2 ^ 25 - 1) * P : Int) ≤ N := by omega
    have hqP : (q : Int) * P ≤ (2 ^ 24 - 1) * P :=
      mul_le_mul_of_nonneg_right (by omega) (Nat.cast_nonneg P)
    have hq' := heven (by linarith)
    have hq2 : (q : Int) * P ≤ (2 ^ 24 - 2) * P :=
      mul_le_mul_of_nonneg_right (by omega) (Nat.cast_nonneg P)
    have : (0 : Int) < P := by exact_mod_cast hP
    linarith
  · intro hN
    by_contra hlt
    have hq' : (q : Int) = 2 ^ 24 := by omega
    have hN' : (N : Int) < (2 ^ 25 - 1) * P := by omega
    rw [hq'] at hle hge herr
    linarith

/-- A magnitude below 2^128 - 2^103 rounds to a finite pattern, any other to an infinity. -/
theorem gridPattern_lt_iff {n d : Nat} (hd : 0 < d) :
    gridExponent n d * 2 ^ 23 + gridMultiple n d < 255 * 2 ^ 23 ↔ n * 2 ^ 149 < (2 ^ 25 - 1) * (2 ^ 252 * d) := by
  rcases Nat.lt_trichotomy (gridExponent n d) 253 with he | he | he
  · refine iff_of_true (by have := gridMultiple_le n d; omega) ?_
    have hpow : 2 ^ (gridExponent n d + 24) ≤ 2 ^ 24 * 2 ^ 252 :=
      (Nat.pow_le_pow_right (by decide) (by omega)).trans_eq (pow_add 2 24 252)
    have hlt := (Nat.div_lt_iff_lt_mul hd).mp ((lt_two_pow_gridExponent n d).trans_le hpow)
    rw [mul_assoc] at hlt
    exact hlt.trans_le (Nat.mul_le_mul_right _ (by norm_num))
  · rw [← gridMultiple_lt_iff hd he, he]
    omega
  · have hq := le_gridMultiple (n := n) (d := d) (by omega)
    refine iff_of_false (by omega) (not_lt.mpr ?_)
    have hpow : 2 ^ 25 * 2 ^ 252 ≤ 2 ^ (gridExponent n d + 23) := by
      rw [← pow_add]
      gcongr 2 ^ ?_
      · decide
      · omega
    have hge := (Nat.le_div_iff_mul_le hd).mp (hpow.trans (two_pow_gridExponent_le (by omega)))
    rw [mul_assoc] at hge
    exact (Nat.mul_le_mul_right _ (by norm_num)).trans hge

/-! ### The pattern of a rounded value -/

theorem f32Fraction_ofNat (x : Nat) : f32Fraction (BitVec.ofNat 32 x) = x % 2 ^ 23 := by
  simp only [f32Fraction, BitVec.extractLsb'_toNat, BitVec.toNat_ofNat, Nat.shiftRight_zero]
  omega

theorem f32Exponent_ofNat (x : Nat) : f32Exponent (BitVec.ofNat 32 x) = x / 2 ^ 23 % 2 ^ 8 := by
  simp only [f32Exponent, BitVec.extractLsb'_toNat, BitVec.toNat_ofNat, Nat.shiftRight_eq_div_pow]
  omega

theorem f32Sign_ofNat (x : Nat) : (BitVec.ofNat 32 x).getLsbD 31 = decide (x / 2 ^ 31 % 2 = 1) := by
  rw [BitVec.getLsbD, BitVec.toNat_ofNat, Nat.testBit_eq_decide_div_mod_eq, decide_eq_decide]
  omega

/-- The fields of pattern number `m` with the sign bit of `r` (rule R102). -/
theorem fields_of_pattern {r : Rat} {m : Nat} {w : Word} (hm : m < 2 ^ 31)
    (hw : w = BitVec.ofNat 32 ((if r < 0 then 2 ^ 31 else 0) + m)) :
    f32Fraction w = m % 2 ^ 23 ∧ f32Exponent w = m / 2 ^ 23 ∧ w.getLsbD 31 = decide (r < 0) := by
  subst hw
  simp only [f32Fraction_ofNat, f32Exponent_ofNat, f32Sign_ofNat]
  by_cases h : r < 0
  · simp only [h, if_true, decide_true, decide_eq_true_eq]
    omega
  · simp only [h, if_false, decide_false, decide_eq_false_iff_not]
    omega

/-- Pattern number `e * 2^23 + q` stands for `q * 2^e`: a carry out of the fraction goes into the exponent. -/
theorem f32Units_of_pattern {w : Word} {e q : Nat} (hq : q ≤ 2 ^ 24) (he : e ≠ 0 → 2 ^ 23 ≤ q)
    (hfraction : f32Fraction w = (e * 2 ^ 23 + q) % 2 ^ 23) (hexponent : f32Exponent w = (e * 2 ^ 23 + q) / 2 ^ 23) :
    f32Units w = q * 2 ^ e := by
  rcases Nat.lt_or_ge q (2 ^ 23) with hlow | hhigh
  · have he0 : e = 0 := by
      by_contra h
      have := he h
      omega
    rw [f32Units, if_pos (by omega), hfraction, he0]
    omega
  · rcases Nat.lt_or_ge q (2 ^ 24) with hlt | hge
    · have hfraction' : 2 ^ 23 + f32Fraction w = q := by omega
      have hexponent' : f32Exponent w = e + 1 := by omega
      rw [f32Units, if_neg (by omega), hfraction', hexponent', Nat.add_sub_cancel]
    · have hq' : q = 2 * 2 ^ 23 := by omega
      have hfraction' : f32Fraction w = 0 := by omega
      have hexponent' : f32Exponent w = e + 1 + 1 := by omega
      rw [f32Units, if_neg (by omega), hfraction', hexponent', Nat.add_sub_cancel, hq']
      ring

/-- The magnitude of a rational, as an integer in units of 2^-149 times the denominator. -/
theorem abs_mul_den (r : Rat) : |r| * r.den = r.num.natAbs := by
  rw [Nat.cast_natAbs, Int.cast_abs, ← Rat.mul_den_eq_num, abs_mul, Nat.abs_cast]

/-- In the finite range a magnitude's pattern is finite, and only there. -/
theorem gridPattern_lt_iff_abs (r : Rat) :
    gridExponent r.num.natAbs r.den * 2 ^ 23 + gridMultiple r.num.natAbs r.den < 255 * 2 ^ 23 ↔
      |r| < 2 ^ 128 - 2 ^ 103 := by
  have hd : (0 : Rat) < r.den := by exact_mod_cast r.den_pos
  rw [gridPattern_lt_iff r.den_pos, ← mul_lt_mul_iff_left₀ hd, abs_mul_den, ← Nat.cast_lt (α := Rat)]
  push_cast
  constructor <;> intro h <;> linarith

theorem f32Magnitude_of_abs_lt {r : Rat} (h : |r| < 2 ^ 128 - 2 ^ 103) :
    f32Magnitude r.num.natAbs r.den =
      gridExponent r.num.natAbs r.den * 2 ^ 23 + gridMultiple r.num.natAbs r.den := by
  rw [f32Magnitude_eq, min_eq_left ((gridPattern_lt_iff_abs r).mpr h).le]

/-- Beyond the finite range the result is an infinity of the sign of `r` (log entry 23). -/
theorem round32_of_le_abs {r : Rat} (h : 2 ^ 128 - 2 ^ 103 ≤ |r|) :
    round32 r = if r < 0 then 0xFF800000 else 0x7F800000 := by
  have hmag : f32Magnitude r.num.natAbs r.den = 255 * 2 ^ 23 := by
    rw [f32Magnitude_eq, min_eq_right (not_lt.mp (mt (gridPattern_lt_iff_abs r).mp (not_lt.mpr h)))]
  rw [round32, hmag]
  split <;> rfl

/-- The sign of a rational, 1 for 0. -/
def unitSign (r : Rat) : Int := if r < 0 then -1 else 1

theorem unitSign_mul_self (r : Rat) : unitSign r * unitSign r = 1 := by
  unfold unitSign
  split <;> rfl

theorem abs_unitSign (r : Rat) : |unitSign r| = 1 := by
  unfold unitSign
  split <;> rfl

theorem unitSign_mul_abs (r : Rat) : (unitSign r : Rat) * |r| = r := by
  unfold unitSign
  split
  · next h => rw [abs_of_neg h]; simp
  · next h => rw [abs_of_nonneg (not_lt.mp h)]; simp

/-- The fields of a result in the finite range. -/
theorem round32_spec_of_abs_lt {r : Rat} (h : |r| < 2 ^ 128 - 2 ^ 103) :
    f32NonFinite (round32 r) = false ∧
    f32Fraction (round32 r) % 2 = gridMultiple r.num.natAbs r.den % 2 ∧
    f32Integer (round32 r) =
      unitSign r * (gridMultiple r.num.natAbs r.den * 2 ^ gridExponent r.num.natAbs r.den : Int) ∧
    (round32 r).getLsbD 31 = decide (r < 0) := by
  have hlt := (gridPattern_lt_iff_abs r).mpr h
  obtain ⟨hfraction, hexponent, hsign⟩ := fields_of_pattern (w := round32 r) (hlt.trans (by norm_num))
    (by rw [round32, f32Magnitude_of_abs_lt h])
  have hunits := f32Units_of_pattern (gridMultiple_le _ _) le_gridMultiple hfraction hexponent
  refine ⟨?_, ?_, ?_, hsign⟩
  · rw [f32NonFinite, hexponent, beq_eq_false_iff_ne]
    omega
  · rw [hfraction]
    omega
  · rw [f32Integer, hunits, hsign, unitSign]
    by_cases hr : r < 0 <;> simp [hr]

/-- How far a finite pattern is from `r`: the integers' distance, in units of 2^-149 over the denominator. -/
theorem abs_f32Value_sub (v : Word) (r : Rat) :
    |(f32Value v : ℝ) - r| =
      |(unitSign r * f32Integer v * r.den - r.num.natAbs * 2 ^ 149 : Int)| / (2 ^ 149 * r.den : ℝ) := by
  have hd : (0 : Rat) < r.den := by exact_mod_cast r.den_pos
  have hsign : (unitSign r : Rat) * unitSign r = 1 := by exact_mod_cast unitSign_mul_self r
  have hone : |(unitSign r : Rat)| = 1 := by exact_mod_cast abs_unitSign r
  have hscaled : f32Value v - r =
      unitSign r * ((unitSign r * f32Integer v * r.den - r.num.natAbs * 2 ^ 149) / (2 ^ 149 * r.den)) := by
    calc f32Value v - r
        = (unitSign r * unitSign r * f32Integer v - unitSign r * |r| * 2 ^ 149) / 2 ^ 149 := by
          rw [hsign, unitSign_mul_abs, f32Value_eq]
          ring
      _ = _ := by
          rw [← abs_mul_den]
          field_simp
  have habs : |f32Value v - r| =
      |(unitSign r * f32Integer v * r.den - r.num.natAbs * 2 ^ 149 : Rat)| / (2 ^ 149 * r.den) := by
    rw [hscaled, abs_mul, hone, one_mul, abs_div, abs_of_pos (by positivity : (0 : Rat) < 2 ^ 149 * r.den)]
  have hreal := congrArg (Rat.cast (K := ℝ)) habs
  push_cast [Nat.cast_natAbs] at hreal ⊢
  norm_num at hreal ⊢
  exact hreal

/-- In the finite range the result is a nearest pattern: the integers of all finite patterns lie on the grid of `r`. -/
theorem isRound32_round32 {r : Rat} (h : |r| < 2 ^ 128 - 2 ^ 103) : Reference.IsRound32 r (round32 r) := by
  obtain ⟨hfinite, hfraction, hinteger, hsign⟩ := round32_spec_of_abs_lt h
  have hd : (0 : ℝ) < 2 ^ 149 * r.den := by
    have := r.den_pos
    positivity
  have hresult : unitSign r * f32Integer (round32 r) =
      gridMultiple r.num.natAbs r.den * 2 ^ gridExponent r.num.natAbs r.den := by
    rw [hinteger, ← mul_assoc, unitSign_mul_self, one_mul]
  have hnearest : ∀ v : Word, _ := fun v =>
    gridMultiple_nearest r.den_pos (onGrid_of_abs (w := v) (y := unitSign r * f32Integer v)
      (by rw [abs_mul, abs_unitSign, one_mul, abs_f32Integer]) (gridExponent r.num.natAbs r.den))
  refine ⟨hfinite, fun v _ => ?nearest, fun v _ hne heq => ?even, fun _ => ?sign⟩
  case nearest =>
    rw [abs_f32Value_sub, abs_f32Value_sub, hresult]
    exact div_le_div_of_nonneg_right (by exact_mod_cast (hnearest v).1) hd.le
  case even =>
    rw [abs_f32Value_sub, abs_f32Value_sub, hresult, div_left_inj' hd.ne'] at heq
    rw [hfraction]
    refine (hnearest v).2 (fun hsame => hne ?_) (by exact_mod_cast heq)
    have hinj : f32Integer v = f32Integer (round32 r) := by
      rw [← hresult] at hsame
      exact mul_left_cancel₀ (fun h0 => by simpa [h0] using unitSign_mul_self r) hsame
    rw [f32Value_eq, f32Value_eq, hinj]
  case sign =>
    rw [hsign, decide_eq_true_iff, Rat.cast_lt_zero]

end Sys2Proof.Machine

namespace Sys2Proof

open Sys2Proof.Machine

/-- Settles O40, by comparing integers on the grid of `r`. -/
theorem round32IsNearestTiesToEven : Obligations.Round32IsNearestTiesToEven := by
  intro r
  have hpos : (0 : Rat) < 2 ^ 128 - 2 ^ 103 := by norm_num
  refine ⟨isRound32_round32, fun h => ?_, fun h => ?_⟩
  · rw [round32_of_le_abs (h.trans (le_abs_self r)), if_neg (by linarith)]
  · rw [round32_of_le_abs (by linarith [neg_le_abs r]), if_pos (by linarith)]

end Sys2Proof
end

section
/-!
PROOFS. The exact waveform of a transmission (43_modulator.md rules R307, R310 to R314): the tones of the timeline do
not overlap, so each sample is one tone's or 0, no sample exceeds AMP, and the samples at both ends of a tone are 0.
-/

namespace Sys2Proof.Machine

/-! ### The timeline's order -/

/-- A tone ends at or before the next one's start. -/
abbrev Tone.Before (a b : Tone) : Prop := a.start + a.dur ≤ b.start

theorem Params.toneN_le_stepN (p : Params) : p.toneN ≤ p.stepN := Nat.le_add_right _ _

theorem mem_preambleTones {p : Params} {t : Tone} :
    t ∈ preambleTones p ↔ ∃ c, c < p.preCycles ∧
      (t = ⟨p.fLo, 2 * c * p.preN, p.preN⟩ ∨ t = ⟨p.fHi, (2 * c + 1) * p.preN, p.preN⟩) := by
  simp [preambleTones]

/-- Tone `j` of the preamble starts after `j` preamble tones. -/
theorem exists_preambleTone {p : Params} {j : Nat} (h : j < 2 * p.preCycles) :
    ∃ t ∈ preambleTones p, t.start = j * p.preN ∧ t.dur = p.preN := by
  rcases Nat.even_or_odd' j with ⟨c, rfl | rfl⟩
  · exact ⟨_, mem_preambleTones.mpr ⟨c, by omega, .inl rfl⟩, rfl, rfl⟩
  · exact ⟨_, mem_preambleTones.mpr ⟨c, by omega, .inr rfl⟩, rfl, rfl⟩

/-- The tones of preamble cycle `c` lie in the cycle. -/
theorem preambleTone_bounds {p : Params} {c : Nat} {t : Tone}
    (h : t ∈ [(⟨p.fLo, 2 * c * p.preN, p.preN⟩ : Tone), ⟨p.fHi, (2 * c + 1) * p.preN, p.preN⟩]) :
    2 * c * p.preN ≤ t.start ∧ t.start + t.dur ≤ 2 * (c + 1) * p.preN := by
  rcases List.mem_pair.mp h with rfl | rfl <;> constructor <;> dsimp only <;> nlinarith

theorem preambleTones_end_le {p : Params} {t : Tone} (h : t ∈ preambleTones p) : t.start + t.dur ≤ p.preLen := by
  obtain ⟨c, hc, ht⟩ := List.mem_flatMap.mp h
  refine (preambleTone_bounds ht).2.trans ?_
  exact Nat.mul_le_mul_right _ (Nat.mul_le_mul_left _ (List.mem_range.mp hc))

theorem preambleTones_pairwise (p : Params) : (preambleTones p).Pairwise Tone.Before := by
  refine List.pairwise_flatMap.mpr ⟨fun c _ => ?_, List.pairwise_lt_range.imp fun {c c'} hlt a ha b hb => ?_⟩
  · simp only [List.pairwise_pair, Tone.Before]
    linarith
  · calc a.start + a.dur ≤ 2 * (c + 1) * p.preN := (preambleTone_bounds ha).2
      _ ≤ 2 * c' * p.preN := Nat.mul_le_mul_right _ (Nat.mul_le_mul_left _ hlt)
      _ ≤ b.start := (preambleTone_bounds hb).1

/-- The tones of byte number `j` lie in its two slots. -/
theorem byteTones_bounds {p : Params} {j : Nat} {b : Byte} {t : Tone} (h : t ∈ byteTones p j b) :
    p.preLen + 2 * j * p.stepN ≤ t.start ∧ t.start + t.dur ≤ p.preLen + 2 * (j + 1) * p.stepN := by
  have := Params.toneN_le_stepN p
  rcases List.mem_pair.mp h with rfl | rfl <;> constructor <;> dsimp only <;> nlinarith

theorem byteTones_pairwise (p : Params) (j : Nat) (b : Byte) : (byteTones p j b).Pairwise Tone.Before := by
  have := Params.toneN_le_stepN p
  simp only [byteTones, List.pairwise_pair, Tone.Before]
  nlinarith

theorem dataTones_bounds {p : Params} {j : Nat} {bs : List Byte} {t : Tone} (h : t ∈ dataTones p j bs) :
    p.preLen + 2 * j * p.stepN ≤ t.start ∧ t.start + t.dur ≤ p.preLen + 2 * (j + bs.length) * p.stepN := by
  induction bs generalizing j with
  | nil => simp [dataTones] at h
  | cons b bs ih =>
    rw [List.length_cons]
    rcases List.mem_append.mp h with h | h
    · obtain ⟨hstart, hend⟩ := byteTones_bounds h
      exact ⟨hstart, hend.trans (by gcongr; omega)⟩
    · obtain ⟨hstart, hend⟩ := ih h
      exact ⟨le_trans (by gcongr; omega) hstart, hend.trans_eq (by ring)⟩

theorem dataTones_pairwise (p : Params) (j : Nat) (bs : List Byte) : (dataTones p j bs).Pairwise Tone.Before := by
  induction bs generalizing j with
  | nil => simp [dataTones]
  | cons b bs ih =>
    refine List.pairwise_append.mpr ⟨byteTones_pairwise p j b, ih (j + 1), fun a ha c hc => ?_⟩
    exact (byteTones_bounds ha).2.trans (dataTones_bounds hc).1

/-- The tones of a timeline follow one another without overlap (rule R307). -/
theorem timeline_pairwise (p : Params) (bs : List Byte) : (timeline p bs).Pairwise Tone.Before := by
  rw [timeline, List.append_assoc]
  refine List.pairwise_append.mpr ⟨preambleTones_pairwise p, List.pairwise_append.mpr
    ⟨dataTones_pairwise p 0 bs, List.pairwise_singleton _ _, fun a ha b hb => ?_⟩, fun a ha b hb => ?_⟩
  · rw [List.mem_singleton.mp hb]
    simpa using (dataTones_bounds ha).2
  · refine (preambleTones_end_le ha).trans ?_
    rcases List.mem_append.mp hb with hb | hb
    · exact (Nat.le_add_right _ _).trans (dataTones_bounds hb).1
    · rw [List.mem_singleton.mp hb]
      exact Nat.le_add_right _ _

/-- A tone follows the preamble at once: the first data tone, or the postamble (rules R305, R306). -/
theorem exists_tone_at_preLen {p : Params} (hp : p.Valid) (bs : List Byte) :
    ∃ t ∈ timeline p bs, t.start = p.preLen ∧ 1 ≤ t.dur := by
  cases bs with
  | nil => exact ⟨_, List.mem_append_right _ (List.mem_singleton.mpr rfl), by simp, hp.postN_pos⟩
  | cons b bs =>
    refine ⟨⟨toneFreq (b.extractLsb' 4 4).toNat, p.preLen + 2 * 0 * p.stepN, p.toneN⟩, ?_, by simp, hp.toneN_pos⟩
    simp [timeline, dataTones, byteTones]

end Sys2Proof.Machine

namespace Sys2Proof.Reference

open Sys2Proof.Machine

/-! ### The samples of the waveform -/

theorem toneSample_of_not_covered {p : Params} {t : Tone} {n : ℕ} (h : ¬ (t.start ≤ n ∧ n < t.start + t.dur)) :
    toneSample p t n = 0 := if_neg h

/-- The first sample of a tone is 0, as its sine is (rule R310). -/
theorem toneSample_start (p : Params) (t : Tone) : toneSample p t t.start = 0 := by
  simp [toneSample]

theorem sum_toneSample_of_not_covered {p : Params} {ts : List Tone} {n : ℕ}
    (h : ∀ t ∈ ts, ¬ (t.start ≤ n ∧ n < t.start + t.dur)) : (ts.map (fun t => toneSample p t n)).sum = 0 := by
  refine List.sum_eq_zero fun x hx => ?_
  obtain ⟨t, ht, rfl⟩ := List.mem_map.mp hx
  exact toneSample_of_not_covered (h t ht)

/-- Where tones follow one another, a sample inside one of them is that tone's. -/
theorem sum_toneSample_of_covered {p : Params} {ts : List Tone} (hts : ts.Pairwise Tone.Before) {t : Tone} (ht : t ∈ ts)
    {n : ℕ} (hn : t.start ≤ n ∧ n < t.start + t.dur) :
    (ts.map (fun t => toneSample p t n)).sum = toneSample p t n := by
  induction ts with
  | nil => cases ht
  | cons a ts ih =>
    obtain ⟨ha, hts⟩ := List.pairwise_cons.mp hts
    rw [List.map_cons, List.sum_cons]
    rcases List.mem_cons.mp ht with rfl | ht
    · rw [sum_toneSample_of_not_covered fun b hb hcov => ?_, add_zero]
      have := ha b hb
      unfold Tone.Before at this
      omega
    · rw [ih hts ht, toneSample_of_not_covered (t := a), zero_add]
      have := ha t ht
      unfold Tone.Before at this
      omega

/-- A sample inside a tone of the timeline is that tone's (rule R312). -/
theorem signal_of_covered {p : Params} {bs : List Byte} {t : Tone} (ht : t ∈ timeline p bs) {n : ℕ}
    (hn : t.start ≤ n ∧ n < t.start + t.dur) : signal p bs n = toneSample p t n :=
  sum_toneSample_of_covered (timeline_pairwise p bs) ht hn

/-- No sample of the waveform exceeds AMP (rule R314). -/
theorem abs_signal_le (p : Params) (bs : List Byte) (n : ℕ) : |signal p bs n| ≤ |(p.amp : ℝ)| := by
  by_cases h : ∃ t ∈ timeline p bs, t.start ≤ n ∧ n < t.start + t.dur
  · obtain ⟨t, ht, hn⟩ := h
    rw [signal_of_covered ht hn]
    exact Codebook.abs_toneSample_le p t n
  · rw [signal, sum_toneSample_of_not_covered fun t ht hn => h ⟨t, ht, hn⟩, abs_zero]
    exact abs_nonneg _

theorem signal_start {p : Params} {bs : List Byte} {t : Tone} (ht : t ∈ timeline p bs) (hd : 1 ≤ t.dur) :
    signal p bs t.start = 0 := by
  rw [signal_of_covered ht (by omega), toneSample_start]

theorem signal_last {p : Params} {bs : List Byte} {t : Tone} (ht : t ∈ timeline p bs) (hd : 1 ≤ t.dur) :
    signal p bs (t.start + t.dur - 1) = 0 := by
  rw [signal_of_covered ht (by omega), toneSample_last p t hd]

theorem mem_timeline_of_preamble {p : Params} {bs : List Byte} {t : Tone} (h : t ∈ preambleTones p) :
    t ∈ timeline p bs := by
  rw [timeline, List.append_assoc]
  exact List.mem_append_left _ h

/-- Every preamble tone, and what follows the preamble, starts with the sample 0. -/
theorem signal_preamble_start {p : Params} (hp : p.Valid) (bs : List Byte) {j : ℕ} (h : j ≤ 2 * p.preCycles) :
    signal p bs (j * p.preN) = 0 := by
  rcases h.lt_or_eq with h | rfl
  · obtain ⟨t, ht, hstart, hdur⟩ := exists_preambleTone h
    rw [← hstart]
    exact signal_start (mem_timeline_of_preamble ht) (hdur ▸ hp.preN_pos)
  · obtain ⟨t, ht, hstart, hdur⟩ := exists_tone_at_preLen hp bs
    rw [show 2 * p.preCycles * p.preN = t.start from hstart.symm]
    exact signal_start ht hdur

/-- Every preamble tone ends with the sample 0. -/
theorem signal_preamble_last {p : Params} (hp : p.Valid) (bs : List Byte) {j : ℕ} (h : j < 2 * p.preCycles) :
    signal p bs ((j + 1) * p.preN - 1) = 0 := by
  obtain ⟨t, ht, hstart, hdur⟩ := exists_preambleTone h
  rw [show (j + 1) * p.preN = t.start + t.dur by rw [hstart, hdur]; ring]
  exact signal_last (mem_timeline_of_preamble ht) (hdur ▸ hp.preN_pos)

end Sys2Proof.Reference
end

section
/-!
PROOFS. MOD and then DEMOD (44_demodulator.md rules R383 and R384; statement O41): what DEMOD reads is a transmission
behind some silence, what it answers is the demodulation of that source, and in the exact semantics the preamble's
position ties with its neighbours, since the samples at the ends of every tone are 0.
-/

namespace Sys2Proof.Reference

open Sys2Proof.Machine

/-! ### The samples of a source -/

theorem f32NonFinite_synthSample (p : Params) (num : Numerics) (bs : List Byte) (n : ℕ) :
    f32NonFinite (synthSample p num bs n) = false := by
  unfold synthSample
  split
  · next h =>
    unfold inAmplitude at h
    simp only [Bool.and_eq_true, Bool.not_eq_true'] at h
    exact h.1.1
  · decide

/-- A rendered capture has finite samples (rule R313). -/
theorem f32NonFinite_transmission {p : Params} {num : Numerics} {z : ℕ} {bs : List Byte} {w : Word}
    (h : w ∈ (Source.transmission z bs).words p num) : f32NonFinite w = false := by
  rcases List.mem_append.mp h with h | h
  · rw [List.eq_of_mem_replicate h]
    decide
  · obtain ⟨n, -, rfl⟩ := List.mem_map.mp h
    exact f32NonFinite_synthSample p num bs n

theorem exactCopy_transmission_of_lt (p : Params) {z n : ℕ} (bs : List Byte) (h : n < z) :
    (exactCopy p (.transmission z bs))[n]? = some 0 :=
  exactCopy_of_zero p _ (exact_transmission_of_lt p bs h)

theorem exactCopy_transmission_add (p : Params) (z : ℕ) {n : ℕ} {bs : List Byte} (h : n < p.lMod bs.length)
    (h0 : signal p bs n = 0) : (exactCopy p (.transmission z bs))[z + n]? = some 0 :=
  exactCopy_of_zero p _ (by rw [exact_transmission_add p z bs h, h0])

theorem preLen_lt_lMod {p : Params} (hp : p.Valid) (n : ℕ) : p.preLen < p.lMod n := by
  have := hp.postN_pos
  unfold Params.lMod
  omega

theorem mul_preN_le_preLen {p : Params} {j : ℕ} (h : j ≤ 2 * p.preCycles) : j * p.preN ≤ p.preLen :=
  Nat.mul_le_mul_right _ h

/-! ### The tie of the preamble's position with its neighbours (rule R384) -/

theorem score_transmission_succ {p : Params} (hp : p.Valid) (z : ℕ) (bs : List Byte) :
    score p (exactCopy p (.transmission z bs)) (z + 1) = score p (exactCopy p (.transmission z bs)) z := by
  refine (score_tie p _ z hp.preN_pos fun j hj => ?_).symm
  exact exactCopy_transmission_add p z ((mul_preN_le_preLen hj).trans_lt (preLen_lt_lMod hp _))
    (signal_preamble_start hp bs hj)

theorem score_transmission_pred {p : Params} (hp : p.Valid) (z : ℕ) (bs : List Byte) :
    score p (exactCopy p (.transmission z bs)) (z - 1) = score p (exactCopy p (.transmission z bs)) z := by
  cases z with
  | zero => rfl
  | succ z =>
    refine score_tie p _ z hp.preN_pos fun j hj => ?_
    cases j with
    | zero => exact exactCopy_transmission_of_lt p bs (by omega)
    | succ j =>
      have hpos : 1 ≤ (j + 1) * p.preN := Nat.mul_pos (Nat.succ_pos j) hp.preN_pos
      have hlt := (mul_preN_le_preLen hj).trans_lt (preLen_lt_lMod hp bs.length)
      rw [show z + (j + 1) * p.preN = z + 1 + ((j + 1) * p.preN - 1) by omega]
      exact exactCopy_transmission_add p (z + 1) (by omega) (signal_preamble_last hp bs hj)

/-! ### The energy of EX1's first window -/

theorem sq_div_length_le_meanSquare {ys : List ℝ} {y : ℝ} (h : y ∈ ys) : y ^ 2 / ys.length ≤ meanSquare ys := by
  refine div_le_div_of_nonneg_right ?_ (Nat.cast_nonneg _)
  refine List.single_le_sum ?_ _ (List.mem_map_of_mem h)
  simp only [List.mem_map]
  rintro _ ⟨x, -, rfl⟩
  exact sq_nonneg x

/-- Where no sample exceeds 1, normalisation makes none smaller (rule R358). -/
theorem exactCopy_sq_ge {p : Params} (hs : 0 ≤ p.silentPeak) {src : Source} (hpeak : peak (src.exact p) ≤ 1) {n : ℕ}
    {x : ℝ} (h : (src.exact p)[n]? = some x) : ∃ y, (exactCopy p src)[n]? = some y ∧ x ^ 2 ≤ y ^ 2 := by
  unfold exactCopy normalised
  split
  · next hloud =>
    have hpos : 0 < peak (src.exact p) := lt_of_le_of_lt (by exact_mod_cast hs) hloud
    refine ⟨x / peak (src.exact p), by rw [List.getElem?_map, h]; rfl, ?_⟩
    rw [div_pow]
    exact le_div_self (sq_nonneg x) (by positivity) (pow_le_one₀ hpos.le hpeak)
  · exact ⟨x, h, le_rfl⟩

theorem peak_transmission_le (p : Params) (z : ℕ) (bs : List Byte) :
    peak ((Source.transmission z bs).exact p) ≤ |(p.amp : ℝ)| := by
  refine Codebook.peak_le (abs_nonneg _) fun x hx => ?_
  rcases List.mem_append.mp hx with hx | hx
  · rw [List.eq_of_mem_replicate hx, abs_zero]
    exact abs_nonneg _
  · obtain ⟨n, -, rfl⟩ := List.mem_map.mp hx
    exact abs_signal_le p bs n

theorem sin_ten_pi_div_three : Real.sin (10 * Real.pi / 3) = -(√3 / 2) := by
  rw [show 10 * Real.pi / 3 = Real.pi / 3 + Real.pi + 2 * Real.pi by ring, Real.sin_add_two_pi, Real.sin_add_pi,
    Real.sin_pi_div_three]

/-- Sample 147 of EX1's low preamble tone is 10/3 half turns after its start, with the envelope at 1. -/
theorem ex1_signal_sq (bs : List Byte) : signal Params.ex1 bs 147 ^ 2 = 12 / 25 := by
  have ht : (⟨500, 0, 4410⟩ : Tone) ∈ timeline Params.ex1 bs :=
    mem_timeline_of_preamble (mem_preambleTones.mpr ⟨0, by decide, .inl rfl⟩)
  have henv : env Params.ex1 147 4410 = 1 := by
    simp only [env, Params.ex1]
    norm_num
  have hangle : 2 * Real.pi * ((500 : ℕ) : ℝ) * ((147 - 0 : ℕ) : ℝ) / ((44100 : ℕ) : ℝ) = 10 * Real.pi / 3 := by
    push_cast
    ring
  have hamp : ((Params.ex1.amp : ℚ) : ℝ) = 4 / 5 := by norm_num [Params.ex1]
  rw [signal_of_covered ht ⟨by decide, by decide⟩, toneSample, if_pos ⟨by decide, by decide⟩]
  change ((Params.ex1.amp : ℝ) * env Params.ex1 147 4410 *
    Real.sin (2 * Real.pi * ((500 : ℕ) : ℝ) * ((147 - 0 : ℕ) : ℝ) / ((44100 : ℕ) : ℝ))) ^ 2 = _
  rw [hangle, sin_ten_pi_div_three, henv, hamp, mul_pow, neg_sq, div_pow, Real.sq_sqrt (by norm_num)]
  norm_num

/-- For EX1 the exact energy of the first window of a transmission is above ABS_FLOOR (rule R384): already one sample's
part of it is. -/
theorem ex1_absFloor_lt_windowEnergy (bs : List Byte) :
    (Params.ex1.absFloor : ℝ) < windowEnergy Params.ex1 (exactCopy Params.ex1 (.transmission 0 bs)) 0 := by
  have hlen : 147 < Params.ex1.lMod bs.length :=
    (by decide : 147 < Params.ex1.preLen).trans (preLen_lt_lMod Params.ex1_valid _)
  have hpeak : peak ((Source.transmission 0 bs).exact Params.ex1) ≤ 1 :=
    (peak_transmission_le _ _ _).trans (by norm_num [Params.ex1])
  have hsample := exact_transmission_add Params.ex1 0 bs hlen
  obtain ⟨y, hy, hsq⟩ := exactCopy_sq_ge (by norm_num [Params.ex1]) hpeak hsample
  rw [ex1_signal_sq] at hsq
  have hmem : y ∈ window (exactCopy Params.ex1 (.transmission 0 bs)) 0 Params.ex1.onsetWinN := by
    refine List.mem_of_getElem? (i := 147) ?_
    rw [window, List.drop_zero, List.getElem?_take_of_lt (by decide)]
    simpa using hy
  have hcount : ((window (exactCopy Params.ex1 (.transmission 0 bs)) 0 Params.ex1.onsetWinN).length : ℝ) ≤ 882 := by
    exact_mod_cast List.length_take_le _ _
  have hpos : (0 : ℝ) < (window (exactCopy Params.ex1 (.transmission 0 bs)) 0 Params.ex1.onsetWinN).length := by
    exact_mod_cast List.length_pos_of_mem hmem
  calc (Params.ex1.absFloor : ℝ) < 12 / 25 / 882 := by norm_num [Params.ex1]
    _ ≤ y ^ 2 / (window (exactCopy Params.ex1 (.transmission 0 bs)) 0 Params.ex1.onsetWinN).length :=
      div_le_div₀ (sq_nonneg y) hsq hpos hcount
    _ ≤ _ := sq_div_length_le_meanSquare hmem

end Sys2Proof.Reference

namespace Sys2Proof.Machine

open Sys2Proof.Reference

/-! ### Candidates -/

/-- The candidates are listed in increasing order (rule R364). -/
theorem candidates_pairwise {p : Params} (hp : p.Valid) (onset len : Nat) :
    (candidates p onset len).Pairwise (· < ·) := by
  refine List.Pairwise.filter _ (List.pairwise_map.mpr (List.Pairwise.filter _ ?_))
  refine List.pairwise_lt_range.imp fun {a b} hlt => ?_
  exact Nat.add_lt_add_left (Nat.mul_lt_mul_of_pos_right hlt hp.searchStepN_pos) _

/-- Where the preamble stands out, the first position of greatest exact score is the one before it, if it is a candidate
(rule R384). -/
theorem firstMax_score_of_standsOut {p : Params} (hp : p.Valid) (hs : PreambleStandsOut p) {z : Nat} {bs : List Byte}
    (hbs : bs.length ≤ p.maxB) {onset : Nat} (hz : z - 1 ∈ candidates p onset (z + p.lMod bs.length)) :
    firstMax (score p (exactCopy p (.transmission z bs))) (candidates p onset (z + p.lMod bs.length)) =
      some (z - 1) := by
  have hpred := score_transmission_pred hp z bs
  have hsucc := score_transmission_succ hp z bs
  have hfar : ∀ q ∈ candidates p onset (z + p.lMod bs.length), q + 1 < z ∨ z + 1 < q →
      score p (exactCopy p (.transmission z bs)) q < score p (exactCopy p (.transmission z bs)) (z - 1) :=
    fun q hq h => hpred ▸ hs z bs q hbs (fits_of_mem_candidates hq) h
  refine firstMax_of_least (candidates_pairwise hp _ _) hz (fun q hq => ?_) fun q hq hlt => hfar q hq (by omega)
  by_cases h : q + 1 < z ∨ z + 1 < q
  · exact (hfar q hq h).le
  · have hnear : q = z - 1 ∨ q = z ∨ q = z + 1 := by omega
    rcases hnear with rfl | rfl | rfl
    · exact le_rfl
    · exact hpred.ge
    · exact (hsucc.trans hpred.symm).le

/-! ### The demodulation of a source -/

theorem onsetOf_fits {p : Params} {num : Numerics} {xs : List Rat} {onset : Nat} (h : onsetOf p num xs = some onset) :
    onset + p.onsetWinN ≤ xs.length := by
  have hmem := List.mem_of_find?_eq_some h
  rw [onsetStarts, List.mem_filter] at hmem
  simpa using hmem.2

theorem demodulate_of_onset {p : Params} {num : Numerics} {src : Source} {onset : Nat}
    (h : onsetOf p num (blockCopy p num src) = some onset) (n : Nat) :
    demodulate p num (src.words p num) n = decodeFrom p num (blockCopy p num src) onset n := by
  unfold blockCopy at *
  rw [demodulate, h]

theorem demodulate_of_no_onset {p : Params} {num : Numerics} {src : Source}
    (h : onsetOf p num (blockCopy p num src) = none) (n : Nat) :
    demodulate p num (src.words p num) n = noSignalResult n := by
  unfold blockCopy at h
  rw [demodulate, h]

theorem synchronise_ne_noSignal (p : Params) (num : Numerics) (xs : List Rat) (onset : Nat) :
    (synchronise p num xs onset).sync ≠ .noSignal := by
  unfold synchronise
  split
  · simp
  · split <;> simp

/-- A located synchronisation is at the best candidate (rule R368). -/
theorem bestCandidate_of_located {p : Params} {num : Numerics} {xs : List Rat} {onset : Nat}
    (h : (synchronise p num xs onset).sync = .located) :
    ∃ q, bestCandidate p num xs onset = some q ∧ (synchronise p num xs onset).start = q + p.preLen := by
  cases hbest : bestCandidate p num xs onset with
  | none =>
    rw [synchronise, hbest] at h
    cases h
  | some q =>
    rw [synchronise_of_best hbest] at h ⊢
    split at h
    · next haccept => exact ⟨q, rfl, by rw [if_pos haccept]⟩
    · cases h

/-- A located demodulation starts behind a best candidate of its onset. -/
theorem demodulate_located {p : Params} {num : Numerics} {src : Source} {n : Nat}
    (h : (demodulate p num (src.words p num) n).sync = .located) :
    ∃ q, bestCandidate p num (blockCopy p num src) (demodulate p num (src.words p num) n).onset = some q ∧
      (demodulate p num (src.words p num) n).start = q + p.preLen ∧
      (demodulate p num (src.words p num) n).onset ≤ (src.words p num).length := by
  cases honset : onsetOf p num (blockCopy p num src) with
  | none =>
    rw [demodulate_of_no_onset honset] at h
    cases h
  | some onset =>
    rw [demodulate_of_onset honset] at h ⊢
    obtain ⟨q, hq, hstart⟩ := bestCandidate_of_located h
    have hfits := onsetOf_fits honset
    rw [length_blockCopy] at hfits
    exact ⟨q, hq, hstart, (Nat.le_add_right _ _).trans hfits⟩

/-- A best candidate's exact score is no further below another's than the error (rules R12, R366). -/
theorem score_sub_le_of_best {p : Params} {num : Numerics} {err : Comparison → Source → Rat} {src : Source}
    (hm : MarginsDecide p num err) (finite : ∀ w ∈ src.words p num, f32NonFinite w = false) {onset q z : Nat}
    (hq : bestCandidate p num (blockCopy p num src) onset = some q)
    (hz : z ∈ candidates p onset (src.words p num).length) :
    q ∈ candidates p onset (src.words p num).length ∧
      score p (exactCopy p src) z - score p (exactCopy p src) q ≤ err .score src := by
  rw [bestCandidate, length_blockCopy] at hq
  have hmem := mem_of_firstMax hq
  refine ⟨hmem, not_lt.mp fun hlt => (le_of_firstMax hq hz).not_gt ?_⟩
  exact (hm.score src finite q z (fits_of_mem_candidates hmem) (fits_of_mem_candidates hz)).1 hlt

/-! ### The two commands -/

/-- The payload, element by element. -/
theorem State.payload_eq (s : State) : s.payload = (List.range s.bLen.toNat).map s.bytesAt := by
  simp [State.payload, State.bytesRange]

/-- What MOD leaves in PCM and PCM_LEN (rule R315). -/
theorem exec_mod_spec {s : State} (h : s.bLen.toNat ≤ Config.params.maxB) :
    ∃ t, exec .mod s = .next t ∧ t.pcmLen.toNat = Config.params.lMod s.bLen.toNat ∧
      t.pcmRange t.pcmLen.toNat = render Config.params Config.numerics s.payload := by
  have hlen : (BitVec.ofNat 32 (Config.params.lMod s.bLen.toNat)).toNat = Config.params.lMod s.bLen.toNat := by
    have := (Config.lMod_le h).trans Config.pcmMax_le
    rw [BitVec.toNat_ofNat, Nat.mod_eq_of_lt (by omega)]
  refine ⟨_, execMod_of_fits h, hlen, ?_⟩
  rw [show (s.withTimeline.withWaveform.finish .none).pcmLen.toNat = Config.params.lMod s.bLen.toNat from hlen]
  refine List.ext_getElem (by simp) fun n hn hn' => ?_
  simp only [State.pcmRange, List.getElem_map, List.getElem_range, State.pcmAt_finish]
  rw [State.pcmAt_withWaveform]
  exact congrArg (Option.getD · _) (List.getElem?_eq_getElem hn')

/-- What DEMOD reads where PCM holds MOD's rendering behind some silence: a transmission. -/
theorem pcmRange_behind_silence {s t t' : State} {z : Nat}
    (ht : t.pcmRange t.pcmLen.toNat = render Config.params Config.numerics s.payload)
    (hlen : t'.pcmLen.toNat = z + t.pcmLen.toNat) (hsilence : ∀ n, n < z → t'.pcmAt n = 0)
    (hsame : ∀ n, n < t.pcmLen.toNat → t'.pcmAt (z + n) = t.pcmAt n) :
    t'.pcmRange t'.pcmLen.toNat =
      (Source.transmission z s.payload).words Config.params Config.numerics := by
  rw [Source.words_transmission, ← ht, hlen, State.pcmRange, List.range_add, List.map_append, List.map_map]
  congr 1
  · exact List.eq_replicate_iff.mpr ⟨by simp, fun w hw => by
      obtain ⟨n, hn, rfl⟩ := List.mem_map.mp hw
      exact hsilence n (List.mem_range.mp hn)⟩
  · exact List.map_congr_left fun n hn => hsame n (List.mem_range.mp hn)

/-- DEMOD of a source in PCM stores the source's demodulation (rules R379, R380). -/
theorem exec_demod_of_source {t : State} {src : Source} (hrx : t.rxLen.toNat ≤ Config.params.maxB)
    (hpcm : t.pcmLen.toNat ≤ Config.params.pcmMax)
    (hsrc : t.pcmRange t.pcmLen.toNat = src.words Config.params Config.numerics) :
    exec .demod t = .next ((t.storeResult
      (demodulate Config.params Config.numerics (src.words Config.params Config.numerics) t.rxLen.toNat)).finish
        .none) := by
  rw [← hsrc]
  exact execDemod_of_fits (captureTooLong_eq_false.mpr ⟨hrx, hpcm⟩)

end Sys2Proof.Machine

namespace Sys2Proof

open Sys2Proof.Machine Sys2Proof.Reference

/-- Rule R383, on the machine: the loopback of every configuration, through PCM and DEMOD's storage. -/
theorem loopback_restores_frame {s : State} (hs : s.bLen = 120) :
    ∃ t, exec .mod s = .next t ∧
      ∀ t' : State, t'.rxLen = 120 → t'.pcmLen = t.pcmLen → (∀ n, n < t.pcmLen.toNat → t'.pcmAt n = t.pcmAt n) →
        ∃ u, exec .demod t' = .next u ∧ u.err = .none ∧ (∀ k, k < 120 → u.bytesAt k = s.bytesAt k) ∧
          u.dmErrCnt = 0 ∧ ∃ c : Rat, mkRat 95 100 ≤ c ∧ u.dmConf = round32 c := by
  have hb : s.bLen.toNat = 120 := by rw [hs]; rfl
  have hfits : s.bLen.toNat ≤ Config.params.maxB := hb ▸ Config.maxB_ge
  obtain ⟨t, hexec, hlen, hpcm⟩ := exec_mod_spec hfits
  refine ⟨t, hexec, fun t' hrx hlen' hsame => ?_⟩
  have hrx' : t'.rxLen.toNat = 120 := by rw [hrx]; rfl
  have hsrc := pcmRange_behind_silence (z := 0) hpcm (by rw [hlen', Nat.zero_add]) (by simp) (by simpa using hsame)
  have hdemod := exec_demod_of_source (hrx' ▸ Config.maxB_ge)
    (by rw [hlen', hlen]; exact Config.lMod_le hfits) hsrc
  rw [Source.words_transmission, List.replicate_zero, List.nil_append, hrx'] at hdemod
  have hframe : s.payload.length = 120 := by rw [State.payload_length, hb]
  refine ⟨_, hdemod, rfl, fun k hk => ?_, ?_, _, ?_, rfl⟩
  · rw [State.bytesAt_finish, State.bytesAt_storeResult, Config.loopback.bytes _ hframe, State.payload_eq, hb]
    simp [hk]
  · rw [State.finish_dmErrCnt, State.storeResult_dmErrCnt, Config.loopback.errors _ hframe]
    rfl
  · rw [show mkRat 95 100 = mkRat 19 20 by decide +kernel]
    exact Config.loopback.confidence _ hframe

/-- Rule R384 for EX1 with no leading silence: the first window is loud and the onset is 0. -/
theorem ex1_onset_zero (hex1 : Config.params = Params.ex1) {s : State} (hs : s.bLen.toNat ≤ Config.params.maxB) :
    ∃ t, exec .mod s = .next t ∧
      (Config.params.absFloor : ℝ) <
        Reference.windowEnergy Config.params (exactCopy Config.params (.transmission 0 s.payload)) 0 ∧
      ∀ t' : State, t'.rxLen.toNat ≤ Config.params.maxB → t'.pcmLen = t.pcmLen →
        (∀ n, n < t.pcmLen.toNat → t'.pcmAt n = t.pcmAt n) →
        ∃ u, exec .demod t' = .next u ∧ u.dmSync ≠ .noSignal ∧ u.dmOnset = 0 := by
  obtain ⟨t, hexec, hlen, hpcm⟩ := exec_mod_spec hs
  refine ⟨t, hexec, hex1 ▸ ex1_absFloor_lt_windowEnergy s.payload, fun t' hrx hlen' hsame => ?_⟩
  have hsrc := pcmRange_behind_silence (z := 0) hpcm (by rw [hlen', Nat.zero_add]) (by simp) (by simpa using hsame)
  have hdemod := exec_demod_of_source hrx (by rw [hlen', hlen]; exact Config.lMod_le hs) hsrc
  have honset := (Config.preamble hex1).onset s.payload (by rwa [State.payload_length])
  rw [demodulate_of_onset honset] at hdemod
  exact ⟨_, hdemod, synchronise_ne_noSignal _ _ _ _, rfl⟩

/-- Rule R384 behind silence: where DEMOD locates the preamble, its position's exact score is the greatest up to the
error. -/
theorem located_score_close {s t t' : State} {z : Nat} (hz : z + Config.params.lMod s.bLen.toNat ≤ Config.params.pcmMax)
    (hlen : t.pcmLen.toNat = Config.params.lMod s.bLen.toNat)
    (hpcm : t.pcmRange t.pcmLen.toNat = render Config.params Config.numerics s.payload)
    (hrx : t'.rxLen.toNat ≤ Config.params.maxB) (hlen' : t'.pcmLen.toNat = z + t.pcmLen.toNat)
    (hsilence : ∀ n, n < z → t'.pcmAt n = 0) (hsame : ∀ n, n < t.pcmLen.toNat → t'.pcmAt (z + n) = t.pcmAt n) :
    ∃ u, exec .demod t' = .next u ∧
      (u.dmSync = .located → z ∈ candidates Config.params u.dmOnset.toNat (z + t.pcmLen.toNat) →
        ∃ q ∈ candidates Config.params u.dmOnset.toNat (z + t.pcmLen.toNat),
          u.dmStart.toNat = q + Config.params.preLen ∧
          Reference.score Config.params (exactCopy Config.params (.transmission z s.payload)) z -
              Reference.score Config.params (exactCopy Config.params (.transmission z s.payload)) q ≤
            Config.error .score (.transmission z s.payload)) := by
  have hsrc := pcmRange_behind_silence hpcm hlen' hsilence hsame
  have hmax : z + t.pcmLen.toNat < 2 ^ 32 := by
    have := Config.pcmMax_le
    omega
  have hwords : ((Source.transmission z s.payload).words Config.params Config.numerics).length =
      z + t.pcmLen.toNat := by
    simp [hlen]
  have hdemod := exec_demod_of_source hrx (by omega) hsrc
  refine ⟨_, hdemod, fun hlocated hcand => ?_⟩
  obtain ⟨q, hq, hstart, honset⟩ := demodulate_located (n := t'.rxLen.toNat) hlocated
  rw [State.finish_dmOnset, State.storeResult_dmOnset, BitVec.toNat_ofNat, Nat.mod_eq_of_lt (by omega)] at hcand ⊢
  rw [← hwords] at hcand ⊢
  obtain ⟨hmem, hscore⟩ := score_sub_le_of_best Config.marginsDecide (fun w => f32NonFinite_transmission) hq hcand
  have hfits := fits_of_mem_candidates hmem
  refine ⟨q, hmem, ?_, hscore⟩
  rw [State.finish_dmStart, State.storeResult_dmStart, hstart, BitVec.toNat_ofNat, Nat.mod_eq_of_lt (by omega)]

/-- Settles O41: rule R383's frame, rule R384's onset of EX1, and behind silence the tie of the preamble's position, the
first of the tied positions and the score of the one DEMOD takes. -/
theorem loopbackRestoresTheFrame : Obligations.LoopbackRestoresTheFrame := by
  refine ⟨fun s hs => loopback_restores_frame hs, fun hex1 s hs => ?ex1, fun s z hs hz => ?silence⟩
  case ex1 =>
    rw [← State.payload_eq]
    exact ex1_onset_zero hex1 hs
  case silence =>
    obtain ⟨t, hexec, hlen, hpcm⟩ := exec_mod_spec hs
    refine ⟨t, hexec, ?_⟩
    rw [← State.payload_eq]
    refine ⟨score_transmission_pred Config.params_valid z _, score_transmission_succ Config.params_valid z _,
      fun hex1 onset hmem => ?_, fun t' hrx hlen' hsilence hsame =>
        located_score_close hz hlen hpcm hrx hlen' hsilence hsame⟩
    rw [hlen, ← State.payload_length] at hmem ⊢
    exact firstMax_score_of_standsOut Config.params_valid (Config.preamble hex1).standsOut
      (by rwa [State.payload_length]) hmem

end Sys2Proof
end

section
/-!
PROOFS. The states from which a command can complete, said once with what its own checks have found: the state with all
of its writes, or, where a check fails, the state as it is (45_control.md rule R423, 60_exceptions.md rule R452).
-/

namespace Sys2Proof.Machine

/-- `CommandWrites s i u`: the command `i`, run in `s`, can complete from `u`. -/
inductive CommandWrites (s : State) : Instr → State → Prop
  | failed {i : Instr} : CommandWrites s i s
  | crc : CommandWrites s .crc (s.withCrc (crc16 s.codeBody))
  | verify : CommandWrites s .verify ((s.withCrc s.check.1).withCrcOk s.check.2)
  | pack : CommandWrites s .pack s.packed
  | unpackL : CommandWrites s .unpackL (s.unpackWith s.check.1 s.check.2)
  | unpackS : CommandWrites s .unpackS (s.unpackWith s.check.1 true)
  | packf : CommandWrites s .packf s.joinFrame
  | unpackf : CommandWrites s .unpackf s.splitFrame
  | tones (fits : s.bLen.toNat ≤ Config.params.maxB) : CommandWrites s .tones s.withTimeline
  | mod (fits : s.bLen.toNat ≤ Config.params.maxB) : CommandWrites s .mod s.withTimeline.withWaveform
  | demod (fits : s.rxLen.toNat ≤ Config.params.maxB) : CommandWrites s .demod (s.storeResult s.demodResult)

/-- Every command completes from one of its states. -/
theorem exec_eq_finish (i : Instr) (s : State) :
    ∃ u e, exec i s = .next (State.finish u e) ∧ CommandWrites s i u := by
  cases i
  case crc => exact ⟨_, _, execCrc_eq s, .crc⟩
  case verify => exact ⟨_, _, execVerify_eq s, .verify⟩
  case pack => exact ⟨_, _, execPack_eq s, .pack⟩
  case unpackL => exact ⟨_, _, execUnpackL_eq s, .unpackL⟩
  case unpackS =>
    cases hok : s.check.2
    · exact ⟨_, _, execUnpackS_of_mismatch hok, .failed⟩
    · exact ⟨_, _, execUnpackS_of_match hok, .unpackS⟩
  case packf =>
    cases hok : s.lengthsOk
    · exact ⟨_, _, execPackf_of_bad hok, .failed⟩
    · exact ⟨_, _, execPackf_of_ok hok, .packf⟩
  case unpackf =>
    by_cases hb : s.bLen = 120
    · exact ⟨_, _, execUnpackf_of_ok hb, .unpackf⟩
    · exact ⟨_, _, execUnpackf_of_bad hb, .failed⟩
  case tones =>
    rcases Nat.lt_or_ge Config.params.maxB s.bLen.toNat with hb | hb
    · exact ⟨_, _, execTones_of_long hb, .failed⟩
    · exact ⟨_, _, execTones_of_fits hb, .tones hb⟩
  case mod =>
    rcases Nat.lt_or_ge Config.params.maxB s.bLen.toNat with hb | hb
    · exact ⟨_, _, execMod_of_long hb, .failed⟩
    · exact ⟨_, _, execMod_of_fits hb, .mod hb⟩
  case demod =>
    cases hlong : s.captureTooLong
    · exact ⟨_, _, execDemod_of_fits hlong, .demod (captureTooLong_eq_false.mp hlong).1⟩
    · exact ⟨_, _, execDemod_of_long hlong, .failed⟩

end Sys2Proof.Machine
end

section
/-!
PROOFS. Every step keeps the invariant (statement O7): one lemma for each update the machine makes, in the order of the
model's files, then the host's turn, the ten commands and the step.
-/

namespace Sys2Proof.Machine

/-! ### The NOSIGNAL result -/

/-- Only a demodulation without an onset answers NOSIGNAL, and its result is rule R378's. -/
theorem eq_noSignalResult_of_sync {p : Params} {num : Numerics} {ws : List Word} {n : Nat}
    (h : (demodulate p num ws n).sync = .noSignal) : demodulate p num ws n = noSignalResult n := by
  simp only [demodulate] at h ⊢
  split at h
  · rfl
  · exact absurd h (synchronise_ne_noSignal _ _ _ _)

/-- The NOSIGNAL result has confidence 0 (rules R377, R378). -/
theorem meanOf_noSignalResult (num : Numerics) (n : Nat) : meanOf num (noSignalResult n).confidences = 0 :=
  meanOf_of_allZero num (confidences_of_undecoded fun _ hd => List.eq_of_mem_replicate hd)

end Sys2Proof.Machine

namespace Sys2Proof.Safety

open Sys2Proof.Machine

variable {s : State}

/-! ### Updates of the registers -/

theorem Inv.finish (h : Inv s) (e : ErrCode) : Inv (s.finish e) := { h with busy := nofun }

theorem Inv.withAgenda (h : Inv s) (rest : List Turn) : Inv (s.withAgenda rest) := { h with busy := h.busy }

theorem Inv.setOvr (h : Inv s) (b : Bool) : Inv { s with ovr := b } := { h with busy := h.busy }

theorem Inv.withCrc (h : Inv s) (c : Crc) : Inv (s.withCrc c) := { h with busy := h.busy }

theorem Inv.withCrcOk (h : Inv s) (ok : Bool) : Inv (s.withCrcOk ok) := { h with busy := h.busy }

theorem Inv.unpackWith (h : Inv s) (c : Crc) (ok : Bool) : Inv (s.unpackWith c ok) := { h with busy := h.busy }

theorem Inv.writeStatus (h : Inv s) (v : Word) : Inv (s.writeStatus v) where
  __ := h
  busy c hc := by
    obtain ⟨hcmd, herr, hdone⟩ := h.busy c hc
    exact ⟨hcmd, herr, by simp [hdone]⟩

/-- Issue establishes the clause on a running command; while BUSY it sets OVR only (rule R421). -/
theorem Inv.issue (h : Inv s) (v : Word) : Inv (s.issue v) := by
  unfold State.issue
  split
  · exact h.setOvr true
  · exact { h with busy := by rintro c ⟨⟩; exact ⟨rfl, rfl, rfl⟩ }

/-- A read uses up a draw at most (rules R104, R110). -/
theorem Inv.afterRead (h : Inv s) (a : Addr) : Inv (s.afterRead a) where
  __ := h
  busy := h.busy
  drawn := by
    have := h.drawn
    rw [State.afterRead_draws, State.afterRead_powerOnDraw]
    split <;> omega

/-! ### Writes of the memories -/

section

variable (h : Inv s) {base : Nat}
include h

theorem Inv.writeCode {vs : List Byte} (fits : base + vs.length ≤ Region.code.capacity) : Inv (s.writeCode base vs) :=
  { h with code := Memory.wf_writeRange h.code base vs fits }

theorem Inv.writeSig {vs : List Byte} (fits : base + vs.length ≤ Region.sig.capacity) : Inv (s.writeSig base vs) :=
  { h with sig := Memory.wf_writeRange h.sig base vs fits }

theorem Inv.writePk {vs : List Byte} (fits : base + vs.length ≤ Region.pk.capacity) : Inv (s.writePk base vs) :=
  { h with pk := Memory.wf_writeRange h.pk base vs fits }

theorem Inv.writeBytes {vs : List Byte} (fits : base + vs.length ≤ Region.bytes.capacity) :
    Inv (s.writeBytes base vs) :=
  { h with bytes := Memory.wf_writeRange h.bytes base vs fits }

theorem Inv.writeEpos {vs : List Word} (fits : base + vs.length ≤ Region.epos.capacity) : Inv (s.writeEpos base vs) :=
  { h with epos := Memory.wf_writeRange h.epos base vs fits }

theorem Inv.writeNconf {vs : List Word} (fits : base + vs.length ≤ Region.nconf.capacity) :
    Inv (s.writeNconf base vs) :=
  { h with nconf := Memory.wf_writeRange h.nconf base vs fits }

theorem Inv.writeTones {vs : List ToneEntry} (fits : base + vs.length ≤ Region.tones.capacity) :
    Inv (s.writeTones base vs) :=
  { h with tones := Memory.wf_writeRange h.tones base vs fits }

theorem Inv.writePcm {vs : List Word} (fits : base + vs.length ≤ Region.pcm.capacity) : Inv (s.writePcm base vs) :=
  { h with pcm := Memory.wf_writeRange h.pcm base vs fits }

theorem Inv.scramble {m : Region} {count : Nat} (n : Nat) (fits : count ≤ m.capacity) : Inv (s.scramble n m count) := by
  cases m
  case code => exact h.writeCode (by simpa using fits)
  case sig => exact h.writeSig (by simpa using fits)
  case pk => exact h.writePk (by simpa using fits)
  case bytes => exact h.writeBytes (by simpa using fits)
  case epos => exact h.writeEpos (by simpa using fits)
  case nconf => exact h.writeNconf (by simpa using fits)
  case tones => exact h.writeTones (by simpa using fits)
  case pcm => exact h.writePcm (by simpa using fits)

/-- A host write to an element that exists keeps the memory canonical (rule R105). -/
theorem Inv.writeElem {m : Region} {k : Nat} (hk : k < m.capacity) (v : Word) : Inv (s.writeElem m k v) := by
  cases m
  case code => exact h.writeCode hk
  case sig => exact h.writeSig hk
  case pk => exact h.writePk hk
  case bytes => exact h.writeBytes hk
  case pcm => exact h.writePcm hk
  case epos | nconf | tones => exact h

end

theorem Inv.scrambleAll (h : Inv s) (n : Nat) {ranges : List (Region × Nat)} (fits : ∀ e ∈ ranges, e.2 ≤ e.1.capacity) :
    Inv (s.scrambleAll n ranges) := by
  induction ranges generalizing s with
  | nil => exact h
  | cons e ranges ih =>
    exact ih (h.scramble n (fits e List.mem_cons_self)) fun e' he' => fits e' (List.mem_cons_of_mem e he')

/-! ### Resets -/

theorem Inv.reset : Inv State.reset where
  code := Memory.wf_nil _
  sig := Memory.wf_nil _
  pk := Memory.wf_nil _
  bytes := Memory.wf_nil _
  epos := Memory.wf_nil _
  nconf := Memory.wf_nil _
  tones := Memory.wf_nil _
  pcm := Memory.wf_nil _
  busy := nofun
  toneCnt := Nat.zero_le _
  dmErrCnt := Nat.zero_le _
  noDemod _ := ⟨rfl, rfl, rfl, rfl, rfl⟩
  noSignal := nofun
  drawn := Nat.zero_lt_one

/-- What an abort redraws stays within its memories (rule R428). -/
theorem Inv.abort (h : Inv s) : Inv s.abort := by
  unfold State.abort
  split
  · exact h
  · next c _ =>
    have hs := h.scrambleAll s.draws (abortSet_fits c)
    exact { hs with drawn := hs.drawn.trans_le (by simp) }

/-- A soft reset keeps the memories and the draws and has every register of the reset state (rule R427). -/
theorem Inv.resetRegisters (h : Inv s) : Inv s.resetRegisters where
  __ := h
  busy := nofun
  toneCnt := Inv.reset.toneCnt
  dmErrCnt := Inv.reset.dmErrCnt
  noDemod := Inv.reset.noDemod
  noSignal := nofun

theorem Inv.softReset (h : Inv s) : Inv s.softReset := h.abort.resetRegisters

/-- A power-on reset needs nothing of the state it ends: its draw is older than the next one (rule R500). -/
theorem Inv.powerOnReset (s : State) : Inv s.powerOnReset :=
  { Inv.reset with drawn := Nat.lt_succ_self s.draws }

/-! ### The host's turn -/

theorem Inv.writeCtrl (h : Inv s) (v : Word) : Inv (s.writeCtrl v) := by
  unfold State.writeCtrl
  split
  · exact h.softReset
  · exact { h with busy := h.busy }

/-- Of the registers a host write stores into, the invariant speaks of CTRL's reset, STATUS and CMD only (rule R105). -/
theorem Inv.writeReg (h : Inv s) (r : Reg) (v : Word) : Inv (s.writeReg r v) := by
  cases r
  case ctrl => exact h.writeCtrl v
  case status => exact h.writeStatus v
  case cmd => exact h.issue v
  all_goals exact { h with busy := h.busy }

theorem Inv.memWrite (h : Inv s) (a : Addr) (v : Word) : Inv (s.memWrite a v) := by
  rcases s.memWrite_cases a v with ⟨-, -, heq⟩ | ⟨-, ⟨r, -, heq⟩ | ⟨m, k, f, hloc, heq⟩ | ⟨-, heq⟩⟩ <;> rw [heq]
  · exact h.setOvr true
  · exact h.writeReg r v
  · exact h.writeElem (locate_elem hloc).1 v
  · exact h

theorem Inv.hostTurn (h : Inv s) : Inv s.hostTurn := by
  unfold State.hostTurn
  split
  · exact h
  · exact (h.withAgenda _).afterRead _
  · exact (h.withAgenda _).memWrite _ _
  · exact h.withAgenda _
  · exact Inv.powerOnReset _

/-! ### The commands -/

theorem Inv.packed (h : Inv s) : Inv s.packed := by
  rw [State.packed_eq]
  exact { h with code := Memory.wf_writeRange h.code 0 s.packCode (by simp [Region.capacity]) }

/-- The frame fits BYTES: MAXB is at least 120 (rule R9). -/
theorem Inv.joinFrame (h : Inv s) : Inv s.joinFrame :=
  { h with
    bytes := Memory.wf_writeRange h.bytes 0 s.wireFrame (by simpa [Region.capacity] using Config.maxB_ge) }

theorem Inv.splitFrame (h : Inv s) : Inv s.splitFrame :=
  { h with
    code := Memory.wf_writeRange h.code 0 (s.bytesRange 0 24) (by simp [Region.capacity])
    sig := Memory.wf_writeRange h.sig 0 (s.bytesRange 24 64) (by simp [Region.capacity])
    pk := Memory.wf_writeRange h.pk 0 (s.bytesRange 88 32) (by simp [Region.capacity]) }

/-- A timeline of at most MAXB bytes fits TONES, and TONE_CNT counts it (rule R306). -/
theorem Inv.withTimeline (h : Inv s) (hb : s.bLen.toNat ≤ Config.params.maxB) : Inv s.withTimeline where
  __ := h
  tones := Memory.wf_writeRange h.tones 0 _ (by simpa [Region.capacity] using Config.nTones_le hb)
  busy := h.busy
  toneCnt := by
    rw [State.withTimeline_toneCnt, BitVec.toNat_ofNat]
    exact (Nat.mod_le _ _).trans (Config.nTones_le hb)

/-- The rendering of at most MAXB bytes fits PCM (rules R9, R315). -/
theorem Inv.withWaveform (h : Inv s) (hb : s.bLen.toNat ≤ Config.params.maxB) : Inv s.withWaveform :=
  { h with pcm := Memory.wf_writeRange h.pcm 0 _ (by simpa [Region.capacity] using Config.lMod_le hb) }

/-- The result of RX_LEN bytes fits its memories, has an outcome, and a NOSIGNAL one is all zeros (rules R376 to R379). -/
theorem Inv.storeDemodResult (h : Inv s) (hrx : s.rxLen.toNat ≤ Config.params.maxB) :
    Inv (s.storeResult s.demodResult) := by
  have hlen : s.demodResult.decoded.length ≤ Config.params.maxB := by rwa [State.demodResult, demodulate_length]
  have herr := s.demodResult.errorPositions_length_le.trans hlen
  exact
    { h with
      bytes := Memory.wf_writeRange h.bytes 0 _ (by simpa [Region.capacity] using hlen)
      nconf := Memory.wf_writeRange h.nconf 0 _ (by simpa [Region.capacity] using hlen)
      epos := Memory.wf_writeRange h.epos 0 _ (by simpa [Region.capacity] using herr)
      busy := h.busy
      dmErrCnt := by
        rw [State.storeResult_dmErrCnt, BitVec.toNat_ofNat]
        exact (Nat.mod_le _ _).trans herr
      noDemod := fun hsync => absurd hsync (demodulate_sync_ne_none _ _ _ _)
      noSignal := fun hsync => by
        have hres : s.demodResult = noSignalResult s.rxLen.toNat := eq_noSignalResult_of_sync hsync
        rw [hres]
        exact ⟨rfl, rfl, round32_zero, (congrArg round32 (meanOf_noSignalResult _ _)).trans round32_zero⟩ }

/-- A command completes from a state that meets the invariant (rules R423, R424). -/
theorem Inv.exec {t : State} (h : Inv s) {i : Instr} (ht : exec i s = .next t) : Inv t := by
  obtain ⟨u, e, hu, hwrites⟩ := exec_eq_finish i s
  cases hu.symm.trans ht
  refine Inv.finish ?_ e
  cases hwrites with
  | failed => exact h
  | crc => exact h.withCrc _
  | verify => exact (h.withCrc _).withCrcOk _
  | pack => exact h.packed
  | unpackL => exact h.unpackWith _ _
  | unpackS => exact h.unpackWith _ _
  | packf => exact h.joinFrame
  | unpackf => exact h.splitFrame
  | tones hb => exact h.withTimeline hb
  | mod hb => exact (h.withTimeline hb).withWaveform hb
  | demod hrx => exact h.storeDemodResult hrx

end Sys2Proof.Safety

namespace Sys2Proof

open Sys2Proof.Machine Sys2Proof.Safety

/-- Settles O7, over the three kinds of step: the host's turn, a command's completion, an illegal word's completion. -/
theorem everyStepKeepsInv : Obligations.EveryStepKeepsInv := by
  intro s t h ht
  rcases step_cases s with ⟨-, hs⟩ | ⟨c, i, -, -, hs⟩ | ⟨c, e, -, -, hs⟩ <;> rw [hs] at ht
  · cases ht
    exact h.hostTurn
  · exact h.exec ht
  · cases ht
    exact h.finish .illegalCmd

end Sys2Proof
end

section
/-!
PROOFS. The registers as the host sees them (10_state.md): what they read, what a host write does to each of them, and
the interrupt level (statements O47, O50, O52, O56, O57).
-/

namespace Sys2Proof.Machine

variable {s : State} {a : Addr} {v : Word}

/-! ### Where a host write goes -/

theorem State.busyFlag_of_idle (h : s.phase = .idle) : s.busyFlag = false := by simp [State.busyFlag, h]

theorem State.busyFlag_of_busy {c : Word} (h : s.phase = .busy c) : s.busyFlag = true := by simp [State.busyFlag, h]

/-- In phase IDLE every write goes to its word (rule R105). -/
theorem State.memWrite_of_idle (h : s.phase = .idle) : s.memWrite a v = s.writeTarget (locate a) v := by
  simp [State.memWrite, State.busyFlag_of_idle h]

/-- While BUSY a write to a word that is not writable then sets OVR only (rule R425). -/
theorem State.memWrite_of_dropped {c : Word} (h : s.phase = .busy c) (hw : writableWhileBusy (locate a) = false) :
    s.memWrite a v = { s with ovr := true } := by
  simp [State.memWrite, State.busyFlag_of_busy h, hw]

theorem State.memWrite_ctrl (h : locate a = .reg .ctrl) : s.memWrite a v = s.writeCtrl v := by
  simp [State.memWrite, h, writableWhileBusy, State.writeTarget, State.writeReg]

theorem State.memWrite_status (h : locate a = .reg .status) : s.memWrite a v = s.writeStatus v := by
  simp [State.memWrite, h, writableWhileBusy, State.writeTarget, State.writeReg]

theorem State.memWrite_reg_of_idle {r : Reg} (hs : s.phase = .idle) (h : locate a = .reg r) :
    s.memWrite a v = s.writeReg r v := by
  rw [State.memWrite_of_idle hs, h, State.writeTarget]

/-! ### What a write to a register changes -/

theorem State.writeCtrl_of_noReset (h : v.getLsbD 0 = false) : s.writeCtrl v = { s with irqEn := v.getLsbD 1 } := by
  rw [State.writeCtrl, if_neg (ne_true_of_eq_false h)]

theorem State.issue_of_idle (h : s.phase = .idle) :
    s.issue v = { s with lastCmd := v, err := .none, done := false, phase := .busy v } := by
  simp [State.issue, h]

/-- The memories and the power-on draw are the same: all that elements are read from. -/
structure StoreSame (s t : State) : Prop where
  code : t.code = s.code
  sig : t.sig = s.sig
  pk : t.pk = s.pk
  bytes : t.bytes = s.bytes
  epos : t.epos = s.epos
  nconf : t.nconf = s.nconf
  tones : t.tones = s.tones
  pcm : t.pcm = s.pcm
  powerOnDraw : t.powerOnDraw = s.powerOnDraw

theorem StoreSame.memorySame {t : State} (h : StoreSame s t) : Safety.MemorySame s t :=
  State.readElem_congr h.code h.sig h.pk h.bytes h.epos h.nconf h.tones h.pcm h.powerOnDraw

/-- A write to a register other than CTRL changes no element: only a soft reset does. -/
theorem State.writeReg_storeSame {r : Reg} (h : r ≠ .ctrl) (v : Word) : StoreSame s (s.writeReg r v) := by
  cases r
  case ctrl => exact absurd rfl h
  case cmd =>
    simp only [State.writeReg, State.issue]
    split <;> exact ⟨rfl, rfl, rfl, rfl, rfl, rfl, rfl, rfl, rfl⟩
  all_goals exact ⟨rfl, rfl, rfl, rfl, rfl, rfl, rfl, rfl, rfl⟩

/-- A write to a register other than CTRL and CMD changes what that register reads and no other. -/
theorem State.readReg_writeReg_of_ne {r r' : Reg} (hctrl : r ≠ .ctrl) (hcmd : r ≠ .cmd) (h : r' ≠ r) (v : Word) :
    (s.writeReg r v).readReg r' = s.readReg r' := by
  cases r
  case ctrl => contradiction
  case cmd => contradiction
  case fMsg i =>
    cases r'
    case fMsg j =>
      have hij : i.val ≠ j.val := fun e => h (congrArg Reg.fMsg (Fin.ext e.symm))
      simp [State.writeReg, State.readReg, Vector.getElem_set_ne _ _ hij]
    all_goals rfl
  all_goals cases r' <;> first | rfl | contradiction

/-- The frame of a write to a register other than CTRL and CMD: that register, and no element. -/
theorem State.writeReg_frame {r : Reg} (hctrl : r ≠ .ctrl) (hcmd : r ≠ .cmd) (v : Word) :
    Safety.RegsSame [r] s (s.writeReg r v) ∧ Safety.MemorySame s (s.writeReg r v) :=
  ⟨fun _ hr' => State.readReg_writeReg_of_ne hctrl hcmd (List.ne_of_not_mem_cons hr') v,
    (State.writeReg_storeSame hctrl v).memorySame⟩

/-- The 32-bit registers a host can write, but for CTRL, STATUS and CMD (rule R30). -/
theorem State.readReg_writeReg_word {r : Reg}
    (h : r ∈ [Reg.fSev, .fLat, .fLon, .fPop, .codeLen, .sigLen, .pkLen, .bLen, .rxLen, .pcmLen]) (v : Word) :
    (s.writeReg r v).readReg r = v := by
  simp only [List.mem_cons, List.not_mem_nil, or_false] at h
  rcases h with rfl | rfl | rfl | rfl | rfl | rfl | rfl | rfl | rfl | rfl <;> rfl

/-- A byte register stores bits 7:0 of the written word (rules R40, R45, R46). -/
theorem State.readReg_writeReg_byte {r : Reg} (h : r = .fType ∨ r = .fMsgLen ∨ ∃ i, r = .fMsg i) (v : Word) :
    (s.writeReg r v).readReg r = (v.extractLsb' 0 8).setWidth 32 := by
  rw [← BitVec.setWidth_eq_extractLsb' (by decide)]
  obtain rfl | rfl | ⟨i, rfl⟩ := h
  · rfl
  · rfl
  · simp [State.writeReg, State.readReg]

/-- A write to a read-only register is ignored (rule R30). -/
theorem State.writeReg_readOnly {r : Reg}
    (h : r ∈ [Reg.capMaxB, .capPcmMax, .capFs, .capTMax, .err, .crcRes, .toneCnt, .dmSync, .dmOnset, .dmStart,
      .dmScore, .dmConf, .dmErrCnt]) (v : Word) : s.writeReg r v = s := by
  simp only [List.mem_cons, List.not_mem_nil, or_false] at h
  rcases h with rfl | rfl | rfl | rfl | rfl | rfl | rfl | rfl | rfl | rfl | rfl | rfl | rfl <;> rfl

/-! ### Writes that set a flag, and issue -/

theorem State.readReg_setIrqEn {r : Reg} (h : r ≠ .ctrl) (b : Bool) :
    State.readReg { s with irqEn := b } r = s.readReg r := by
  cases r <;> first | rfl | contradiction

theorem State.readReg_setOvr {r : Reg} (h : r ≠ .status) (b : Bool) :
    State.readReg { s with ovr := b } r = s.readReg r := by
  cases r <;> first | rfl | contradiction

/-- Issue writes LASTCMD, ERR and the flags (rule R421). -/
theorem State.readReg_issue {r : Reg} (hcmd : r ≠ .cmd) (herr : r ≠ .err) (hstatus : r ≠ .status) (v : Word) :
    (s.issue v).readReg r = s.readReg r := by
  unfold State.issue
  split
  · exact State.readReg_setOvr hstatus true
  · cases r <;> first | rfl | contradiction

theorem State.setOvr_storeSame (s : State) (b : Bool) : StoreSame s { s with ovr := b } :=
  ⟨rfl, rfl, rfl, rfl, rfl, rfl, rfl, rfl, rfl⟩

theorem State.setIrqEn_storeSame (s : State) (b : Bool) : StoreSame s { s with irqEn := b } :=
  ⟨rfl, rfl, rfl, rfl, rfl, rfl, rfl, rfl, rfl⟩

/-! ### STATUS and CTRL by their bits -/

/-- The five flags of STATUS and its reserved bits (rule R36). -/
theorem statusBits : ∀ busy done errf crcOk ovr : Bool,
    let w : Word := BitVec.setWidth 32 (BitVec.ofBool ovr ++ BitVec.ofBool crcOk ++ BitVec.ofBool errf ++
      BitVec.ofBool done ++ BitVec.ofBool busy)
    w.getLsbD 0 = busy ∧ w.getLsbD 1 = done ∧ w.getLsbD 2 = errf ∧ w.getLsbD 3 = crcOk ∧ w.getLsbD 4 = ovr ∧
      w.extractLsb' 5 27 = 0 := by decide

theorem State.statusWord_fields (s : State) :
    s.statusWord.getLsbD 0 = s.busyFlag ∧ s.statusWord.getLsbD 1 = s.done ∧ s.statusWord.getLsbD 2 = s.errFlag ∧
      s.statusWord.getLsbD 3 = s.crcOk ∧ s.statusWord.getLsbD 4 = s.ovr ∧ s.statusWord.extractLsb' 5 27 = 0 :=
  statusBits s.busyFlag s.done s.errFlag s.crcOk s.ovr

theorem State.busyFlag_iff (s : State) : s.busyFlag = true ↔ ∃ c, s.phase = .busy c := by
  unfold State.busyFlag
  split <;> simp_all

theorem ErrCode.toWord_ne_zero_iff (e : ErrCode) : e.toWord ≠ 0 ↔ e ≠ .none := by
  cases e <;> decide

theorem State.errFlag_iff (s : State) : s.errFlag = true ↔ s.readReg .err ≠ 0 := by
  simpa [State.errFlag, State.readReg] using s.err.toWord_ne_zero_iff.symm

theorem State.ctrlWord_eq (s : State) : s.ctrlWord = if s.irqEn then 2 else 0 := by
  unfold State.ctrlWord
  cases s.irqEn <;> rfl

end Sys2Proof.Machine

namespace Sys2Proof

open Sys2Proof.Machine Sys2Proof.Safety

/-- Settles O47: a write in phase IDLE is its register's own write, clause by clause. -/
theorem registerWritesWhileIdle : Obligations.RegisterWritesWhileIdle := by
  intro s a v hs
  refine ⟨fun r hr hloc => ?word, fun r hr hloc => ?byte, fun h => ?ignored, fun hloc => ?status,
    fun hloc hv => ?ctrl⟩
  case word =>
    rw [State.memWrite_reg_of_idle hs hloc]
    exact ⟨State.readReg_writeReg_word hr v,
      State.writeReg_frame (by rintro rfl; simp at hr) (by rintro rfl; simp at hr) v⟩
  case byte =>
    rw [State.memWrite_reg_of_idle hs hloc]
    exact ⟨State.readReg_writeReg_byte hr v,
      State.writeReg_frame (by rintro rfl; simp at hr) (by rintro rfl; simp at hr) v⟩
  case ignored =>
    obtain ⟨r, hr, hloc⟩ | hloc := h
    · rw [State.memWrite_reg_of_idle hs hloc, State.writeReg_readOnly hr]
    · rw [State.memWrite_of_idle hs, hloc, State.writeTarget]
  case status =>
    rw [State.memWrite_status hloc]
    exact ⟨rfl, rfl, rfl, hs, State.writeReg_frame (r := .status) (by decide) (by decide) v⟩
  case ctrl =>
    rw [State.memWrite_ctrl hloc, State.writeCtrl_of_noReset hv]
    exact ⟨rfl, hs, fun r hr => State.readReg_setIrqEn (by simpa using hr) _, (s.setIrqEn_storeSame _).memorySame⟩

/-- Settles O50: in phase IDLE the write is the issue of its word, while BUSY it is dropped. -/
theorem cmdWriteIssues : Obligations.CmdWriteIssues := by
  intro s a v hloc
  refine ⟨fun hs => ?idle, fun c hs => ?busy⟩
  case idle =>
    have hregs : RegsSame [.cmd, .err, .status] s (s.issue v) := fun r hr => by
      simp only [List.mem_cons, List.not_mem_nil, or_false, not_or] at hr
      obtain ⟨hcmd, herr, hstatus⟩ := hr
      exact State.readReg_issue hcmd herr hstatus v
    have hmem : MemorySame s (s.issue v) := (State.writeReg_storeSame (r := .cmd) (by decide) v).memorySame
    rw [State.memWrite_reg_of_idle hs hloc, State.writeReg]
    rw [State.issue_of_idle hs] at hregs hmem ⊢
    exact ⟨rfl, rfl, rfl, rfl, rfl, rfl, hregs, hmem⟩
  case busy =>
    rw [State.memWrite_of_dropped hs (by rw [hloc]; rfl)]
    exact ⟨hs, rfl, rfl, rfl, fun r hr => State.readReg_setOvr (by simpa using hr) true,
      (s.setOvr_storeSame true).memorySame⟩

/-- Settles O55: the host's turn is the reset, which lists no element as written and takes a new power-on draw. -/
theorem powerOnResetDrawsTheMemories : Obligations.PowerOnResetDrawsTheMemories := by
  intro s rest hc ha
  have hturn : s.hostTurn = (s.withAgenda rest).powerOnReset := by simp only [State.hostTurn, ha]
  rw [step_of_not_completing hc, hturn]
  exact ⟨_, rfl, rfl, rfl, rfl, State.readReg_powerOnReset _, fun m k f => by cases m <;> rfl⟩

/-- Settles O56: STATUS by its fields, CTRL by its two cases, every other word by its definition. -/
theorem controlAndStatusReads : Obligations.ControlAndStatusReads := by
  intro s
  obtain ⟨hbusy, hdone, herr, hcrcOk, hovr, hreserved⟩ := s.statusWord_fields
  refine ⟨?_, hdone, ?_, hcrcOk, hovr, hreserved, fun r hr => ?_, fun m k f => ?_⟩
  · rw [← s.busyFlag_iff, ← hbusy]
    rfl
  · rw [← s.errFlag_iff, ← herr]
    rfl
  · cases r
    case ctrl => exact s.ctrlWord_eq
    case status => contradiction
    all_goals rfl
  · cases m <;> rfl

/-- Settles O52, register by register from the fields of the reset state. -/
theorem registersAfterReset : Obligations.RegistersAfterReset := by
  intro r
  cases r
  case fMsg i => revert i; decide
  all_goals rfl

/-- Settles O57: the writes set IRQ_EN or clear DONE, and the level follows. -/
theorem interruptFollowsEnableAndDone : Obligations.InterruptFollowsEnableAndDone := by
  intro s a v
  refine ⟨by simp [State.irq], fun hloc hv => ?ctrl, fun hloc hv => ?status⟩
  case ctrl =>
    rw [State.memWrite_ctrl hloc, State.writeCtrl_of_noReset hv]
    exact ⟨rfl, rfl⟩
  case status =>
    rw [State.memWrite_status hloc, State.irq, State.writeStatus_done, hv]
    simp

end Sys2Proof
end

section
/-!
PROOFS. What changes CRC_OK (10_state.md rule R36, statement O60).
-/

namespace Sys2Proof.Machine

/-- Before its completion a command other than VERIFY and UNPACK leaves CRC_OK as it is. -/
theorem CommandWrites.crcOk {s u : State} {i : Instr} (h : CommandWrites s i u) :
    u.crcOk = s.crcOk ∨ i = .verify ∨ i = .unpackL ∨ i = .unpackS := by
  cases h with
  | verify | unpackL | unpackS => simp
  | pack => exact .inl s.packed_crcOk
  | _ => exact .inl rfl

theorem exec_crcOk {s t : State} {i : Instr} (h : exec i s = .next t) :
    t.crcOk = s.crcOk ∨ i = .verify ∨ i = .unpackL ∨ i = .unpackS := by
  obtain ⟨u, e, hu, hwrites⟩ := exec_eq_finish i s
  cases hu.symm.trans h
  exact hwrites.crcOk

/-- A host write leaves CRC_OK as it is, or is a soft reset. -/
theorem State.memWrite_crcOk (s : State) (a : Addr) (v : Word) :
    (s.memWrite a v).crcOk = s.crcOk ∨ s.memWrite a v = s.softReset := by
  rcases s.memWrite_cases a v with ⟨-, -, heq⟩ | ⟨-, ⟨r, -, heq⟩ | ⟨m, k, f, -, heq⟩ | ⟨-, heq⟩⟩ <;> rw [heq]
  case inl => exact .inl rfl
  case inr.inr.inr => exact .inl rfl
  case inr.inr.inl => cases m <;> exact .inl rfl
  case inr.inl =>
    cases r
    case ctrl =>
      rw [State.writeReg, State.writeCtrl]
      split
      · exact .inr rfl
      · exact .inl rfl
    case cmd =>
      rw [State.writeReg, State.issue]
      split <;> exact .inl rfl
    all_goals exact .inl rfl

/-- A turn of the host leaves CRC_OK as it is, or every register at its reset value. -/
theorem State.hostTurn_crcOk (s : State) :
    s.hostTurn.crcOk = s.crcOk ∨ ∀ r, s.hostTurn.readReg r = State.reset.readReg r := by
  unfold State.hostTurn
  split
  · exact .inl rfl
  · exact .inl rfl
  · next a v rest _ =>
    refine ((s.withAgenda rest).memWrite_crcOk a v).imp_right fun heq => ?_
    rw [heq]
    exact State.readReg_resetRegisters _
  · exact .inl rfl
  · exact .inr (State.readReg_powerOnReset _)

end Sys2Proof.Machine

namespace Sys2Proof

open Sys2Proof.Machine Sys2Proof.Safety

/-- Settles O60, over the three kinds of step. -/
theorem onlyChecksAndResetsChangeCrcOk : Obligations.OnlyChecksAndResetsChangeCrcOk := by
  intro s t ht hne
  rcases step_cases s with ⟨-, hs⟩ | ⟨c, i, hc, hd, hs⟩ | ⟨c, e, -, -, hs⟩ <;> rw [hs] at ht
  · cases ht
    exact .inr (s.hostTurn_crcOk.resolve_left hne)
  · refine .inl ⟨c, State.completing_eq_some.mp hc, ?_⟩
    rw [hd]
    exact ((exec_crcOk ht).resolve_left hne).imp (congrArg _) (Or.imp (congrArg _) (congrArg _))
  · cases ht
    exact absurd rfl hne

end Sys2Proof
end

section
/-!
PROOFS. The step (45_control.md rules R420, R423, R424): it always answers a next state, and it is the running command
or the host's write (statements O4, O5).
-/

namespace Sys2Proof.Machine

/-- A decoded table word is the decoded command word (rule R140). -/
theorem decodeTableWord_eq_some {nbits w : Nat} {i : Instr} (h : decodeTableWord nbits w = some i) :
    decode (BitVec.ofNat 32 (w % 2 ^ nbits)) = .ok i := by
  unfold decodeTableWord at h
  split at h
  · next j hj => rw [hj, Option.some.inj h]
  · cases h

/-- The word that `withFetchWord` places is issued, and the sequencer has the next turn. -/
theorem turnToComplete_withFetchWord (s : State) (nbits w : Nat) :
    Safety.TurnToComplete (s.withFetchWord nbits w) (BitVec.ofNat 32 (w % 2 ^ nbits)) :=
  ⟨rfl, .inr ⟨s.agenda, rfl⟩⟩

/-- On its turn the sequencer runs the decoded command (rule R423). -/
theorem step_of_turnToComplete {s : State} {c : Word} {i : Instr} (h : Safety.TurnToComplete s c)
    (hd : decode c = .ok i) : step s = exec i s := by
  simp only [step, State.completing_eq_some.mpr h, hd]

/-- On the host's turn to write nothing completes. -/
theorem State.completing_of_hostWrite {s : State} {a : Addr} {v : Word} {rest : List Turn}
    (h : s.agenda = .hostWrite a v :: rest) : s.completing = none := by
  cases hs : s.phase <;> simp [State.completing, hs, h]

end Sys2Proof.Machine

namespace Sys2Proof

open Sys2Proof.Machine

/-- Settles O4: the sequencer's turn, the host's turn, and the first again for the placed word. -/
theorem stepRunsTheDecodedCommand : Obligations.StepRunsTheDecodedCommand := by
  refine ⟨fun s c i => step_of_turnToComplete, fun s a v rest hagenda => ?write, fun s nbits w i hd => ?placed⟩
  case write =>
    rw [step_of_not_completing (State.completing_of_hostWrite hagenda)]
    simp only [State.hostTurn, hagenda]
  case placed =>
    exact step_of_turnToComplete (turnToComplete_withFetchWord s nbits w) (decodeTableWord_eq_some hd)

/-- Settles O5: the host's turn is a state, and so is every completion. -/
theorem stepAlwaysAnswersNext : Obligations.StepAlwaysAnswersNext := by
  intro s
  cases hc : s.completing with
  | none => exact ⟨_, step_of_not_completing hc⟩
  | some c =>
    obtain ⟨t, ht, -⟩ := step_of_completing hc
    exact ⟨t, ht⟩

end Sys2Proof
end

section
/-!
PROOFS. The address map (20_memory.md rules R101, R103, R108): where the words of registers and memories lie, and what
the low address bits do (statements O44, O45).
-/

namespace Sys2Proof.Machine

/-! ### The map -/

/-- A word lies in a memory exactly as word `f` of some element `k` of it. -/
theorem Region.exists_elem_of_holds {m : Region} {w : Nat} (h : m.holds w = true) :
    ∃ k f, k < m.capacity ∧ f < m.strideWords ∧ w = m.base / 4 + m.strideWords * k + f := by
  have hstride : 0 < m.strideWords := by cases m <;> decide
  refine ⟨_, _, Region.index_lt_of_holds h, Nat.mod_lt (w - m.base / 4) hstride, ?_⟩
  have hsplit := Nat.div_add_mod (w - m.base / 4) m.strideWords
  simp only [Region.holds, Bool.and_eq_true, decide_eq_true_eq] at h
  omega

/-- Every word of every element of a memory lies in it. -/
theorem Region.holds_elem {m : Region} {k f : Nat} (hk : k < m.capacity) (hf : f < m.strideWords) :
    m.holds (m.base / 4 + m.strideWords * k + f) = true := by
  have hend : m.strideWords * (k + 1) ≤ m.strideWords * m.capacity := Nat.mul_le_mul_left _ hk
  rw [Nat.mul_succ] at hend
  simp only [Region.holds, Bool.and_eq_true, decide_eq_true_eq]
  omega

/-- The memories lie behind the register region (rule R101). -/
theorem Region.base_ge (m : Region) : 0x40 ≤ m.base / 4 := by cases m <;> decide

theorem locateWord_elem {m : Region} {k f : Nat} (hk : k < m.capacity) (hf : f < m.strideWords) :
    locateWord (m.base / 4 + m.strideWords * k + f) = .elem m k f := by
  have hreg := m.base_ge
  have hindex : m.base / 4 + m.strideWords * k + f - m.base / 4 = m.strideWords * k + f := by omega
  rw [locateWord, if_neg (by omega), Region.find_eq_some (Region.holds_elem hk hf)]
  simp only
  rw [hindex, Nat.mul_add_div (by omega), Nat.mul_add_mod, Nat.div_eq_of_lt hf, Nat.mod_eq_of_lt hf, Nat.add_zero]

/-- No two registers share an offset: the search finds each register at its own (rule R30). -/
theorem locateWord_reg (r : Reg) : locateWord (r.offset / 4) = .reg r := by
  cases r
  case fMsg i => revert i; decide
  all_goals rfl

theorem locateWord_unmapped {w : Nat} (hreg : ∀ r : Reg, r.offset ≠ 4 * w)
    (helem : ∀ (m : Region) (k f : Nat), k < m.capacity → f < m.strideWords →
      w ≠ m.base / 4 + m.strideWords * k + f) : locateWord w = .unmapped := by
  have hatWord : Reg.atWord w = none := List.find?_eq_none.mpr fun r _ => by simpa using hreg r
  have hfind : Region.all.find? (fun m => m.holds w) = none := List.find?_eq_none.mpr fun m _ hw => by
    obtain ⟨k, f, hk, hf, heq⟩ := Region.exists_elem_of_holds hw
    exact helem m k f hk hf heq
  rw [locateWord, hatWord, hfind]
  exact ite_self _

/-! ### The low address bits -/

/-- The word of a bus address is a[23:2] (rule R103). -/
theorem toNat_div_four (a : Addr) : a.toNat / 4 = (a.extractLsb' 2 22).toNat := by
  have := a.isLt
  rw [BitVec.extractLsb'_toNat, Nat.shiftRight_eq_div_pow, Nat.mod_eq_of_lt (by omega)]

theorem locate_congr {a b : Addr} (h : a.toNat / 4 = b.toNat / 4) : locate a = locate b := congrArg locateWord h

/-- A read depends on the word of its address only. -/
theorem State.memRead_congr (s : State) {a b : Addr} (h : a.toNat / 4 = b.toNat / 4) : s.memRead a = s.memRead b := by
  rw [State.memRead, State.memRead, locate_congr h, h]

/-- A write depends on the word of its address only. -/
theorem State.memWrite_congr (s : State) {a b : Addr} (h : a.toNat / 4 = b.toNat / 4) (v : Word) :
    s.memWrite a v = s.memWrite b v := by
  rw [State.memWrite, State.memWrite, locate_congr h]

end Sys2Proof.Machine

namespace Sys2Proof

open Sys2Proof.Machine

/-- Settles O44: the tables are the definitions; the places of elements and registers and the unmapped rest are the
three lemmas on `locateWord`. -/
theorem locateIsTheAddressMap : Obligations.LocateIsTheAddressMap := by
  refine ⟨fun _ => rfl, fun r => ?offsets, fun m => ?regions, fun m k f => locateWord_elem, locateWord_reg,
    fun w => locateWord_unmapped⟩
  case offsets => cases r <;> rfl
  case regions => cases m <;> rfl

/-- Settles O45: both addresses have the same word. -/
theorem lowAddressBitsAreIgnored : Obligations.LowAddressBitsAreIgnored := by
  intro s a b v h
  have hword : a.toNat / 4 = b.toNat / 4 := by rw [toNat_div_four, toNat_div_four, h]
  exact ⟨s.memRead_congr hword, s.memWrite_congr hword v⟩

end Sys2Proof
end

section
/-!
PROOFS. The host's accesses to the memories and while a command runs (20_memory.md rules R102, R104, R105, R110, R113):
reads, writes of elements in phase IDLE, and what a running command can read (statements O46, O48, O51).
-/

namespace Sys2Proof.Machine

variable {s : State} {a : Addr} {v : Word}

/-! ### Reads -/

theorem readableWhileBusy_iff {t : Target} :
    readableWhileBusy t = true ↔
      ∃ r ∈ [Reg.capMaxB, .capPcmMax, .capFs, .capTMax, .ctrl, .status, .cmd, .err], t = .reg r := by
  cases t with
  | reg r => cases r <;> simp [readableWhileBusy]
  | elem m k f => simp [readableWhileBusy]
  | unmapped => simp [readableWhileBusy]

theorem State.memRead_of_value (h : s.readIsDraw (locate a) = false) : s.memRead a = s.readTarget (locate a) := by
  rw [State.memRead, if_neg (ne_true_of_eq_false h)]

theorem State.memRead_of_draw (h : s.readIsDraw (locate a) = true) :
    s.memRead a = Config.draw s.draws (4 * (a.toNat / 4)) := by
  rw [State.memRead, if_pos h]

theorem State.readReg_afterRead (s : State) (a : Addr) (r : Reg) : (s.afterRead a).readReg r = s.readReg r := by
  cases r <;> rfl

theorem State.readReg_withAgenda (s : State) (rest : List Turn) (r : Reg) :
    (s.withAgenda rest).readReg r = s.readReg r := by
  cases r <;> rfl

theorem State.afterRead_storeSame (s : State) (a : Addr) : StoreSame s (s.afterRead a) :=
  ⟨rfl, rfl, rfl, rfl, rfl, rfl, rfl, rfl, rfl⟩

theorem State.withAgenda_storeSame (s : State) (rest : List Turn) : StoreSame s (s.withAgenda rest) :=
  ⟨rfl, rfl, rfl, rfl, rfl, rfl, rfl, rfl, rfl⟩

/-- The agenda is no part of what a word holds. -/
theorem State.readTarget_withAgenda (s : State) (rest : List Turn) (t : Target) :
    (s.withAgenda rest).readTarget t = s.readTarget t := by
  cases t with
  | reg r => exact s.readReg_withAgenda rest r
  | elem m k f => exact (s.withAgenda_storeSame rest).memorySame m k f
  | unmapped => rfl

/-! ### Writes of elements in phase IDLE -/

theorem State.memWrite_elem_of_idle {m : Region} {k f : Nat} (hs : s.phase = .idle) (h : locate a = .elem m k f) :
    s.memWrite a v = s.writeElem m k v := by
  rw [State.memWrite_of_idle hs, h, State.writeTarget]

theorem State.readReg_writeElem (s : State) (m : Region) (k : Nat) (v : Word) (r : Reg) :
    (s.writeElem m k v).readReg r = s.readReg r := by
  cases m <;> cases r <;> rfl

/-- A write to an element leaves every other element alone: the others of its memory are outside the written range, and
the other memories are not written. -/
theorem State.readElem_writeElem_of_ne {m m' : Region} {k k' : Nat} (h : ¬ (m' = m ∧ k' = k)) (v : Word) (f : Nat) :
    (s.writeElem m k v).readElem m' k' f = s.readElem m' k' f := by
  by_cases hm : m' = m
  · subst hm
    have houtside : k' < k ∨ k + 1 ≤ k' := by
      have : k' ≠ k := fun hk => h ⟨rfl, hk⟩
      omega
    cases m' <;> simp only [State.writeElem, State.readElem]
    case code => rw [State.codeAt_writeCode_of_outside _ _ _ _ houtside]
    case sig => rw [State.sigAt_writeSig_of_outside _ _ _ _ houtside]
    case pk => rw [State.pkAt_writePk_of_outside _ _ _ _ houtside]
    case bytes => rw [State.bytesAt_writeBytes_of_outside _ _ _ _ houtside]
    case pcm => rw [State.pcmAt_writePcm_of_outside _ _ _ _ houtside]
  · cases m <;> cases m' <;> first | rfl | contradiction

/-- A written byte element reads back bits 7:0 (rule R102). -/
theorem State.readElem_writeElem_byte {m : Region} (h : m = .code ∨ m = .sig ∨ m = .pk ∨ m = .bytes) (k f : Nat)
    (v : Word) : (s.writeElem m k v).readElem m k f = (v.extractLsb' 0 8).setWidth 32 := by
  rw [← BitVec.setWidth_eq_extractLsb' (by decide)]
  obtain rfl | rfl | rfl | rfl := h
  · simp [State.writeElem, State.readElem, State.codeAt_writeCode]
  · simp [State.writeElem, State.readElem, State.sigAt_writeSig]
  · simp [State.writeElem, State.readElem, State.pkAt_writePk]
  · simp [State.writeElem, State.readElem, State.bytesAt_writeBytes]

/-- A written sample reads back whole (rule R102). -/
theorem State.readElem_writeElem_pcm (s : State) (k f : Nat) (v : Word) :
    (s.writeElem .pcm k v).readElem .pcm k f = v := by
  simp [State.writeElem, State.readElem, State.pcmAt_writePcm]

theorem State.writeElem_readOnly {m : Region} (h : m = .epos ∨ m = .nconf ∨ m = .tones) (k : Nat) (v : Word) :
    s.writeElem m k v = s := by
  obtain rfl | rfl | rfl := h <;> rfl

/-! ### What a running command can read -/

/-- The phase and everything a command can read are the same: every register but CTRL and STATUS, and every element. -/
structure InputsSame (s t : State) : Prop where
  phase : t.phase = s.phase
  regs : Safety.RegsSame [.ctrl, .status] s t
  store : StoreSame s t

theorem InputsSame.refl (s : State) : InputsSame s s :=
  ⟨rfl, fun _ _ => rfl, rfl, rfl, rfl, rfl, rfl, rfl, rfl, rfl, rfl⟩

theorem InputsSame.withAgenda (s : State) (rest : List Turn) : InputsSame s (s.withAgenda rest) :=
  ⟨rfl, fun r _ => s.readReg_withAgenda rest r, s.withAgenda_storeSame rest⟩

theorem InputsSame.afterRead (s : State) (a : Addr) : InputsSame s (s.afterRead a) :=
  ⟨rfl, fun r _ => s.readReg_afterRead a r, s.afterRead_storeSame a⟩

theorem StoreSame.trans {s t u : State} (h : StoreSame s t) (k : StoreSame t u) : StoreSame s u :=
  ⟨k.1.trans h.1, k.2.trans h.2, k.3.trans h.3, k.4.trans h.4, k.5.trans h.5, k.6.trans h.6, k.7.trans h.7,
    k.8.trans h.8, k.9.trans h.9⟩

theorem InputsSame.trans {s t u : State} (h : InputsSame s t) (k : InputsSame t u) : InputsSame s u :=
  ⟨k.phase.trans h.phase, fun r hr => (k.regs r hr).trans (h.regs r hr), h.store.trans k.store⟩

/-- While BUSY, a write that does not end the command is a write to STATUS, one of IRQ_EN, or dropped (rule R425). -/
theorem InputsSame.memWrite {c : Word} (hs : s.phase = .busy c) (hrun : (s.memWrite a v).phase ≠ .idle) :
    InputsSame s (s.memWrite a v) := by
  by_cases hctrl : locate a = .reg .ctrl
  · rw [State.memWrite_ctrl hctrl] at hrun ⊢
    cases hv : v.getLsbD 0
    · rw [State.writeCtrl_of_noReset hv]
      exact ⟨rfl, fun r hr => State.readReg_setIrqEn (fun h => hr (by simp [h])) _, s.setIrqEn_storeSame _⟩
    · rw [State.writeCtrl, if_pos hv] at hrun
      exact absurd rfl hrun
  by_cases hstatus : locate a = .reg .status
  · rw [State.memWrite_status hstatus]
    refine ⟨rfl, fun r hr => ?_, State.writeReg_storeSame (r := .status) (by decide) v⟩
    exact State.readReg_writeReg_of_ne (r := .status) (by decide) (by decide) (fun h => hr (by simp [h])) v
  · have hdrop : writableWhileBusy (locate a) = false := by
      unfold writableWhileBusy
      split <;> simp_all
    rw [State.memWrite_of_dropped hs hdrop]
    exact ⟨rfl, fun r hr => State.readReg_setOvr (fun h => hr (by simp [h])) true, s.setOvr_storeSame true⟩

/-- A turn of the host that leaves a command running leaves its inputs alone: the resets end the command. -/
theorem InputsSame.hostTurn {c : Word} (hs : s.phase = .busy c) (hrun : s.hostTurn.phase ≠ .idle) :
    InputsSame s s.hostTurn := by
  rcases hagenda : s.agenda with _ | ⟨turn, rest⟩
  · simp only [State.hostTurn, hagenda]
    exact InputsSame.refl s
  · have hrest := InputsSame.withAgenda s rest
    cases turn <;> simp only [State.hostTurn, hagenda] at hrun ⊢
    case hostRead a => exact hrest.trans (InputsSame.afterRead _ a)
    case hostWrite a v => exact hrest.trans (InputsSame.memWrite (s := s.withAgenda rest) hs hrun)
    case sequencer => exact hrest
    case powerOn => exact absurd rfl hrun

end Sys2Proof.Machine

namespace Sys2Proof

open Sys2Proof.Machine Sys2Proof.Safety

/-- Settles O46: the step is the read's log entry and draw, on a state that is otherwise the same. -/
theorem readsHaveNoSideEffect : Obligations.ReadsHaveNoSideEffect := by
  refine ⟨fun s => ⟨fun _ => rfl, fun _ _ _ => rfl, rfl⟩, fun s a rest hc hagenda => ?_⟩
  have hturn : s.hostTurn = (s.withAgenda rest).afterRead a := by simp only [State.hostTurn, hagenda]
  have hregs : RegsSame [] s ((s.withAgenda rest).afterRead a) := fun r _ =>
    (State.readReg_afterRead _ a r).trans (s.readReg_withAgenda rest r)
  have hstore : StoreSame s ((s.withAgenda rest).afterRead a) :=
    (s.withAgenda_storeSame rest).trans (State.afterRead_storeSame _ a)
  rw [step_of_not_completing hc, hturn]
  refine ⟨_, rfl, rfl, rfl, rfl, rfl, hregs, hstore.memorySame, rfl, fun h => ?value, fun ⟨c, hs⟩ hloc => ?draw⟩
  case value =>
    have hvalue : (s.withAgenda rest).readIsDraw (locate a) = false := by
      rcases h with hs | hloc
      · rw [State.readIsDraw, State.busyFlag_of_idle (s := s.withAgenda rest) hs, Bool.false_and]
      · rw [State.readIsDraw, readableWhileBusy_iff.mpr hloc, Bool.not_true, Bool.and_false]
    rw [State.afterRead_readLog, State.afterRead_draws, State.memRead_of_value hvalue, State.readTarget_withAgenda,
      hvalue]
    exact ⟨rfl, rfl⟩
  case draw =>
    have hdraw : (s.withAgenda rest).readIsDraw (locate a) = true := by
      have hnot : readableWhileBusy (locate a) = false := by
        rw [← Bool.not_eq_true, readableWhileBusy_iff]
        exact fun ⟨r, hr, heq⟩ => hloc r hr heq
      rw [State.readIsDraw, State.busyFlag_of_busy (s := s.withAgenda rest) hs, hnot]
      rfl
    rw [State.afterRead_readLog, State.afterRead_draws, State.memRead_of_draw hdraw, hdraw]
    exact ⟨rfl, rfl⟩

/-- Settles O48: a write in phase IDLE is its element's own write. -/
theorem elementWritesWhileIdle : Obligations.ElementWritesWhileIdle := by
  refine ⟨fun s k => ⟨rfl, rfl, rfl, rfl⟩, fun s a v m k f hs hloc => ?_⟩
  rw [State.memWrite_elem_of_idle hs hloc]
  refine ⟨fun r _ => s.readReg_writeElem m k v r, fun m' k' f' h => State.readElem_writeElem_of_ne h v f',
    fun h => State.readElem_writeElem_byte h k f v, ?_, fun h => State.writeElem_readOnly h k v⟩
  rintro rfl
  exact s.readElem_writeElem_pcm k f v

/-- Settles O51: a completion ends in IDLE, so the step is a turn of the host. -/
theorem runningCommandKeepsItsInputs : Obligations.RunningCommandKeepsItsInputs := by
  intro s t c hs ht hrun
  cases hc : s.completing with
  | some c' =>
    obtain ⟨u, hu, hidle, -⟩ := step_of_completing hc
    cases hu.symm.trans ht
    exact absurd hidle hrun
  | none =>
    cases (step_of_not_completing hc).symm.trans ht
    have hsame := InputsSame.hostTurn hs hrun
    exact ⟨hsame.phase.trans hs, hsame.regs, hsame.store.memorySame⟩

end Sys2Proof
end

section
/-!
PROOFS. What DEMOD reads (20_memory.md rule R118, 44_demodulator.md rule R380; statement O32).
-/

namespace Sys2Proof.Machine

/-- DEMOD's result is a function of RX_LEN, PCM_LEN and PCM[0..PCM_LEN) (rule R380). -/
theorem State.demodResult_congr {s s' : State} (hrx : s'.rxLen = s.rxLen) (hlen : s'.pcmLen = s.pcmLen)
    (hpcm : ∀ n, n < s.pcmLen.toNat → s'.pcmAt n = s.pcmAt n) : s'.demodResult = s.demodResult := by
  have hrange : s'.pcmRange s.pcmLen.toNat = s.pcmRange s.pcmLen.toNat :=
    List.map_congr_left fun n hn => hpcm n (List.mem_range.mp hn)
  rw [State.demodResult, State.demodResult, hrx, hlen, hrange]

/-- A demodulation decodes RX_LEN bytes. -/
theorem State.demodResult_length (s : State) : s.demodResult.decoded.length = s.rxLen.toNat :=
  demodulate_length _ _ _ _

section

variable (s : State) {r : DecodeResult} {k : Nat}

/-- The elements a result covers are the result's, whatever they held before (rule R379). -/
theorem State.bytesAt_storeResult_of_lt (h : k < r.decoded.length) :
    (s.storeResult r).bytesAt k = r.decoded[k].value := by
  rw [State.bytesAt_storeResult, List.getElem?_map, List.getElem?_eq_getElem h]
  rfl

theorem State.nconfAt_storeResult_of_lt (h : k < r.confidences.length) :
    (s.storeResult r).nconfAt k = round32 r.confidences[k] := by
  rw [State.nconfAt_storeResult, List.getElem?_map, List.getElem?_eq_getElem h]
  rfl

theorem State.eposAt_storeResult_of_lt (h : k < r.errorPositions.length) :
    (s.storeResult r).eposAt k = BitVec.ofNat 32 r.errorPositions[k] := by
  rw [State.eposAt_storeResult, List.getElem?_map, List.getElem?_eq_getElem h]
  rfl

end

/-- The registers that one result sets in two states with the same RX_LEN (rule R379). -/
theorem State.readReg_storeResult {s s' : State} (hrx : s'.rxLen = s.rxLen) (r : DecodeResult) {reg : Reg}
    (h : reg ∈ [Reg.bLen, .dmSync, .dmOnset, .dmStart, .dmScore, .dmConf, .dmErrCnt]) :
    (s'.storeResult r).readReg reg = (s.storeResult r).readReg reg := by
  simp only [List.mem_cons, List.not_mem_nil, or_false] at h
  obtain rfl | rfl | rfl | rfl | rfl | rfl | rfl := h
  · exact hrx
  all_goals rfl

end Sys2Proof.Machine

namespace Sys2Proof

open Sys2Proof.Machine

/-- Settles O32: both states have one result, and DEMOD's outputs are read from it. -/
theorem demodReadsTheCaptureOnly : Obligations.DemodReadsTheCaptureOnly := by
  intro s s' hrx hlen hrx' hlen' hpcm
  have hres := State.demodResult_congr hrx' hlen' hpcm
  have hfits : s.captureTooLong = false := captureTooLong_eq_false.mpr ⟨hrx, hlen⟩
  have hfits' : s'.captureTooLong = false := captureTooLong_eq_false.mpr ⟨hrx' ▸ hrx, hlen' ▸ hlen⟩
  have hbytes := s.demodResult_length
  have hconfs : s.demodResult.confidences.length = 2 * s.rxLen.toNat := by
    rw [DecodeResult.confidences_length, hbytes]
  refine ⟨_, _, execDemod_of_fits hfits, execDemod_of_fits hfits', ?_⟩
  rw [hres]
  refine ⟨fun r hr => ?regs, fun j hj => ?bytes, fun j hj => ?nconf, fun e he => ?epos⟩
  case regs =>
    rw [State.readReg_finish _ _ (by rintro rfl; simp at hr) (by rintro rfl; simp at hr),
      State.readReg_finish _ _ (by rintro rfl; simp at hr) (by rintro rfl; simp at hr)]
    exact State.readReg_storeResult hrx' _ hr
  case bytes =>
    rw [← hbytes] at hj
    rw [State.bytesAt_finish, State.bytesAt_finish, State.bytesAt_storeResult_of_lt s' hj,
      State.bytesAt_storeResult_of_lt s hj]
  case nconf =>
    rw [← hconfs] at hj
    rw [State.nconfAt_finish, State.nconfAt_finish, State.nconfAt_storeResult_of_lt s' hj,
      State.nconfAt_storeResult_of_lt s hj]
  case epos =>
    have hj : e < s.demodResult.errorPositions.length := by
      rw [State.finish_dmErrCnt, State.storeResult_dmErrCnt, BitVec.toNat_ofNat] at he
      exact he.trans_le (Nat.mod_le _ _)
    rw [State.eposAt_finish, State.eposAt_finish, State.eposAt_storeResult_of_lt s' hj,
      State.eposAt_storeResult_of_lt s hj]

end Sys2Proof
end

section
/-!
PROOFS. The command word (30_encoding.md rules R140 to R143, R151): decode inverts encode, which words are legal, how an
illegal one ends, and what the abort of a command writes (statements O1, O2, O3, O54).
-/

namespace Sys2Proof

/-! ### The word and its fields -/

/-- Splitting a word into its fields loses no bit: each bit lies in OP, in S or in RES (rule R140). -/
theorem CommandFields.toWord_ofWord (w : Word) : (CommandFields.ofWord w).toWord = w := by
  refine BitVec.eq_of_getLsbD_eq fun k hk => ?_
  simp only [toWord, ofWord, BitVec.getLsbD_append, BitVec.getLsbD_extractLsb', BitVec.getLsbD_ofBool]
  rcases (by omega : k < 8 ∨ k = 8 ∨ 9 ≤ k) with hop | rfl | hres
  · simp [hop]
  · simp
  · have hsplit : 9 + (k - 8 - 1) = k := by omega
    simp [hsplit, show ¬ k < 8 by omega, show ¬ k - 8 < 1 by omega, show k - 8 - 1 < 23 by omega]

/-- Every command as syntax meets the checks of the word (rule R142). -/
theorem Laws.CommandWord.all (i : Instr) : Laws.CommandWord.Statement i := by
  cases i
  case crc => exact crc
  case verify => exact verify
  case pack => exact pack
  case unpackL => exact unpackL
  case unpackS => exact unpackS
  case packf => exact packf
  case unpackf => exact unpackf
  case tones => exact tones
  case mod => exact mod
  case demod => exact demod

/-- A word has the fields of a command exactly when it is that command's word (rule R151). -/
theorem ofWord_eq_fields_iff {w : Word} {i : Instr} : CommandFields.ofWord w = i.fields ↔ w = encode i := by
  obtain ⟨-, hfields, -⟩ := Laws.CommandWord.all i
  constructor
  · intro h
    rw [encode, ← h, CommandFields.toWord_ofWord]
  · rintro rfl
    exact hfields

/-! ### Decoding -/

/-- A row of the table of rule R141 gives a command from that command's OP and S only. -/
theorem eq_fields_of_decodeOp {op : Nat} {strict : Bool} {i : Instr} (h : decodeOp op strict = .ok i) :
    op = i.fields.op.toNat ∧ strict = i.fields.strict := by
  unfold decodeOp at h
  split at h
  case h_11 => split at h <;> cases h
  all_goals
    cases h
    exact ⟨rfl, rfl⟩

theorem Instr.fields_reserved (i : Instr) : i.fields.reserved = 0 := by cases i <;> rfl

/-- Fields decode to a command exactly when they are that command's fields (rules R141, R142). -/
theorem decodeFields_eq_ok_iff {f : CommandFields} {i : Instr} : decodeFields f = .ok i ↔ f = i.fields := by
  constructor
  · intro h
    unfold decodeFields at h
    split at h
    · next hreserved =>
      obtain ⟨hop, hstrict⟩ := eq_fields_of_decodeOp h
      calc f = ⟨f.op, f.strict, f.reserved⟩ := rfl
        _ = ⟨i.fields.op, i.fields.strict, i.fields.reserved⟩ := by
          rw [BitVec.eq_of_toNat_eq hop, hstrict, hreserved, i.fields_reserved]
    · cases h
  · rintro rfl
    cases i <;> rfl

theorem decode_eq_ok_iff {w : Word} {i : Instr} : decode w = .ok i ↔ w = encode i :=
  decodeFields_eq_ok_iff.trans ofWord_eq_fields_iff

/-- The fields of the commands are those rule R142 calls legal. -/
theorem exists_eq_fields_iff {f : CommandFields} : (∃ i : Instr, f = i.fields) ↔
    f.reserved = 0 ∧
      ((f.op ∈ [0x01#8, 0x02#8, 0x03#8, 0x05#8, 0x06#8, 0x07#8, 0x08#8, 0x09#8] ∧ f.strict = false) ∨
        f.op = 0x04#8) := by
  constructor
  · rintro ⟨i, rfl⟩
    cases i <;> decide
  · obtain ⟨op, strict, reserved⟩ := f
    simp only [List.mem_cons, List.not_mem_nil, or_false]
    rintro ⟨rfl, ⟨hop, rfl⟩ | rfl⟩
    · obtain rfl | rfl | rfl | rfl | rfl | rfl | rfl | rfl := hop
      exacts [⟨.crc, rfl⟩, ⟨.verify, rfl⟩, ⟨.pack, rfl⟩, ⟨.packf, rfl⟩, ⟨.unpackf, rfl⟩, ⟨.tones, rfl⟩, ⟨.mod, rfl⟩,
        ⟨.demod, rfl⟩]
    · cases strict
      exacts [⟨.unpackL, rfl⟩, ⟨.unpackS, rfl⟩]

end Sys2Proof

namespace Sys2Proof.Machine

/-! ### Illegal words -/

/-- On its turn the sequencer completes an illegal word with ILLEGAL_CMD (rule R142). -/
theorem step_of_illegal {s : State} {c : Word} (h : Safety.TurnToComplete s c) (hd : ¬ ∃ i, decode c = .ok i) :
    step s = .next (s.finish .illegalCmd) := by
  have hc := State.completing_eq_some.mpr h
  rcases step_cases s with ⟨hnone, -⟩ | ⟨c', i, hc', hi, -⟩ | ⟨-, -, -, -, hstep⟩
  · cases hc.symm.trans hnone
  · cases hc.symm.trans hc'
    exact absurd ⟨i, hi⟩ hd
  · exact hstep

/-! ### Write sets -/

theorem abortSet_of_illegal {c : Word} (h : ¬ ∃ i, decode c = .ok i) : abortSet c = [] := by
  unfold abortSet
  split
  · next i hi => exact absurd ⟨i, hi⟩ h
  · rfl

theorem abortSet_encode (i : Instr) : abortSet (encode i) = Instr.writeSet i := by
  rw [abortSet, decode_eq_ok_iff.mpr rfl]

end Sys2Proof.Machine

namespace Sys2Proof

open Sys2Proof.Machine

/-- Settles O1: a word is its fields, and the fields of a command decode to it alone. -/
theorem decodeInvertsEncode : Obligations.DecodeInvertsEncode := by
  refine ⟨fun i => ?wellFormed, fun w i => decode_eq_ok_iff⟩
  obtain ⟨hwf, -, -⟩ := Laws.CommandWord.all i
  exact hwf

/-- Settles O2: the legal words by their fields, the issue in phase IDLE, and the completion of an illegal word. -/
theorem legalWordsAndIllegalCompletion : Obligations.LegalWordsAndIllegalCompletion := by
  refine ⟨fun w => ?legal, fun s w hidle => ?issue, fun s c hturn hd => ?completion⟩
  case legal =>
    simp only [decode, decodeFields_eq_ok_iff]
    exact exists_eq_fields_iff
  case issue => rw [State.issue_of_idle hidle]
  case completion => exact ⟨_, step_of_illegal hturn hd, failedWith_finish s .illegalCmd⟩

/-- Settles O3: each word of the table is the encoding of its command. -/
theorem decodesTheWordsOfTheTable : Obligations.DecodesTheWordsOfTheTable := by
  unfold Obligations.DecodesTheWordsOfTheTable
  simp only [decode_eq_ok_iff]
  decide

/-- Settles O54: an illegal word writes nothing; a command writes the memories its row of rule R428 names. -/
theorem abortWriteSets : Obligations.AbortWriteSets := by
  refine ⟨fun c => abortSet_of_illegal, fun i m k => ?_⟩
  rw [abortSet_encode]
  cases i <;> simp [Instr.writeSet, Region.capacity, or_and_right, exists_or, and_assoc, or_assoc]

end Sys2Proof
end

section
/-!
PROOFS. The CRC-16 generator and its commands (40_crc.md rules R200 to R204, statements O9 to O13). A shift of the CRC
is linear in XOR and sends only 0 to 0, so it loses nothing: CRCs that differ before a byte differ after it, and
different bytes take one CRC to different CRCs.
-/

namespace Sys2Proof.Machine

/-! ### A shift of the CRC -/

theorem crcBit_of_msb {c : Crc} (h : c.getLsbD 15 = true) : crcBit c = (c <<< 1) ^^^ 0x1021#16 := if_pos h

theorem crcBit_of_not_msb {c : Crc} (h : c.getLsbD 15 = false) : crcBit c = c <<< 1 := if_neg (ne_true_of_eq_false h)

/-- A shift is linear: the polynomial is added once for each top bit that is set, and twice is not at all. -/
theorem crcBit_xor (c d : Crc) : crcBit (c ^^^ d) = crcBit c ^^^ crcBit d := by
  have hmsb : (c ^^^ d).getLsbD 15 = (c.getLsbD 15 ^^ d.getLsbD 15) := BitVec.getLsbD_xor
  cases hc : c.getLsbD 15 <;> cases hd : d.getLsbD 15 <;> rw [hc, hd] at hmsb
  · rw [crcBit_of_not_msb hmsb, crcBit_of_not_msb hc, crcBit_of_not_msb hd, BitVec.shiftLeft_xor_distrib]
  · rw [crcBit_of_msb hmsb, crcBit_of_not_msb hc, crcBit_of_msb hd, BitVec.shiftLeft_xor_distrib, BitVec.xor_assoc]
  · rw [crcBit_of_msb hmsb, crcBit_of_msb hc, crcBit_of_not_msb hd, BitVec.shiftLeft_xor_distrib]
    ac_rfl
  · rw [crcBit_of_not_msb hmsb, crcBit_of_msb hc, crcBit_of_msb hd, BitVec.shiftLeft_xor_distrib]
    calc c <<< 1 ^^^ d <<< 1 = c <<< 1 ^^^ d <<< 1 ^^^ (0x1021#16 ^^^ 0x1021#16) := by simp
      _ = c <<< 1 ^^^ 0x1021#16 ^^^ (d <<< 1 ^^^ 0x1021#16) := by ac_rfl

/-- A shift loses no bit: a top bit that leaves comes back as bit 0 of the polynomial. -/
theorem eq_zero_of_crcBit_eq_zero {c : Crc} (h : crcBit c = 0) : c = 0 := by
  cases hc : c.getLsbD 15
  · rw [crcBit_of_not_msb hc] at h
    ext i hi
    rcases Nat.lt_or_ge i 15 with hlt | hge
    · have hbit := congrArg (·.getLsbD (i + 1)) h
      simpa [show i + 1 < 16 by omega] using hbit
    · obtain rfl : i = 15 := by omega
      simpa using hc
  · rw [crcBit_of_msb hc] at h
    have hbit := congrArg (·.getLsbD 0) h
    simp at hbit

theorem crcBit_injective : Function.Injective crcBit := fun c d h => by
  have hzero : crcBit (c ^^^ d) = 0 := by rw [crcBit_xor, h, BitVec.xor_self]; rfl
  exact BitVec.xor_eq_zero_iff.mp (eq_zero_of_crcBit_eq_zero hzero)

/-- Up to eight shifts of a value below 256 bring no top bit to bit 15. -/
theorem crcBit_iterate_byte_of_le (b : Byte) {n : Nat} (hn : n ≤ 8) :
    crcBit^[n] (b.setWidth 16) = b.setWidth 16 <<< n := by
  induction n with
  | zero => simp
  | succ n ih =>
    have hmsb : (b.setWidth 16 <<< n).getLsbD 15 = false := by
      simp [show 8 ≤ 15 - n by omega]
    rw [Function.iterate_succ_apply', ih (by omega), crcBit_of_not_msb hmsb, BitVec.shiftLeft_add]

/-- Eight shifts of a byte, which has no bit above bit 7, move it to the high half. -/
theorem crcBit_iterate_byte (b : Byte) : crcBit^[8] (b.setWidth 16) = b.setWidth 16 <<< 8 :=
  crcBit_iterate_byte_of_le b le_rfl

/-! ### A byte of the message -/

/-- A 16-bit value by its two bytes, high byte first (rule R106). -/
theorem append_eq_shiftLeft_or (hi lo : Byte) : hi ++ lo = hi.setWidth 16 <<< 8 ||| lo.setWidth 16 := by
  rw [BitVec.append_def, BitVec.shiftLeftZeroExtend_eq]
  rfl

/-- The two bytes share no bit, so XOR joins them as well. -/
theorem append_eq_shiftLeft_xor (hi lo : Byte) : hi ++ lo = hi.setWidth 16 <<< 8 ^^^ lo.setWidth 16 := by
  rw [append_eq_shiftLeft_or]
  refine BitVec.eq_of_getLsbD_eq fun i _ => ?_
  rw [BitVec.getLsbD_or, BitVec.getLsbD_xor]
  rcases Nat.lt_or_ge i 8 with h | h
  · simp [h]
  · simp [BitVec.getLsbD_of_ge lo i h]

theorem crcByte_eq_iterate (c : Crc) (b : Byte) : crcByte c b = crcBit^[8] (c ^^^ b.setWidth 16 <<< 8) := rfl

/-- The same byte keeps different CRCs apart. -/
theorem crcByte_left_injective (b : Byte) : Function.Injective (crcByte · b) := fun _ _ h =>
  (BitVec.xor_left_inj _).mp (crcBit_injective.iterate 8 h)

/-- Different bytes take a CRC to different CRCs. -/
theorem crcByte_right_injective (c : Crc) : Function.Injective (crcByte c) := fun a b h => by
  have hshift : a.setWidth 16 <<< 8 = b.setWidth 16 <<< 8 := (BitVec.xor_right_inj c).mp (crcBit_injective.iterate 8 h)
  bv_omega

/-- After a byte the CRC is 0 exactly when that byte was its high half and the low half was 0. -/
theorem crcByte_eq_zero_iff {c : Crc} {b : Byte} : crcByte c b = 0 ↔ c = b.setWidth 16 <<< 8 := by
  have hzero : crcBit^[8] 0 = 0 := by decide
  calc crcByte c b = 0 ↔ crcBit^[8] (c ^^^ b.setWidth 16 <<< 8) = crcBit^[8] 0 := by rw [hzero, crcByte_eq_iterate]
    _ ↔ c ^^^ b.setWidth 16 <<< 8 = 0 := (crcBit_injective.iterate 8).eq_iff
    _ ↔ c = b.setWidth 16 <<< 8 := BitVec.xor_eq_zero_iff

/-- After two bytes the CRC is 0 exactly when it was those two, high byte first. -/
theorem crcByte_crcByte_eq_zero_iff {c : Crc} {hi lo : Byte} : crcByte (crcByte c hi) lo = 0 ↔ hi ++ lo = c := by
  calc crcByte (crcByte c hi) lo = 0
      ↔ crcBit^[8] (c ^^^ hi.setWidth 16 <<< 8) = crcBit^[8] (lo.setWidth 16) := by
        rw [crcByte_eq_zero_iff, crcByte_eq_iterate c hi, crcBit_iterate_byte]
    _ ↔ c ^^^ hi.setWidth 16 <<< 8 = lo.setWidth 16 := (crcBit_injective.iterate 8).eq_iff
    _ ↔ c = (hi ++ lo : Crc) := by
        rw [append_eq_shiftLeft_xor, BitVec.xor_comm _ (lo.setWidth 16), ← BitVec.xor_left_inj (hi.setWidth 16 <<< 8),
          BitVec.xor_assoc, BitVec.xor_self, BitVec.xor_zero]
    _ ↔ hi ++ lo = c := eq_comm

/-! ### A message -/

theorem crc16_append_singleton (bs : List Byte) (b : Byte) : crc16 (bs ++ [b]) = crcByte (crc16 bs) b :=
  List.foldl_concat ..

/-- The CRC of a message and two bytes is 0 exactly when they are the message's CRC (rules R106, R200). -/
theorem crc16_append_pair_eq_zero_iff (bs : List Byte) (hi lo : Byte) :
    crc16 (bs ++ [hi, lo]) = 0 ↔ hi ++ lo = crc16 bs := by
  rw [List.append_cons, crc16_append_singleton, crc16_append_singleton, crcByte_crcByte_eq_zero_iff]

theorem crc16_map_range_succ (f : Nat → Byte) (n : Nat) :
    crc16 ((List.range (n + 1)).map f) = crcByte (crc16 ((List.range n).map f)) (f n) := by
  rw [List.range_succ, List.map_append, List.map_singleton, crc16_append_singleton]

/-- Two messages that differ in exactly one byte have different CRCs: that byte sets the CRCs apart, and the bytes
behind it keep them apart. -/
theorem crc16_ne_of_ne_at {f g : Nat → Byte} {j n : Nat} (hj : j < n) (hne : f j ≠ g j)
    (hsame : ∀ k, k < n → k ≠ j → f k = g k) :
    crc16 ((List.range n).map f) ≠ crc16 ((List.range n).map g) := by
  induction n with
  | zero => omega
  | succ n ih =>
    rw [crc16_map_range_succ, crc16_map_range_succ]
    rcases Nat.lt_succ_iff_lt_or_eq.mp hj with hlt | rfl
    · rw [hsame n (by omega) (by omega)]
      exact (crcByte_left_injective _).ne (ih hlt fun k hk => hsame k (by omega))
    · have hprefix : (List.range j).map f = (List.range j).map g := List.map_congr_left fun k hk => by
        have hlt := List.mem_range.mp hk
        exact hsame k (by omega) (by omega)
      rw [hprefix]
      exact (crcByte_right_injective _).ne hne

/-! ### The checksum of a state -/

/-- The comparison VERIFY and UNPACK make: the CRC runs to 0 over CODE[0..18] (rules R200, R203). -/
theorem State.check_snd (s : State) : s.check.2 = decide (crc16 ((List.range 19).map s.codeAt) = 0) := by
  have hcode : (List.range 19).map s.codeAt = s.codeBody ++ [s.codeAt 17, s.codeAt 18] := by
    rw [State.codeBody_eq, List.range_succ, List.range_succ]
    simp
  rw [hcode, State.check, decide_eq_decide, crc16_append_pair_eq_zero_iff, State.storedCrc, eq_comm]

/-- The stored checksum as rule R203 writes it. -/
theorem State.storedCrc_eq (s : State) :
    s.storedCrc = (s.codeAt 17).setWidth 16 <<< 8 ||| (s.codeAt 18).setWidth 16 := append_eq_shiftLeft_or _ _

/-! ### The completion of CRC and VERIFY -/

theorem State.readReg_withCrc_withCrcOk (s : State) (c : Crc) (ok : Bool) {r : Reg} (hcrc : r ≠ .crcRes)
    (hstatus : r ≠ .status) : ((s.withCrc c).withCrcOk ok).readReg r = s.readReg r := by
  cases r <;> first | rfl | contradiction

theorem State.withCrc_withCrcOk_storeSame (s : State) (c : Crc) (ok : Bool) :
    StoreSame s ((s.withCrc c).withCrcOk ok) :=
  ⟨rfl, rfl, rfl, rfl, rfl, rfl, rfl, rfl, rfl⟩

/-- What a command that writes CRC_RES and CRC_OK ends with, and what it leaves as it was (rules R202, R203, R424). -/
theorem finish_withCrc_withCrcOk_spec (s : State) (c : Crc) (ok : Bool) :
    let t := ((s.withCrc c).withCrcOk ok).finish .none
    t.readReg .crcRes = c.setWidth 32 ∧ t.crcOk = ok ∧ Safety.CompletedWith .none s t ∧
      Safety.RegsSame [.status, .err, .crcRes] s t ∧ Safety.MemorySame s t := by
  refine ⟨rfl, rfl, completedWith_finish ⟨rfl, rfl, rfl, rfl, rfl, rfl, rfl, rfl⟩, fun r hr => ?regs,
    fun m k f => ?memory⟩
  case regs =>
    simp only [List.mem_cons, List.not_mem_nil, or_false, not_or] at hr
    obtain ⟨hstatus, herr, hcrc⟩ := hr
    rw [State.readReg_finish _ _ hstatus herr, State.readReg_withCrc_withCrcOk s c ok hcrc hstatus]
  case memory =>
    rw [State.readElem_finish, (s.withCrc_withCrcOk_storeSame c ok).memorySame m k f]

end Sys2Proof.Machine

namespace Sys2Proof

open Sys2Proof.Machine Sys2Proof.Safety

/-- Settles O9: the check value, by evaluation. -/
theorem crc16CatalogueCheck : Obligations.Crc16CatalogueCheck := by
  unfold Obligations.Crc16CatalogueCheck
  decide +kernel

/-- Settles O10: the second clause is that two bytes take a CRC to 0 exactly when they are that CRC. -/
theorem crcOfAMessageAndItsCrcIsZero : Obligations.CrcOfAMessageAndItsCrcIsZero :=
  ⟨rfl, crc16_append_pair_eq_zero_iff⟩

/-- Settles O11: CRC leaves CRC_OK as it is. -/
theorem crcWritesTheChecksum : Obligations.CrcWritesTheChecksum := by
  intro s
  rw [← s.codeBody_eq]
  exact ⟨_, execCrc_eq s, finish_withCrc_withCrcOk_spec s _ s.crcOk⟩

/-- Settles O12: VERIFY writes the result of the comparison to CRC_OK and completes without error either way. -/
theorem verifyComparesTheChecksum : Obligations.VerifyComparesTheChecksum := by
  intro s
  rw [← s.codeBody_eq, ← s.storedCrc_eq]
  exact ⟨_, execVerify_eq s, finish_withCrc_withCrcOk_spec s _ s.check.2⟩

/-- Settles O13: CRC_OK says that the CRC runs to 0 over CODE[0..18], which one changed byte of those prevents. -/
theorem verifyCatchesSingleBitFlips : Obligations.VerifyCatchesSingleBitFlips := by
  intro s t j b hj hb hsame hflip
  refine ⟨_, _, execVerify_eq s, execVerify_eq t, ?_⟩
  simp only [State.finish_crcOk, State.withCrcOk_crcOk, State.check_snd, decide_eq_true_eq, decide_eq_false_iff_not]
  refine ⟨fun hcovered hvalid => ?covered, fun huncovered => ?uncovered⟩
  case covered =>
    have hbit : ∀ b < 8, 1#8 <<< b ≠ 0 := by decide
    have hne : t.codeAt j ≠ s.codeAt j := by simpa [hflip] using hbit b hb
    rw [← hvalid]
    exact crc16_ne_of_ne_at (by omega) hne fun k hk => hsame k (by omega)
  case uncovered =>
    have hcode : (List.range 19).map t.codeAt = (List.range 19).map s.codeAt :=
      List.map_congr_left fun k hk => by
        have hlt := List.mem_range.mp hk
        exact hsame k (by omega) (by omega)
    rw [hcode]

end Sys2Proof
end


section
/-!
PROOFS. The field codec and its commands (41_field_codec.md rules R231 to R244, statements O14 to O18). What PACK writes
and what UNPACK reads are each said once, byte by byte; the two round trips (rules R243, R244) follow from the two
descriptions alone.
-/

namespace Sys2Proof.Machine

/-! ### Numbers as bytes -/

theorem clamp_eq {v lo hi : Int} (h : lo ≤ hi) : clamp v lo hi = max lo (min hi v) := by
  unfold clamp
  split_ifs <;> omega

/-- An integer in the range of the width is the value of its bit vector. -/
theorem toNat_ofInt_of_lt {w : Nat} {v : Int} (h0 : 0 ≤ v) (h : v < 2 ^ w) : ((BitVec.ofInt w v).toNat : Int) = v := by
  rw [BitVec.toNat_ofInt, Int.toNat_of_nonneg (Int.emod_nonneg _ (by positivity))]
  exact Int.emod_eq_of_lt h0 (by exact_mod_cast h)

/-- A u24 less an offset of the coordinates fits an s32. -/
theorem toInt_ofInt_toNat_sub (n : BitVec 24) {offset : Int} (h0 : 0 ≤ offset) (h : offset ≤ 2 ^ 31) :
    (BitVec.ofInt 32 ((n.toNat : Int) - offset)).toInt = (n.toNat : Int) - offset :=
  BitVec.toInt_ofInt_eq_self (by decide) (by omega) (by omega)

/-- A byte in a register reads the same as u32 and as s32. -/
theorem toInt_eq_toNat_of_byte {v : Word} {b : Byte} (h : v.toNat = b.toNat) : v.toInt = (b.toNat : Int) := by
  rw [BitVec.toInt_eq_toNat_of_lt (by omega), h]

/-- Two equal concatenations have equal parts. -/
theorem append_inj {m n : Nat} {a a' : BitVec m} {b b' : BitVec n} (h : a ++ b = a' ++ b') : a = a' ∧ b = b' := by
  constructor
  · simpa only [BitVec.extractLsb'_append_eq_left] using congrArg (BitVec.extractLsb' n m) h
  · simpa only [BitVec.extractLsb'_append_eq_right] using congrArg (BitVec.extractLsb' 0 n) h

/-- A u24 value determines its three bytes. -/
theorem bytes_eq_of_toNat_append_eq {a b c a' b' c' : Byte} (h : (a ++ b ++ c).toNat = (a' ++ b' ++ c').toNat) :
    a = a' ∧ b = b' ∧ c = c' := by
  obtain ⟨hhigh, hc⟩ := append_inj (BitVec.eq_of_toNat_eq h)
  obtain ⟨ha, hb⟩ := append_inj hhigh
  exact ⟨ha, hb, hc⟩

/-- The three bytes of a u24 field make it up again (rule R106). -/
theorem append_bytes24 (v : BitVec 24) : v.extractLsb' 16 8 ++ v.extractLsb' 8 8 ++ v.extractLsb' 0 8 = v := by
  have hhigh : v.extractLsb' 16 8 ++ v.extractLsb' 8 8 = v.extractLsb' 8 16 :=
    BitVec.extractLsb'_append_extractLsb'_eq_extractLsb' rfl
  rw [hhigh]
  exact BitVec.extractLsb'_append_extractLsb' (w := 16)

/-- The two bytes of a CRC make it up again (rules R106, R146). -/
theorem append_bytes16 (v : Crc) : v.extractLsb' 8 8 ++ v.extractLsb' 0 8 = v :=
  BitVec.extractLsb'_append_extractLsb' (w := 8)

/-! ### Encoders -/

theorem encSev_toNat (v : Int) : ((encSev v).toNat : Int) = max 1 (min 9 v) := by
  rw [encSev, clamp_eq (by decide), toNat_ofInt_of_lt (by omega) (by omega)]

theorem encLat_toNat (v : Int) : ((encLat v).toNat : Int) = max 0 (min 0xFFFFFF (v + 900000)) := by
  rw [encLat, clamp_eq (by decide), toNat_ofInt_of_lt (by omega) (by omega)]

theorem encLon_toNat (v : Int) : ((encLon v).toNat : Int) = max 0 (min 0xFFFFFF (v + 1800000)) := by
  rw [encLon, clamp_eq (by decide), toNat_ofInt_of_lt (by omega) (by omega)]

/-- The bit length of `p - 1` is the base-2 logarithm of `p` rounded up: both are at most `c` exactly when `p ≤ 2^c`. -/
theorem bitlen_pred {p : Nat} (h : 1 < p) : bitlen (p - 1) = Nat.clog 2 p := by
  refine eq_of_forall_ge_iff fun c => ?_
  rw [bitlen, if_neg (by omega), Nat.clog_le_iff_le_pow (by decide), Nat.add_one_le_iff, Nat.log2_lt (by omega)]
  omega

theorem bucket_eq (p : Nat) : bucket p = min 15 (Nat.clog 2 p) := by
  unfold bucket
  split
  · next h => rw [Nat.clog_of_right_le_one h, Nat.min_zero]
  · next h => rw [bitlen_pred (by omega)]

theorem encPop_toNat (p : Nat) : (encPop p).toNat = 16 * min 15 (Nat.clog 2 p) := by
  rw [encPop, bucket_eq, BitVec.toNat_ofNat, Nat.shiftLeft_eq]
  omega

theorem encMsgAt_fin (len : Byte) (msg : Vector Byte 8) (i : Fin 8) :
    encMsgAt len msg i = if i.val < min len.toNat 8 then msg[i] else 0 := by
  simp [encMsgAt]

/-! ### Decoders -/

theorem decPop_toNat (b : Byte) : (decPop b).toNat = 2 ^ (b.toNat / 16) := by
  have hexp : b.toNat / 16 < 32 := by omega
  rw [decPop, BitVec.toNat_ofNat, BitVec.toNat_ushiftRight, Nat.shiftRight_eq_div_pow]
  exact Nat.mod_eq_of_lt (Nat.pow_lt_pow_right (by decide) hexp)

theorem msgLength_le_length (bs : List Byte) : msgLength bs ≤ bs.length := by
  induction bs with
  | nil => exact le_rfl
  | cons b bs ih =>
    rw [msgLength]
    split
    · exact Nat.zero_le _
    · exact Nat.succ_le_succ ih

/-- No byte of the message is zero. -/
theorem getElem?_ne_zero_of_lt_msgLength {bs : List Byte} {i : Nat} (h : i < msgLength bs) : bs[i]? ≠ some 0 := by
  induction bs generalizing i with
  | nil => simp
  | cons b bs ih =>
    rw [msgLength] at h
    split at h
    · omega
    · next hb =>
      cases i with
      | zero => simpa using hb
      | succ i => exact ih (by omega)

/-- Where the message stops short of the end, it stops at a zero byte. -/
theorem getElem?_msgLength {bs : List Byte} (h : msgLength bs < bs.length) : bs[msgLength bs]? = some 0 := by
  induction bs with
  | nil => simp at h
  | cons b bs ih =>
    rw [msgLength] at h ⊢
    split at h
    · next hb => simp [hb]
    · next hb =>
      rw [if_neg hb]
      exact ih (by simpa using h)

/-! ### CODE after PACK -/

/-- CODE of `t` holds the fields of `s`, clamped, with the CRC over them (rules R231 to R236). -/
structure FieldsEncoded (s t : State) : Prop where
  type : t.codeAt 0 = s.fType
  sev : ((t.codeAt 1).toNat : Int) = max 1 (min 9 s.fSev.toInt)
  lat : ((t.codeAt 2 ++ t.codeAt 3 ++ t.codeAt 4).toNat : Int) = max 0 (min 0xFFFFFF (s.fLat.toInt + 900000))
  lon : ((t.codeAt 5 ++ t.codeAt 6 ++ t.codeAt 7).toNat : Int) = max 0 (min 0xFFFFFF (s.fLon.toInt + 1800000))
  pop : (t.codeAt 8).toNat = 16 * min 15 (Nat.clog 2 s.fPop.toNat)
  msg : ∀ i : Fin 8, t.codeAt (9 + i.val) = if i.val < min s.fMsgLen.toNat 8 then s.fMsg[i] else 0
  crc : t.codeAt 17 ++ t.codeAt 18 = crc16 ((List.range 17).map t.codeAt)
  rest : ∀ k, 19 ≤ k → k < 24 → t.codeAt k = 0

theorem FieldsEncoded.finish {s t : State} (h : FieldsEncoded s t) (e : ErrCode) : FieldsEncoded s (t.finish e) :=
  ⟨h.type, h.sev, h.lat, h.lon, h.pop, h.msg, h.crc, h.rest⟩

section

variable (s : State)

theorem State.codeAt_packed_of_body {k : Nat} {b : Byte} (h : s.packBody[k]? = some b) : s.packed.codeAt k = b := by
  obtain ⟨hk, -⟩ := List.getElem?_eq_some_iff.mp h
  rw [State.codeAt_packed, State.packCode, List.append_assoc, List.getElem?_append_left hk, h]
  rfl

theorem State.map_codeAt_packed : (List.range 17).map s.packed.codeAt = s.packBody :=
  List.ext_getElem (by simp) fun k _ hk => by simpa using s.codeAt_packed_of_body (List.getElem?_eq_getElem hk)

theorem State.codeAt_packed_hi : s.packed.codeAt 17 = (crc16 s.packBody).extractLsb' 8 8 := by
  rw [State.codeAt_packed, State.packCode, List.append_assoc, List.getElem?_append_right (by simp)]
  rfl

theorem State.codeAt_packed_lo : s.packed.codeAt 18 = (crc16 s.packBody).extractLsb' 0 8 := by
  rw [State.codeAt_packed, State.packCode, List.append_assoc, List.getElem?_append_right (by simp)]
  rfl

theorem State.codeAt_packed_of_ge {k : Nat} (h : 19 ≤ k) (h' : k < 24) : s.packed.codeAt k = 0 := by
  have hzero : ([0, 0, 0, 0, 0] : List Byte) = List.replicate 5 0 := rfl
  have hlen : (s.packBody ++ bytes16 (crc16 s.packBody)).length = 19 := rfl
  rw [State.codeAt_packed, State.packCode, List.getElem?_append_right (by omega), hzero,
    List.getElem?_replicate_of_lt (by omega)]
  rfl

theorem State.packBody_msg (i : Fin 8) : s.packBody[9 + i.val]? = some (encMsgAt s.fMsgLen s.fMsg i) := by
  rw [State.packBody, List.getElem?_append_right (by simp [bytes24])]
  simp [bytes24]

/-- PACK writes every field as the rules say. -/
theorem State.fieldsEncoded_packed : FieldsEncoded s s.packed where
  type := s.codeAt_packed_of_body rfl
  sev := by
    rw [s.codeAt_packed_of_body (k := 1) rfl]
    exact encSev_toNat s.sev
  lat := by
    rw [s.codeAt_packed_of_body (k := 2) rfl, s.codeAt_packed_of_body (k := 3) rfl,
      s.codeAt_packed_of_body (k := 4) rfl, append_bytes24]
    exact encLat_toNat s.lat
  lon := by
    rw [s.codeAt_packed_of_body (k := 5) rfl, s.codeAt_packed_of_body (k := 6) rfl,
      s.codeAt_packed_of_body (k := 7) rfl, append_bytes24]
    exact encLon_toNat s.lon
  pop := by
    rw [s.codeAt_packed_of_body (k := 8) rfl]
    exact encPop_toNat _
  msg i := (s.codeAt_packed_of_body (s.packBody_msg i)).trans (encMsgAt_fin _ _ i)
  crc := by rw [s.map_codeAt_packed, s.codeAt_packed_hi, s.codeAt_packed_lo, append_bytes16]
  rest _ := s.codeAt_packed_of_ge

end

/-! ### The completion of a command -/

/-- A completion writes STATUS and ERR and no other register. -/
theorem regsSame_finish {rs : List Reg} {s u : State} (e : ErrCode) (hstatus : .status ∈ rs) (herr : .err ∈ rs)
    (h : Safety.RegsSame rs s u) : Safety.RegsSame rs s (u.finish e) := fun r hr =>
  (u.readReg_finish e (ne_of_mem_of_not_mem hstatus hr).symm (ne_of_mem_of_not_mem herr hr).symm).trans (h r hr)

/-- The registers PACK writes before its completion. -/
theorem State.regsSame_packed (s : State) : Safety.RegsSame [.status, .err, .crcRes, .codeLen] s s.packed := by
  intro r hr
  rw [State.packed_eq]
  cases r
  case crcRes | codeLen => simp at hr
  all_goals rfl

/-- The elements PACK writes. -/
theorem State.elemsSame_packed (s : State) : Safety.ElemsSame (fun m k => m = .code ∧ k < 24) s s.packed := by
  intro m k f hm
  cases m
  case code =>
    have hout : s.packCode[k]? = none := List.getElem?_eq_none (by simpa using hm)
    rw [State.readElem, State.codeAt_packed, hout]
    rfl
  all_goals rfl

/-- The registers UNPACK writes before its completion (rule R240). -/
theorem State.regsSame_unpackWith (s : State) (c : Crc) (ok : Bool) :
    Safety.RegsSame Safety.unpackRegs s (s.unpackWith c ok) := by
  intro r hr
  have hmsg : ∀ i : Fin 8, Reg.fMsg i ∈ Safety.unpackRegs := by decide
  cases r
  case fMsg i => exact absurd (hmsg i) hr
  case status | crcRes | fType | fSev | fLat | fLon | fPop | fMsgLen => simp [Safety.unpackRegs] at hr
  all_goals rfl

/-! ### The F_ registers after UNPACK -/

theorem State.codeRange_getElem? (s : State) {a n i : Nat} (h : i < n) :
    (s.codeRange a n)[i]? = some (s.codeAt (a + i)) := by
  simp [State.codeRange, h]

theorem State.unpackedLen_le (s : State) : s.unpackedLen ≤ 8 := by
  rw [State.unpackedLen, ← s.codeRange_length 9 8]
  exact msgLength_le_length _

theorem State.codeAt_ne_zero_of_lt_unpackedLen {s : State} {i : Nat} (h : i < s.unpackedLen) :
    s.codeAt (9 + i) ≠ 0 := by
  have hne := getElem?_ne_zero_of_lt_msgLength h
  rw [s.codeRange_getElem? (h.trans_le s.unpackedLen_le)] at hne
  exact fun hzero => hne (congrArg some hzero)

theorem State.codeAt_unpackedLen {s : State} (h : s.unpackedLen < 8) : s.codeAt (9 + s.unpackedLen) = 0 := by
  have hzero : (s.codeRange 9 8)[s.unpackedLen]? = some 0 :=
    getElem?_msgLength (h.trans_eq (s.codeRange_length 9 8).symm)
  rw [s.codeRange_getElem? h] at hzero
  exact Option.some.inj hzero

theorem State.fieldsDecoded_unpackWith (s : State) (c : Crc) (ok : Bool) :
    Safety.FieldsDecoded s (s.unpackWith c ok) := by
  refine ⟨rfl, ?sev, toInt_ofInt_toNat_sub _ (by decide) (by decide), toInt_ofInt_toNat_sub _ (by decide) (by decide),
    decPop_toNat _, s.unpackedLen, s.unpackedLen_le, fun i => State.codeAt_ne_zero_of_lt_unpackedLen,
    State.codeAt_unpackedLen, ?len, fun i => ?msg⟩
  case sev => exact BitVec.toNat_setWidth_of_le (by decide)
  case len =>
    have hle := s.unpackedLen_le
    rw [State.unpackWith_fMsgLen, BitVec.toNat_ofNat]
    omega
  case msg => fin_cases i <;> rfl

/-- What an UNPACK that writes its results ends with, and what it leaves as it was (rules R237 to R242, R424). -/
theorem finish_unpackWith_spec (s : State) (c : Crc) (ok : Bool) :
    let t := (s.unpackWith c ok).finish .none
    Safety.FieldsDecoded s t ∧ t.readReg .crcRes = c.setWidth 32 ∧ t.crcOk = ok ∧ Safety.CompletedWith .none s t ∧
      Safety.RegsSame Safety.unpackRegs s t ∧ Safety.MemorySame s t := by
  refine ⟨s.fieldsDecoded_unpackWith c ok, rfl, rfl, completedWith_finish ⟨rfl, rfl, rfl, rfl, rfl, rfl, rfl, rfl⟩,
    regsSame_finish _ (by decide) (by decide) (s.regsSame_unpackWith c ok), fun m k f => ?memory⟩
  rw [State.readElem_finish]
  cases m <;> rfl

/-! ### The checksum UNPACK compares (rule R240) -/

theorem State.check_fst (s : State) : s.check.1 = crc16 ((List.range 17).map s.codeAt) := by
  rw [State.check, s.codeBody_eq]

theorem State.check_snd_eq_decide (s : State) :
    s.check.2 = decide (crc16 ((List.range 17).map s.codeAt) = s.codeAt 17 ++ s.codeAt 18) := by
  rw [← s.codeBody_eq]
  rfl

/-- With a valid checksum both modes of UNPACK end in the same state (rules R241, R242). -/
theorem exec_unpack_of_valid {s : State} (h : crc16 ((List.range 17).map s.codeAt) = s.codeAt 17 ++ s.codeAt 18) :
    exec .unpackS s = .next ((s.unpackWith s.check.1 true).finish .none) ∧
      exec .unpackL s = .next ((s.unpackWith s.check.1 true).finish .none) := by
  have hok : s.check.2 = true := s.check_snd_eq_decide.trans (decide_eq_true h)
  refine ⟨execUnpackS_of_match hok, (execUnpackL_eq s).trans ?_⟩
  rw [hok]

/-! ### PACK then UNPACK (rule R243) -/

/-- The message UNPACK reads from a packed code is the packed one up to its first NUL. -/
theorem FieldsEncoded.decodedMsg {s t u : State} (he : FieldsEncoded s t) (hd : Safety.FieldsDecoded t u) :
    ∃ m, m ≤ min s.fMsgLen.toNat 8 ∧ (∀ i : Fin 8, i.val < m → s.fMsg[i] ≠ 0) ∧
      (∀ i : Fin 8, i.val = m → i.val < s.fMsgLen.toNat → s.fMsg[i] = 0) ∧ u.fMsgLen.toNat = m ∧
      ∀ i : Fin 8, u.fMsg[i] = if i.val < m then s.fMsg[i] else 0 := by
  obtain ⟨-, -, -, -, -, m, hm, hbefore, hstop, hlen, hmsg⟩ := hd
  have hmin : m ≤ min s.fMsgLen.toNat 8 := by
    by_contra hlt
    have hpad := he.msg ⟨min s.fMsgLen.toNat 8, by omega⟩
    rw [if_neg (lt_irrefl _)] at hpad
    exact hbefore _ (not_le.mp hlt) hpad
  have hinside : ∀ i : Fin 8, i.val < s.fMsgLen.toNat → t.codeAt (9 + i.val) = s.fMsg[i] := fun i hi => by
    rw [he.msg i, if_pos (by omega)]
  refine ⟨m, hmin, fun i hi => ?before, fun i hi hlt => ?stop, hlen, fun i => ?bytes⟩
  case before =>
    rw [← hinside i (by omega)]
    exact hbefore i hi
  case stop =>
    rw [← hinside i hlt, hi]
    exact hstop (by omega)
  case bytes =>
    rw [hmsg i]
    exact ite_congr rfl (fun hi => hinside i (by omega)) fun _ => rfl

/-- The fields UNPACK reads from a packed code, the message apart. -/
theorem FieldsEncoded.decoded {s t u : State} (he : FieldsEncoded s t) (hd : Safety.FieldsDecoded t u) :
    u.fType = s.fType ∧ u.fSev.toInt = max 1 (min 9 s.fSev.toInt) ∧
      u.fLat.toInt = max 0 (min 0xFFFFFF (s.fLat.toInt + 900000)) - 900000 ∧
      u.fLon.toInt = max 0 (min 0xFFFFFF (s.fLon.toInt + 1800000)) - 1800000 ∧
      u.fPop.toNat = 2 ^ min 15 (Nat.clog 2 s.fPop.toNat) := by
  obtain ⟨htype, hsev, hlat, hlon, hpop, -⟩ := hd
  refine ⟨htype.trans he.type, (toInt_eq_toNat_of_byte hsev).trans he.sev, ?_, ?_, ?_⟩
  · rw [hlat, he.lat]
  · rw [hlon, he.lon]
  · rw [hpop, he.pop, Nat.mul_div_cancel_left _ (by decide)]

/-! ### UNPACK then PACK (rule R244) -/

section

variable {s t u : State} (hd : Safety.FieldsDecoded s t) (he : FieldsEncoded t u)

include hd he

theorem repacked_type : u.codeAt 0 = s.codeAt 0 := by
  obtain ⟨htype, -⟩ := hd
  exact he.type.trans htype

theorem repacked_sev : ((u.codeAt 1).toNat : Int) = max 1 (min 9 ((s.codeAt 1).toNat : Int)) := by
  obtain ⟨-, hsev, -⟩ := hd
  rw [he.sev, toInt_eq_toNat_of_byte hsev]

theorem repacked_lat : u.codeAt 2 = s.codeAt 2 ∧ u.codeAt 3 = s.codeAt 3 ∧ u.codeAt 4 = s.codeAt 4 := by
  obtain ⟨-, -, hlat, -⟩ := hd
  have hcode := he.lat
  exact bytes_eq_of_toNat_append_eq (by omega)

theorem repacked_lon : u.codeAt 5 = s.codeAt 5 ∧ u.codeAt 6 = s.codeAt 6 ∧ u.codeAt 7 = s.codeAt 7 := by
  obtain ⟨-, -, -, hlon, -⟩ := hd
  have hcode := he.lon
  exact bytes_eq_of_toNat_append_eq (by omega)

theorem repacked_pop : (u.codeAt 8).toNat = 16 * ((s.codeAt 8).toNat / 16) := by
  obtain ⟨-, -, -, -, hpop, -⟩ := hd
  rw [he.pop, hpop, Nat.clog_pow _ _ (by decide)]
  omega

/-- A byte of the message comes back where no byte before it is zero, and as zero behind the first zero. -/
theorem repacked_msg {j : Nat} (hj : j < 8) :
    u.codeAt (9 + j) = if ∃ i ≤ j, s.codeAt (9 + i) = 0 then 0 else s.codeAt (9 + j) := by
  obtain ⟨-, -, -, -, -, m, hm, hbefore, hstop, hlen, hmsg⟩ := hd
  have hcode := he.msg ⟨j, hj⟩
  rw [hmsg ⟨j, hj⟩, hlen, Nat.min_eq_left hm] at hcode
  rcases Nat.lt_or_ge j m with hlt | hge
  · have hnone : ¬ ∃ i ≤ j, s.codeAt (9 + i) = 0 := fun ⟨i, hi, hzero⟩ => hbefore i (by omega) hzero
    rw [hcode, if_pos hlt, if_neg hnone]
    exact if_pos hlt
  · have hsome : ∃ i ≤ j, s.codeAt (9 + i) = 0 := ⟨m, hge, hstop (by omega)⟩
    rw [hcode, if_neg (not_lt.mpr hge), if_pos hsome]

/-- The whole message comes back exactly when it is zero behind its first zero. -/
theorem repacked_msg_iff : (∀ j < 8, u.codeAt (9 + j) = s.codeAt (9 + j)) ↔
    ∀ i j, i < j → j < 8 → s.codeAt (9 + i) = 0 → s.codeAt (9 + j) = 0 := by
  constructor
  · intro hsame i j hij hj hzero
    rw [← hsame j hj, repacked_msg hd he hj, if_pos ⟨i, hij.le, hzero⟩]
  · intro hcanon j hj
    rw [repacked_msg hd he hj]
    split
    · next hsome =>
      obtain ⟨i, hi, hzero⟩ := hsome
      rcases hi.lt_or_eq with hlt | rfl
      · exact (hcanon i j hlt hj hzero).symm
      · exact hzero.symm
    · rfl

/-- Bytes 0 to 16 come back exactly when severity, population and message are canonical. -/
theorem repacked_body_iff : (∀ k < 17, u.codeAt k = s.codeAt k) ↔
    (1 ≤ (s.codeAt 1).toNat ∧ (s.codeAt 1).toNat ≤ 9) ∧ (s.codeAt 8).toNat % 16 = 0 ∧
      ∀ i j, i < j → j < 8 → s.codeAt (9 + i) = 0 → s.codeAt (9 + j) = 0 := by
  have hsev := repacked_sev hd he
  have hpop := repacked_pop hd he
  rw [← repacked_msg_iff hd he]
  constructor
  · intro hsame
    rw [hsame 1 (by decide)] at hsev
    rw [hsame 8 (by decide)] at hpop
    exact ⟨by omega, by omega, fun j hj => hsame (9 + j) (by omega)⟩
  · rintro ⟨⟨hsev1, hsev9⟩, hnibble, hmsg⟩ k hk
    obtain ⟨hlat2, hlat3, hlat4⟩ := repacked_lat hd he
    obtain ⟨hlon5, hlon6, hlon7⟩ := repacked_lon hd he
    rcases Nat.lt_or_ge k 9 with hlt | hge
    · match k, hlt with
      | 0, _ => exact repacked_type hd he
      | 1, _ => exact BitVec.eq_of_toNat_eq (by omega)
      | 2, _ => exact hlat2
      | 3, _ => exact hlat3
      | 4, _ => exact hlat4
      | 5, _ => exact hlon5
      | 6, _ => exact hlon6
      | 7, _ => exact hlon7
      | 8, _ => exact BitVec.eq_of_toNat_eq (by omega)
    · obtain ⟨j, rfl⟩ := Nat.exists_eq_add_of_le hge
      exact hmsg j (by omega)

end

/-- A valid checksum comes back with the bytes it covers. -/
theorem repacked_crc {s t u : State} (he : FieldsEncoded t u)
    (hvalid : crc16 ((List.range 17).map s.codeAt) = s.codeAt 17 ++ s.codeAt 18)
    (hbody : ∀ k < 17, u.codeAt k = s.codeAt k) : u.codeAt 17 = s.codeAt 17 ∧ u.codeAt 18 = s.codeAt 18 := by
  have hmap : (List.range 17).map u.codeAt = (List.range 17).map s.codeAt :=
    List.map_congr_left fun k hk => hbody k (List.mem_range.mp hk)
  refine append_inj ?_
  rw [he.crc, hmap, hvalid]

/-- All 24 bytes come back exactly when the body does and bytes 19 to 23 are zero. -/
theorem repacked_code_iff {s t u : State} (he : FieldsEncoded t u)
    (hvalid : crc16 ((List.range 17).map s.codeAt) = s.codeAt 17 ++ s.codeAt 18) :
    (∀ k, k < 24 → u.codeAt k = s.codeAt k) ↔
      (∀ k < 17, u.codeAt k = s.codeAt k) ∧ ∀ k, 19 ≤ k → k < 24 → s.codeAt k = 0 := by
  constructor
  · intro hsame
    exact ⟨fun k hk => hsame k (by omega), fun k h h' => (hsame k h').symm.trans (he.rest k h h')⟩
  · rintro ⟨hbody, hrest⟩ k hk
    obtain ⟨hhi, hlo⟩ := repacked_crc he hvalid hbody
    rcases Nat.lt_or_ge k 17 with hlt | hge
    · exact hbody k hlt
    rcases Nat.lt_or_ge k 19 with hlt | hge'
    · obtain rfl | rfl : k = 17 ∨ k = 18 := by omega
      · exact hhi
      · exact hlo
    · exact (he.rest k hge' hk).trans (hrest k hge' hk).symm

end Sys2Proof.Machine

namespace Sys2Proof

open Sys2Proof.Machine Sys2Proof.Safety

/-- Settles O14: the code byte by byte, and the frame of PACK. -/
theorem packEncodesTheFields : Obligations.PackEncodesTheFields := by
  intro s
  have henc := s.fieldsEncoded_packed.finish .none
  refine ⟨_, execPack_eq s, henc.type, henc.sev, henc.lat, henc.lon, henc.pop, henc.msg, henc.crc, henc.rest, ?crc,
    s.packed_codeLen, s.packed_crcOk, completedWith_finish ⟨rfl, rfl, rfl, rfl, rfl, rfl, rfl, rfl⟩,
    regsSame_finish _ (by decide) (by decide) s.regsSame_packed, fun m k f hm => ?memory⟩
  case crc => exact congrArg (fun bs => (crc16 bs).setWidth 32) s.map_codeAt_packed.symm
  case memory =>
    rw [State.readElem_finish]
    exact s.elemsSame_packed m k f hm

/-- Settles O15: UNPACK.L writes the fields and the outcome of the comparison. -/
theorem lenientUnpackDecodesTheFields : Obligations.LenientUnpackDecodesTheFields := by
  intro s
  rw [← s.check_snd_eq_decide, ← s.check_fst]
  exact ⟨_, execUnpackL_eq s, finish_unpackWith_spec s _ _⟩

/-- Settles O16: with the checksum right UNPACK.S ends as UNPACK.L does, with it wrong in an error. -/
theorem strictUnpackDecodesOrRejects : Obligations.StrictUnpackDecodesOrRejects := by
  refine ⟨fun s hvalid => ?valid, fun s hinvalid => ?invalid⟩
  case valid =>
    obtain ⟨hexec, -⟩ := exec_unpack_of_valid hvalid
    rw [← s.check_fst]
    exact ⟨_, hexec, finish_unpackWith_spec s _ true⟩
  case invalid =>
    have hbad : s.check.2 = false := s.check_snd_eq_decide.trans (decide_eq_false hinvalid)
    exact ⟨_, execUnpackS_of_mismatch hbad, failedWith_finish s _⟩

/-- Settles O17: the packed code has a valid checksum, so both modes read the same fields from it. -/
theorem packThenUnpackGivesTheFields : Obligations.PackThenUnpackGivesTheFields := by
  intro s
  have henc := s.fieldsEncoded_packed.finish .none
  obtain ⟨hstrict, hlenient⟩ := exec_unpack_of_valid henc.crc.symm
  obtain ⟨hdec, -, hok, -⟩ := finish_unpackWith_spec (s.packed.finish .none) (s.packed.finish .none).check.1 true
  obtain ⟨htype, hsev, hlat, hlon, hpop⟩ := henc.decoded hdec
  exact ⟨_, _, execPack_eq s, hstrict, hlenient, rfl, hok, htype, hsev, hlat, hlon, hpop, henc.decodedMsg hdec⟩

/-- Settles O18: the bytes PACK writes from the decoded fields are the old ones exactly where those are canonical. -/
theorem unpackThenPackRestoresCanonicalCodes : Obligations.UnpackThenPackRestoresCanonicalCodes := by
  intro s hvalid
  obtain ⟨hstrict, hlenient⟩ := exec_unpack_of_valid hvalid
  obtain ⟨hdec, -⟩ := finish_unpackWith_spec s s.check.1 true
  refine ⟨_, _, hstrict, hlenient, execPack_eq _, ?_⟩
  have henc := (State.fieldsEncoded_packed ((s.unpackWith s.check.1 true).finish .none)).finish .none
  rw [repacked_code_iff henc hvalid, repacked_body_iff hdec henc]
  simp only [and_assoc]

end Sys2Proof
end

section
/-!
PROOFS. The frame codec and its commands (42_frame_codec.md rules R261 to R264, statements O19 to O21). The WireFrame is
said once, part by part, and so is what PACKF and UNPACKF write; the round trip follows from the two commands' statements.
-/

namespace Sys2Proof.Machine

/-- A completion writes no element. -/
theorem elemsSame_finish {written : Region → Nat → Prop} {s u : State} (e : ErrCode)
    (h : Safety.ElemsSame written s u) : Safety.ElemsSame written s (u.finish e) := fun m k f hm =>
  (u.readElem_finish e m k f).trans (h m k f hm)

variable (s : State)

/-! ### The parts of the WireFrame -/

theorem State.sigRange_getElem? {a n i : Nat} (h : i < n) : (s.sigRange a n)[i]? = some (s.sigAt (a + i)) := by
  simp [State.sigRange, h]

theorem State.pkRange_getElem? {a n i : Nat} (h : i < n) : (s.pkRange a n)[i]? = some (s.pkAt (a + i)) := by
  simp [State.pkRange, h]

theorem State.bytesRange_getElem? {a n i : Nat} (h : i < n) :
    (s.bytesRange a n)[i]? = some (s.bytesAt (a + i)) := by
  simp [State.bytesRange, h]

theorem State.wireFrame_getElem?_code {k : Nat} (h : k < 24) : s.wireFrame[k]? = some (s.codeAt k) := by
  rw [State.wireFrame, List.append_assoc, List.getElem?_append_left (by simpa using h), s.codeRange_getElem? h,
    Nat.zero_add]

theorem State.wireFrame_getElem?_sig {k : Nat} (h : k < 64) : s.wireFrame[24 + k]? = some (s.sigAt k) := by
  rw [State.wireFrame, List.getElem?_append_left (by simpa using by omega), List.getElem?_append_right (by simp),
    State.codeRange_length, Nat.add_sub_cancel_left, s.sigRange_getElem? h, Nat.zero_add]

theorem State.wireFrame_getElem?_pk {k : Nat} (h : k < 32) : s.wireFrame[88 + k]? = some (s.pkAt k) := by
  have hlen : (s.codeRange 0 24 ++ s.sigRange 0 64).length = 88 := by simp
  rw [State.wireFrame, List.getElem?_append_right (by omega), hlen, Nat.add_sub_cancel_left, s.pkRange_getElem? h,
    Nat.zero_add]

/-! ### What PACKF writes before its completion -/

theorem State.lengthsOk_iff : s.lengthsOk = true ↔ s.codeLen = 24 ∧ s.sigLen = 64 ∧ s.pkLen = 32 := by
  simp [State.lengthsOk, and_assoc]

theorem State.bytesAt_joinFrame_of_frame {k : Nat} {b : Byte} (h : s.wireFrame[k]? = some b) :
    s.joinFrame.bytesAt k = b := by
  rw [State.bytesAt_joinFrame, h, Option.getD_some]

theorem ControlSame.joinFrame : ControlSame s s.joinFrame :=
  ⟨rfl, rfl, rfl, rfl, rfl, rfl, rfl, rfl⟩

/-- The registers PACKF writes (rule R262). -/
theorem State.regsSame_joinFrame : Safety.RegsSame [.status, .err, .bLen] s s.joinFrame := by
  intro r hr
  cases r
  case bLen => simp at hr
  all_goals rfl

/-- The elements PACKF writes (rule R262). -/
theorem State.elemsSame_joinFrame : Safety.ElemsSame (fun m k => m = .bytes ∧ k < 120) s s.joinFrame := by
  intro m k f hm
  cases m
  case bytes =>
    have hout : s.wireFrame[k]? = none := List.getElem?_eq_none (by simpa using hm)
    rw [State.readElem, State.bytesAt_joinFrame, hout]
    rfl
  all_goals rfl

/-! ### What UNPACKF writes before its completion -/

theorem State.codeAt_splitFrame_of_lt {k : Nat} (h : k < 24) : s.splitFrame.codeAt k = s.bytesAt k := by
  rw [State.codeAt_splitFrame, s.bytesRange_getElem? h, Option.getD_some, Nat.zero_add]

theorem State.sigAt_splitFrame_of_lt {k : Nat} (h : k < 64) : s.splitFrame.sigAt k = s.bytesAt (24 + k) := by
  rw [State.sigAt_splitFrame, s.bytesRange_getElem? h, Option.getD_some]

theorem State.pkAt_splitFrame_of_lt {k : Nat} (h : k < 32) : s.splitFrame.pkAt k = s.bytesAt (88 + k) := by
  rw [State.pkAt_splitFrame, s.bytesRange_getElem? h, Option.getD_some]

/-- The registers UNPACKF writes (rule R263). -/
theorem State.regsSame_splitFrame : Safety.RegsSame [.status, .err, .codeLen, .sigLen, .pkLen] s s.splitFrame := by
  intro r hr
  cases r
  case codeLen | sigLen | pkLen => simp at hr
  all_goals rfl

/-- The elements UNPACKF writes (rule R263): in each of the three memories those of a part's length. -/
theorem State.elemsSame_splitFrame :
    Safety.ElemsSame (fun m k => (m = .code ∧ k < 24) ∨ (m = .sig ∧ k < 64) ∨ (m = .pk ∧ k < 32)) s s.splitFrame := by
  intro m k f hm
  have hout : ∀ a n, n ≤ k → (s.bytesRange a n)[k]? = none := fun a n h =>
    List.getElem?_eq_none (by rwa [State.bytesRange_length])
  cases m
  case code => rw [State.readElem, State.codeAt_splitFrame, hout 0 24 (by simpa using hm)]; rfl
  case sig => rw [State.readElem, State.sigAt_splitFrame, hout 24 64 (by simpa using hm)]; rfl
  case pk => rw [State.readElem, State.pkAt_splitFrame, hout 88 32 (by simpa using hm)]; rfl
  all_goals rfl

end Sys2Proof.Machine

namespace Sys2Proof

open Sys2Proof.Machine Sys2Proof.Safety

/-- Settles O19: BYTES hold the WireFrame, part by part. -/
theorem packfBuildsTheFrame : Obligations.PackfBuildsTheFrame := by
  refine ⟨fun s hcode hsig hpk => ?right, fun s hwrong => ?wrong⟩
  case right =>
    exact ⟨_, execPackf_of_ok (s.lengthsOk_iff.mpr ⟨hcode, hsig, hpk⟩),
      fun k hk => s.bytesAt_joinFrame_of_frame (s.wireFrame_getElem?_code hk),
      fun k hk => s.bytesAt_joinFrame_of_frame (s.wireFrame_getElem?_sig hk),
      fun k hk => s.bytesAt_joinFrame_of_frame (s.wireFrame_getElem?_pk hk), rfl, rfl,
      completedWith_finish (.joinFrame s), regsSame_finish _ (by decide) (by decide) s.regsSame_joinFrame,
      elemsSame_finish _ s.elemsSame_joinFrame⟩
  case wrong =>
    have hbad : s.lengthsOk = false := Bool.eq_false_iff.mpr (mt s.lengthsOk_iff.mp hwrong)
    exact ⟨_, execPackf_of_bad hbad, failedWith_finish s _⟩

/-- Settles O20: CODE, SIG and PK hold the parts of BYTES. -/
theorem unpackfSplitsTheFrame : Obligations.UnpackfSplitsTheFrame := by
  refine ⟨fun s hlen => ?right, fun s hlen => ?wrong⟩
  case right =>
    exact ⟨_, execUnpackf_of_ok hlen, fun _ => s.codeAt_splitFrame_of_lt, fun _ => s.sigAt_splitFrame_of_lt,
      fun _ => s.pkAt_splitFrame_of_lt, rfl, rfl, rfl, rfl, completedWith_finish (.splitFrame s),
      regsSame_finish _ (by decide) (by decide) s.regsSame_splitFrame,
      elemsSame_finish _ s.elemsSame_splitFrame⟩
  case wrong => exact ⟨_, execUnpackf_of_bad hlen, failedWith_finish s _⟩

/-- Settles O21: PACKF leaves BLEN at 120, and UNPACKF reads each part where PACKF wrote it. -/
theorem frameRoundTrip : Obligations.FrameRoundTrip := by
  intro s hcodeLen hsigLen hpkLen
  obtain ⟨t, hpackf, hcode, hsig, hpk, hlen, -⟩ := packfBuildsTheFrame.1 s hcodeLen hsigLen hpkLen
  obtain ⟨u, hunpackf, hcode', hsig', hpk', hcodeLen', hsigLen', hpkLen', -⟩ := unpackfSplitsTheFrame.1 t hlen
  exact ⟨t, u, hpackf, hunpackf, fun k hk => (hcode' k hk).trans (hcode k hk),
    fun k hk => (hsig' k hk).trans (hsig k hk), fun k hk => (hpk' k hk).trans (hpk k hk), hcodeLen', hsigLen', hpkLen'⟩

end Sys2Proof
end

section
/-!
PROOFS. The timeline of a transmission (43_modulator.md rules R301 to R307, R314): which tone stands at each index of
its list, which samples its tones cover, and that its table tells bytes apart and its waveform stays in range
(statements O25 to O27).
-/

namespace Sys2Proof

theorem Params.Valid.fLo_lt {p : Params} (h : p.Valid) : p.fLo < 1000 := by
  obtain ⟨-, ⟨fLo, -⟩, -⟩ := h
  exact fLo

theorem Params.Valid.lt_fHi {p : Params} (h : p.Valid) : 4000 < p.fHi := by
  obtain ⟨-, ⟨-, fHi, -⟩, -⟩ := h
  exact fHi

theorem Params.Valid.amp_pos {p : Params} (h : p.Valid) : 0 < p.amp := by
  obtain ⟨-, -, -, -, ⟨amp, -⟩, -⟩ := h
  exact amp

theorem Params.Valid.amp_le_one {p : Params} (h : p.Valid) : p.amp ≤ 1 := by
  obtain ⟨-, -, -, -, ⟨-, amp, -⟩, -⟩ := h
  exact amp

end Sys2Proof

namespace Sys2Proof.Machine

/-! ### The tone table (rule R301) -/

theorem toneFreq_strictMono : StrictMono toneFreq := fun m n h => by
  unfold toneFreq
  omega

theorem toneFreq_bounds {n : Nat} (h : n < 16) : 1000 ≤ toneFreq n ∧ toneFreq n ≤ 4000 := by
  unfold toneFreq
  omega

/-- The two data tones of a byte tell its two nibbles. -/
theorem byteTones_injective (p : Params) (j : Nat) : Function.Injective (byteTones p j) := by
  intro a b h
  obtain ⟨hhi, hlo⟩ : toneFreq (a.extractLsb' 4 4).toNat = toneFreq (b.extractLsb' 4 4).toNat ∧
      toneFreq (a.extractLsb' 0 4).toNat = toneFreq (b.extractLsb' 0 4).toNat := by simpa [byteTones] using h
  rw [← Codebook.nibbles_append a, toneFreq_strictMono.injective hhi, toneFreq_strictMono.injective hlo,
    Codebook.nibbles_append b]

/-! ### The tones by their indices -/

/-- A list made of pairs has the first of pair `i` at index `2 * i` and the second behind it. -/
theorem getElem?_flatMap_pair {α β : Type} (f g : α → β) (xs : List α) (i : Nat) :
    (xs.flatMap fun x => [f x, g x])[2 * i]? = xs[i]?.map f ∧
      (xs.flatMap fun x => [f x, g x])[2 * i + 1]? = xs[i]?.map g := by
  induction xs generalizing i with
  | nil => simp
  | cons x xs ih =>
    cases i with
    | zero => simp
    | succ i => simpa [Nat.mul_succ] using ih i

theorem preambleTones_getElem? {p : Params} {c : Nat} (h : c < p.preCycles) :
    (preambleTones p)[2 * c]? = some ⟨p.fLo, 2 * c * p.preN, p.preN⟩ ∧
      (preambleTones p)[2 * c + 1]? = some ⟨p.fHi, (2 * c + 1) * p.preN, p.preN⟩ := by
  simp [preambleTones, getElem?_flatMap_pair, h]

/-- The data tones are those of each byte with its number. -/
theorem dataTones_eq_flatMap (p : Params) (j : Nat) (bs : List Byte) :
    dataTones p j bs = (bs.zipIdx j).flatMap fun x => byteTones p x.2 x.1 := by
  induction bs generalizing j with
  | nil => rfl
  | cons b bs ih => rw [dataTones, ih, List.zipIdx_cons, List.flatMap_cons]

theorem dataTones_getElem? {p : Params} {bs : List Byte} {i : Nat} {b : Byte} (h : bs[i]? = some b) :
    (dataTones p 0 bs)[2 * i]? =
        some ⟨toneFreq (b.extractLsb' 4 4).toNat, p.preLen + 2 * i * p.stepN, p.toneN⟩ ∧
      (dataTones p 0 bs)[2 * i + 1]? =
        some ⟨toneFreq (b.extractLsb' 0 4).toNat, p.preLen + (2 * i + 1) * p.stepN, p.toneN⟩ := by
  simp [dataTones_eq_flatMap, byteTones, getElem?_flatMap_pair, h]

theorem timeline_getElem?_preamble {p : Params} {bs : List Byte} {k : Nat} {t : Tone}
    (h : (preambleTones p)[k]? = some t) : (timeline p bs)[k]? = some t := by
  obtain ⟨hk, -⟩ := List.getElem?_eq_some_iff.mp h
  rw [timeline, List.append_assoc, List.getElem?_append_left hk, h]

theorem timeline_getElem?_data {p : Params} {bs : List Byte} {k : Nat} {t : Tone}
    (h : (dataTones p 0 bs)[k]? = some t) : (timeline p bs)[2 * p.preCycles + k]? = some t := by
  obtain ⟨hk, -⟩ := List.getElem?_eq_some_iff.mp h
  rw [timeline, List.append_assoc, List.getElem?_append_right (by simp), preambleTones_length,
    Nat.add_sub_cancel_left, List.getElem?_append_left hk, h]

theorem timeline_getElem?_postamble (p : Params) (bs : List Byte) :
    (timeline p bs)[2 * p.preCycles + 2 * bs.length]? =
      some ⟨p.fPost, p.preLen + 2 * bs.length * p.stepN, p.postN⟩ := by
  rw [timeline, List.getElem?_append_right (by simp)]
  simp

/-! ### The samples the tones cover (rule R307) -/

/-- Sample `n` lies in the tone. -/
abbrev Tone.Covers (t : Tone) (n : Nat) : Prop := t.start ≤ n ∧ n < t.start + t.dur

theorem mem_timeline {p : Params} {bs : List Byte} {t : Tone} :
    t ∈ timeline p bs ↔ t ∈ preambleTones p ∨ t ∈ dataTones p 0 bs ∨
      t = ⟨p.fPost, p.preLen + 2 * bs.length * p.stepN, p.postN⟩ := by
  simp [timeline]

theorem exists_preambleTone_covers_iff {p : Params} {n : Nat} :
    (∃ t ∈ preambleTones p, t.Covers n) ↔ n < p.preLen := by
  constructor
  · rintro ⟨t, ht, -, hend⟩
    exact hend.trans_le (preambleTones_end_le ht)
  · intro hn
    obtain ⟨t, ht, hstart, hdur⟩ := exists_preambleTone (Nat.div_lt_of_lt_mul (by rwa [Nat.mul_comm] : n < p.preN * _))
    have hpos : 0 < p.preN := Nat.pos_of_mul_pos_left (Nat.zero_lt_of_lt hn)
    refine ⟨t, ht, ?_, ?_⟩
    · rw [hstart]
      exact Nat.div_mul_le_self n p.preN
    · rw [hstart, hdur]
      exact Nat.lt_div_mul_add hpos

/-- The data tones, one in each slot. -/
theorem mem_dataTones_slot {p : Params} {bs : List Byte} {start dur : Nat} :
    (∃ t ∈ dataTones p 0 bs, t.start = start ∧ t.dur = dur) ↔
      ∃ slot, slot < 2 * bs.length ∧ start = p.preLen + slot * p.stepN ∧ dur = p.toneN := by
  constructor
  · rintro ⟨t, ht, rfl, rfl⟩
    rw [dataTones_eq_flatMap] at ht
    obtain ⟨⟨b, j⟩, hb, ht⟩ := List.mem_flatMap.mp ht
    have hj := (List.mem_zipIdx hb).2.1
    rcases List.mem_pair.mp ht with rfl | rfl
    · exact ⟨2 * j, by omega, rfl, rfl⟩
    · exact ⟨2 * j + 1, by omega, rfl, rfl⟩
  · rintro ⟨slot, hslot, rfl, rfl⟩
    rcases Nat.even_or_odd' slot with ⟨j, rfl | rfl⟩
    · have hb := List.getElem?_eq_getElem (show j < bs.length by omega)
      exact ⟨_, List.mem_of_getElem? (dataTones_getElem? hb).1, rfl, rfl⟩
    · have hb := List.getElem?_eq_getElem (show j < bs.length by omega)
      exact ⟨_, List.mem_of_getElem? (dataTones_getElem? hb).2, rfl, rfl⟩

theorem exists_dataTone_covers_iff {p : Params} {bs : List Byte} {n : Nat} :
    (∃ t ∈ dataTones p 0 bs, t.Covers n) ↔
      ∃ slot, slot < 2 * bs.length ∧ p.preLen + slot * p.stepN ≤ n ∧ n < p.preLen + slot * p.stepN + p.toneN := by
  constructor
  · rintro ⟨t, ht, hcov⟩
    obtain ⟨slot, hslot, hstart, hdur⟩ := mem_dataTones_slot.mp ⟨t, ht, rfl, rfl⟩
    rw [Tone.Covers, hstart, hdur] at hcov
    exact ⟨slot, hslot, hcov⟩
  · rintro ⟨slot, hslot, hcov⟩
    obtain ⟨t, ht, hstart, hdur⟩ := mem_dataTones_slot.mpr ⟨slot, hslot, rfl, rfl⟩
    exact ⟨t, ht, by rwa [Tone.Covers, hstart, hdur]⟩

theorem exists_tone_covers_iff {p : Params} {bs : List Byte} {n : Nat} :
    (∃ t ∈ timeline p bs, t.Covers n) ↔
      n < p.preLen ∨
      (∃ slot, slot < 2 * bs.length ∧ p.preLen + slot * p.stepN ≤ n ∧ n < p.preLen + slot * p.stepN + p.toneN) ∨
      (p.preLen + 2 * bs.length * p.stepN ≤ n ∧ n < p.preLen + 2 * bs.length * p.stepN + p.postN) := by
  simp only [mem_timeline, or_and_right, exists_or, exists_eq_left, exists_preambleTone_covers_iff,
    exists_dataTone_covers_iff]

theorem tone_end_le_lMod {p : Params} {bs : List Byte} {t : Tone} (h : t ∈ timeline p bs) :
    t.start + t.dur ≤ p.lMod bs.length := by
  unfold Params.lMod
  rcases mem_timeline.mp h with h | h | rfl
  · have := preambleTones_end_le h
    omega
  · have := (dataTones_bounds h).2
    rw [Nat.zero_add] at this
    omega
  · rfl

/-- A sample of the data part lies in one slot only. -/
theorem slot_unique {step m i j : Nat} (hi : i * step ≤ m) (hi' : m < (i + 1) * step) (hj : j * step ≤ m)
    (hj' : m < (j + 1) * step) : i = j :=
  (Nat.div_eq_of_lt_le hi hi').symm.trans (Nat.div_eq_of_lt_le hj hj')

/-- What no tone covers below LMOD are the gaps, each from the end of a slot's tone to the end of the slot. -/
theorem not_covered_iff_gap {p : Params} {bs : List Byte} {n : Nat} (hn : n < p.lMod bs.length) :
    (¬ ∃ t ∈ timeline p bs, t.Covers n) ↔
      ∃ slot, slot < 2 * bs.length ∧ p.preLen + slot * p.stepN + p.toneN ≤ n ∧
        n < p.preLen + (slot + 1) * p.stepN := by
  rw [exists_tone_covers_iff, not_or, not_or]
  unfold Params.lMod at hn
  constructor
  · rintro ⟨hpre, hslots, hpost⟩
    obtain ⟨m, rfl⟩ := Nat.exists_eq_add_of_le (not_lt.mp hpre)
    have hm : m < 2 * bs.length * p.stepN := by omega
    have hlow := Nat.div_mul_le_self m p.stepN
    have hhigh : m < (m / p.stepN + 1) * p.stepN :=
      Nat.lt_mul_of_div_lt (Nat.lt_succ_self _) (Nat.pos_of_mul_pos_left (Nat.zero_lt_of_lt hm))
    have hslot : m / p.stepN < 2 * bs.length := Nat.div_lt_of_lt_mul (by rwa [Nat.mul_comm])
    refine ⟨m / p.stepN, hslot, not_lt.mp fun htone => hslots ⟨_, hslot, ?_, htone⟩, ?_⟩ <;> omega
  · rintro ⟨slot, hslot, hgap, hnext⟩
    refine ⟨by omega, ?_, fun ⟨hpost, _⟩ => ?_⟩
    · rintro ⟨slot', -, hstart, hend⟩
      obtain ⟨m, rfl⟩ := Nat.exists_eq_add_of_le (show p.preLen ≤ n by omega)
      have := Params.toneN_le_stepN p
      obtain rfl : slot' = slot :=
        slot_unique (step := p.stepN) (m := m) (by omega) (by rw [Nat.succ_mul]; omega) (by omega) (by omega)
      omega
    · have : (slot + 1) * p.stepN ≤ 2 * bs.length * p.stepN := Nat.mul_le_mul_right _ hslot
      omega

end Sys2Proof.Machine

namespace Sys2Proof

open Sys2Proof.Machine

/-- Settles O26: the table is an arithmetic progression, and rule R9 puts the sentinels on either side of it. -/
theorem toneTableIsInjective : Obligations.ToneTableIsInjective := by
  refine ⟨fun m n h => toneFreq_strictMono h, fun p j a b h => byteTones_injective p j h, fun p hp n hn => ?_⟩
  obtain ⟨hlow, hhigh⟩ := toneFreq_bounds hn
  exact ⟨hlow, hhigh, (hp.fLo_lt.trans_le hlow).ne', (hhigh.trans_lt hp.lt_fHi).ne⟩

/-- Settles O25: preamble, slots and postamble follow one another, and each slot is a tone and a gap. -/
theorem timelineTonesDoNotOverlap : Obligations.TimelineTonesDoNotOverlap := by
  intro p bs
  refine ⟨timeline_pairwise p bs, fun t ht => tone_end_le_lMod ht, fun n hn => ?_, timeline_length p bs⟩
  simpa only [not_exists, not_and] using not_covered_iff_gap hn

/-- Settles O27: each sample is one tone's, and AMP is positive and at most 1. -/
theorem referenceWaveformInRange : Obligations.ReferenceWaveformInRange := by
  intro p hp bs n
  have hamp : (0 : ℝ) < p.amp := Rat.cast_pos.mpr hp.amp_pos
  exact ⟨abs_of_pos hamp ▸ Reference.abs_signal_le p bs n, mod_cast hp.amp_le_one⟩

end Sys2Proof
end

section
/-!
PROOFS. The modulator's commands TONES and MOD (43_modulator.md rules R304 to R308, R313, R315, R316; statements O22 to
O24). What each of the two updates writes, the timeline and the waveform, is said once; MOD's statement puts both
together.
-/

namespace Sys2Proof.Safety

open Sys2Proof.Machine

theorem RegsSame.mono {rs rs' : List Reg} {s t : State} (h : RegsSame rs s t) (hsub : rs ⊆ rs') : RegsSame rs' s t :=
  fun r hr => h r fun hmem => hr (hsub hmem)

theorem RegsSame.trans {rs : List Reg} {s t u : State} (h : RegsSame rs s t) (h' : RegsSame rs t u) : RegsSame rs s u :=
  fun r hr => (h' r hr).trans (h r hr)

/-- Two updates one after the other write what either writes. -/
theorem ElemsSame.trans {written written' : Region → Nat → Prop} {s t u : State} (h : ElemsSame written s t)
    (h' : ElemsSame written' t u) : ElemsSame (fun m k => written m k ∨ written' m k) s u := fun m k f hm =>
  (h' m k f fun hw => hm (.inr hw)).trans (h m k f fun hw => hm (.inl hw))

end Sys2Proof.Safety

namespace Sys2Proof.Machine

/-! ### The samples of the waveform (rule R313) -/

theorem inAmplitude_iff {p : Params} {w : Word} :
    inAmplitude p w = true ↔ f32NonFinite w = false ∧ -p.amp ≤ f32Value w ∧ f32Value w ≤ p.amp := by
  simp [inAmplitude, and_assoc]

/-- A stored sample is a finite pattern in [-AMP, AMP]: where NUMERICS is not, it is +0.0. -/
theorem inAmplitude_synthSample {p : Params} (hp : p.Valid) (num : Numerics) (bs : List Byte) (n : Nat) :
    inAmplitude p (synthSample p num bs n) = true := by
  unfold synthSample
  split
  · assumption
  · have hzero : f32Value 0 = 0 := by decide
    rw [inAmplitude_iff, hzero]
    exact ⟨by decide, neg_nonpos.mpr hp.amp_pos.le, hp.amp_pos.le⟩

/-! ### The nibbles of a byte (rule R149) -/

theorem toNat_highNibble (b : Byte) : (b.extractLsb' 4 4).toNat = b.toNat / 16 := by
  rw [BitVec.extractLsb'_toNat, Nat.shiftRight_eq_div_pow]
  omega

theorem toNat_lowNibble (b : Byte) : (b.extractLsb' 0 4).toNat = b.toNat % 16 :=
  BitVec.extractLsb'_toNat 0 4 b

variable (s : State)

/-! ### What the timeline's update writes (rule R308) -/

theorem State.payload_getElem? {j : Nat} (h : j < s.bLen.toNat) : s.payload[j]? = some (s.bytesAt j) := by
  rw [State.payload, s.bytesRange_getElem? h, Nat.zero_add]

theorem State.toneAt_withTimeline_of_tone {k : Nat} {t : Tone} (h : (timeline Config.params s.payload)[k]? = some t) :
    s.withTimeline.toneAt k = t.entry := by
  rw [State.toneAt_withTimeline, List.getElem?_map, h, Option.map_some, Option.getD_some]

theorem State.toNat_withTimeline_toneCnt (h : s.bLen.toNat ≤ Config.params.maxB) :
    s.withTimeline.toneCnt.toNat = Config.params.nTones s.bLen.toNat := by
  have := (Config.nTones_le h).trans Config.tMax_le
  rw [State.withTimeline_toneCnt, BitVec.toNat_ofNat, Nat.mod_eq_of_lt (by omega)]

/-- TONES and TONE_CNT hold the timeline: preamble, data and postamble stand where their indices say. -/
theorem State.timelineWritten_withTimeline (h : s.bLen.toNat ≤ Config.params.maxB) :
    Safety.TimelineWritten s s.withTimeline := by
  refine ⟨fun c hc => ?preamble, fun j hj => ?data, ?postamble, s.toNat_withTimeline_toneCnt h⟩
  case preamble =>
    obtain ⟨hlow, hhigh⟩ := preambleTones_getElem? hc
    exact ⟨s.toneAt_withTimeline_of_tone (timeline_getElem?_preamble hlow),
      s.toneAt_withTimeline_of_tone (timeline_getElem?_preamble hhigh)⟩
  case data =>
    obtain ⟨hhi, hlo⟩ := dataTones_getElem? (p := Config.params) (s.payload_getElem? hj)
    rw [toNat_highNibble] at hhi
    rw [toNat_lowNibble] at hlo
    exact ⟨s.toneAt_withTimeline_of_tone (timeline_getElem?_data hhi),
      s.toneAt_withTimeline_of_tone (timeline_getElem?_data hlo)⟩
  case postamble =>
    have hpost := timeline_getElem?_postamble Config.params s.payload
    rw [State.payload_length] at hpost
    exact s.toneAt_withTimeline_of_tone hpost

theorem State.regsSame_withTimeline : Safety.RegsSame [.status, .err, .toneCnt] s s.withTimeline := by
  intro r hr
  cases r
  case toneCnt => simp at hr
  all_goals rfl

theorem State.elemsSame_withTimeline :
    Safety.ElemsSame (fun m k => m = .tones ∧ k < Config.params.nTones s.bLen.toNat) s s.withTimeline := by
  intro m k f hm
  cases m
  case tones =>
    have hout : ((timeline Config.params s.payload).map Tone.entry)[k]? = none :=
      List.getElem?_eq_none (by simpa using hm)
    rw [State.readElem, State.toneAt_withTimeline, hout]
    rfl
  all_goals rfl

/-! ### What the waveform's update writes (rule R315) -/

theorem State.toNat_withWaveform_pcmLen (h : s.bLen.toNat ≤ Config.params.maxB) :
    s.withWaveform.pcmLen.toNat = Config.params.lMod s.bLen.toNat := by
  have := (Config.lMod_le h).trans Config.pcmMax_le
  rw [State.withWaveform_pcmLen, BitVec.toNat_ofNat, Nat.mod_eq_of_lt (by omega)]

/-- PCM after both of MOD's updates: the timeline's leaves the payload alone. -/
theorem State.pcmAt_withTimeline_withWaveform {n : Nat} (h : n < Config.params.lMod s.bLen.toNat) :
    s.withTimeline.withWaveform.pcmAt n = synthSample Config.params Config.numerics s.payload n := by
  have hpayload : s.withTimeline.payload = s.payload := rfl
  rw [State.pcmAt_withWaveform, hpayload, render, s.payload_length, List.getElem?_map, List.getElem?_range h,
    Option.map_some, Option.getD_some]

theorem State.regsSame_withWaveform : Safety.RegsSame [.status, .err, .pcmLen] s s.withWaveform := by
  intro r hr
  cases r
  case pcmLen => simp at hr
  all_goals rfl

theorem State.elemsSame_withWaveform :
    Safety.ElemsSame (fun m k => m = .pcm ∧ k < Config.params.lMod s.bLen.toNat) s s.withWaveform := by
  intro m k f hm
  cases m
  case pcm =>
    have hout : (render Config.params Config.numerics s.payload)[k]? = none :=
      List.getElem?_eq_none (by simpa using hm)
    rw [State.readElem, State.pcmAt_withWaveform, hout]
    rfl
  all_goals rfl

/-! ### Two states with the same payload (rule R316) -/

theorem State.payload_congr {s s' : State} (hlen : s'.bLen = s.bLen)
    (hbytes : ∀ k, k < s.bLen.toNat → s'.bytesAt k = s.bytesAt k) : s'.payload = s.payload := by
  rw [State.payload_eq, State.payload_eq, hlen]
  exact List.map_congr_left fun k hk => hbytes k (List.mem_range.mp hk)

/-- The timeline of one payload is one list of entries. -/
theorem State.toneAt_withTimeline_congr {s s' : State} (h : s'.payload = s.payload) {k : Nat}
    (hk : k < Config.params.nTones s.bLen.toNat) : s'.withTimeline.toneAt k = s.withTimeline.toneAt k := by
  have htone := List.getElem?_eq_getElem (l := timeline Config.params s.payload) (by simpa using hk)
  rw [s.toneAt_withTimeline_of_tone htone, s'.toneAt_withTimeline_of_tone (by rwa [h])]

end Sys2Proof.Machine

namespace Sys2Proof

open Sys2Proof.Machine Sys2Proof.Safety

/-- Settles O22: the timeline's update, and a completion. A frequency of 2^32 Hz or more is cut to its u32 field (log
entry 18). -/
theorem tonesWritesTheTimeline : Obligations.TonesWritesTheTimeline := by
  refine ⟨fun s hfits => ?fits, fun s hlong => ?long⟩
  case fits =>
    exact ⟨_, execTones_of_fits hfits, s.timelineWritten_withTimeline hfits, rfl,
      completedWith_finish (.withTimeline s), regsSame_finish _ (by decide) (by decide) s.regsSame_withTimeline,
      elemsSame_finish _ s.elemsSame_withTimeline⟩
  case long => exact ⟨_, execTones_of_long hlong, failedWith_finish s _⟩

/-- Settles O23: the timeline's update, the waveform's, and a completion; each sample is in range by its definition. -/
theorem modRendersTheTimeline : Obligations.ModRendersTheTimeline := by
  refine ⟨fun s hfits => ?fits, fun s hlong => ?long⟩
  case fits =>
    have hlen := s.withTimeline.toNat_withWaveform_pcmLen hfits
    refine ⟨_, execMod_of_fits hfits, s.timelineWritten_withTimeline hfits, hlen, fun n hn => ?_, rfl,
      completedWith_finish (.trans (.withTimeline s) (.withWaveform _)),
      regsSame_finish _ (by decide) (by decide)
        (.trans (s.regsSame_withTimeline.mono (by decide)) (s.withTimeline.regsSame_withWaveform.mono (by decide))),
      elemsSame_finish _ (s.elemsSame_withTimeline.trans s.withTimeline.elemsSame_withWaveform)⟩
    rw [State.pcmAt_finish, s.pcmAt_withTimeline_withWaveform (hn.trans_eq hlen), ← State.payload_eq]
    exact ⟨rfl, inAmplitude_iff.mp (inAmplitude_synthSample Config.params_valid _ _ _)⟩
  case long => exact ⟨_, execMod_of_long hlong, failedWith_finish s _⟩

/-- Settles O24: MOD reads its payload and the configuration only. -/
theorem modDependsOnThePayloadOnly : Obligations.ModDependsOnThePayloadOnly := by
  intro s s' hfits hlen hbytes
  have hpayload := State.payload_congr hlen hbytes
  have hfits' : s'.bLen.toNat ≤ Config.params.maxB := by rwa [hlen]
  refine ⟨_, _, execMod_of_fits hfits, execMod_of_fits hfits', by simp [hlen], by simp [hlen], fun k hk => ?tones,
    fun n hn => ?samples⟩
  case tones => exact State.toneAt_withTimeline_congr hpayload (hk.trans_eq (s.toNat_withTimeline_toneCnt hfits))
  case samples =>
    have hrange : n < Config.params.lMod s.bLen.toNat := hn.trans_eq (s.withTimeline.toNat_withWaveform_pcmLen hfits)
    rw [State.pcmAt_finish, State.pcmAt_finish, s.pcmAt_withTimeline_withWaveform hrange,
      s'.pcmAt_withTimeline_withWaveform (by rwa [hlen]), hpayload]

end Sys2Proof
end

section
/-!
PROOFS. The detectors and their decisions (44_demodulator.md rules R352 to R375, statements O33 to O36 and O38): the
Goertzel recurrence against the Fourier sum, the onset search, the synchronisation, the slicer and the assembled byte.
-/

namespace Sys2Proof.Reference

/-! ### The Goertzel recurrence (rule R352) -/

/-- The state (s1, s2) of the recurrence at the angle `w` as one complex number. -/
noncomputable def phasor (w : ℝ) (s : ℝ × ℝ) : ℂ := s.1 - Complex.exp (-Complex.I * w) * s.2

/-- The recurrence's final energy formula is the squared magnitude of its state's phasor. -/
theorem norm_phasor_sq (w : ℝ) (s : ℝ × ℝ) :
    ‖phasor w s‖ ^ 2 = s.1 ^ 2 + s.2 ^ 2 - 2 * Real.cos w * s.1 * s.2 := by
  have hexp : Complex.exp (-Complex.I * w) = Real.cos w - Real.sin w * Complex.I := by
    rw [show -Complex.I * w = -(w : ℂ) * Complex.I by ring, Complex.exp_mul_I, Complex.cos_neg, Complex.sin_neg]
    push_cast
    ring
  have hre : (phasor w s).re = s.1 - Real.cos w * s.2 := by
    rw [phasor, hexp]
    simp [-Complex.ofReal_cos, -Complex.ofReal_sin]
  have him : (phasor w s).im = Real.sin w * s.2 := by
    rw [phasor, hexp]
    simp [-Complex.ofReal_cos, -Complex.ofReal_sin]
  rw [Complex.sq_norm, Complex.normSq_apply, hre, him]
  linear_combination s.2 ^ 2 * Real.sin_sq_add_cos_sq w

theorem exp_mul_exp_neg (w : ℝ) : Complex.exp (Complex.I * w) * Complex.exp (-Complex.I * w) = 1 := by
  rw [← Complex.exp_add]
  simp

/-- One step of the recurrence turns the phasor by `w` and adds the sample. -/
theorem phasor_step (w y : ℝ) (s : ℝ × ℝ) :
    phasor w (y + 2 * Real.cos w * s.1 - s.2, s.1) = y + Complex.exp (Complex.I * w) * phasor w s := by
  have hcos : 2 * Complex.cos w = Complex.exp (Complex.I * w) + Complex.exp (-Complex.I * w) := by
    rw [Complex.two_cos, mul_comm (w : ℂ), mul_comm (-(w : ℂ)), mul_neg, neg_mul]
  simp only [phasor]
  push_cast
  linear_combination (s.1 : ℂ) * hcos + (s.2 : ℂ) * exp_mul_exp_neg w

/-- From any state, the recurrence ends with the magnitude of its start plus the Fourier sum, which lags by one
sample. -/
theorem norm_phasor_goertzelState (w : ℝ) (ys : List ℝ) (s : ℝ × ℝ) :
    ‖phasor w (goertzelState (2 * Real.cos w) ys s)‖ =
      ‖phasor w s + Complex.exp (-Complex.I * w) * fourierSum w 0 ys‖ := by
  induction ys generalizing s with
  | nil => simp [goertzelState, fourierSum]
  | cons y ys ih =>
    have hturn : ‖Complex.exp (Complex.I * w)‖ = 1 := by simp [Complex.norm_exp]
    have hsum : fourierSum w 0 (y :: ys) = y + Complex.exp (-Complex.I * w) * fourierSum w 0 ys := by
      simp [fourierSum, fourierSum_succ w 0]
    calc ‖phasor w (goertzelState (2 * Real.cos w) (y :: ys) s)‖
        = ‖y + Complex.exp (Complex.I * w) * phasor w s + Complex.exp (-Complex.I * w) * fourierSum w 0 ys‖ := by
          rw [goertzelState, ih, phasor_step]
      _ = ‖Complex.exp (Complex.I * w) * (phasor w s + Complex.exp (-Complex.I * w) * fourierSum w 0 (y :: ys))‖ := by
          rw [hsum]
          congr 1
          linear_combination
            (-(y : ℂ) - Complex.exp (-Complex.I * w) * fourierSum w 0 ys) * exp_mul_exp_neg w
      _ = ‖phasor w s + Complex.exp (-Complex.I * w) * fourierSum w 0 (y :: ys)‖ := by
          rw [norm_mul, hturn, one_mul]

theorem goertzelEnergy_eq (w : ℝ) (ys : List ℝ) : goertzelEnergy w ys = ‖fourierSum w 0 ys‖ ^ 2 := by
  rw [goertzelEnergy, ← norm_phasor_sq, norm_phasor_goertzelState]
  simp [phasor, Complex.norm_exp]

theorem fourierSum_of_zeros (w : ℝ) {ys : List ℝ} (h : ∀ y ∈ ys, y = 0) (n : ℕ) : fourierSum w n ys = 0 := by
  induction ys generalizing n with
  | nil => rfl
  | cons y ys ih =>
    obtain ⟨rfl, hys⟩ := List.forall_mem_cons.mp h
    simp [fourierSum, ih hys]

end Sys2Proof.Reference

namespace Sys2Proof.Machine

/-! ### The onset (rules R360, R361) -/

/-- Window number `k` lies in the capture and passes one of the two thresholds. -/
def LoudWindow (p : Params) (num : Numerics) (xs : List Rat) (k : Nat) : Prop :=
  k * p.onsetStrideN + p.onsetWinN ≤ xs.length ∧
    (onsetK * noiseFloor p num xs < windowEnergyOf num (window xs (k * p.onsetStrideN) p.onsetWinN) ∨
      p.absFloor < windowEnergyOf num (window xs (k * p.onsetStrideN) p.onsetWinN))

variable {p : Params} {num : Numerics} {xs : List Rat}

theorem isOnset_of_not_loud {k : Nat} (h : ¬ LoudWindow p num xs k)
    (fits : k * p.onsetStrideN + p.onsetWinN ≤ xs.length) : isOnset p num xs (k * p.onsetStrideN) = false :=
  Bool.eq_false_iff.mpr fun hon => h ⟨fits, isOnset_iff.mp hon⟩

theorem onsetOf_of_first_loud (hp : p.Valid) {k : Nat} (loud : LoudWindow p num xs k)
    (first : ∀ j, j < k → ¬ LoudWindow p num xs j) : onsetOf p num xs = some (k * p.onsetStrideN) :=
  onsetOf_eq_some hp.onsetStrideN_pos loud.1 (isOnset_iff.mpr loud.2) fun j hj => isOnset_of_not_loud (first j hj)

/-- There is a loud window, and the first of them is the onset, or there is none, and no onset. -/
theorem onsetOf_cases (hp : p.Valid) (num : Numerics) (xs : List Rat) :
    (∃ k, LoudWindow p num xs k ∧ (∀ j, j < k → ¬ LoudWindow p num xs j) ∧
      onsetOf p num xs = some (k * p.onsetStrideN)) ∨
    (∀ k, ¬ LoudWindow p num xs k) ∧ onsetOf p num xs = none := by
  classical
  by_cases h : ∃ k, LoudWindow p num xs k
  · exact .inl ⟨Nat.find h, Nat.find_spec h, fun j => Nat.find_min h,
      onsetOf_of_first_loud hp (Nat.find_spec h) fun j => Nat.find_min h⟩
  · have quiet := not_exists.mp h
    exact .inr ⟨quiet, onsetOf_eq_none fun k => isOnset_of_not_loud (quiet k)⟩

theorem onsetOf_eq_some_iff (hp : p.Valid) {w : Nat} :
    onsetOf p num xs = some w ↔
      ∃ k, w = k * p.onsetStrideN ∧ LoudWindow p num xs k ∧ ∀ j, j < k → ¬ LoudWindow p num xs j := by
  constructor
  · intro h
    rcases onsetOf_cases hp num xs with ⟨k, loud, first, honset⟩ | ⟨-, hnone⟩
    · exact ⟨k, Option.some.inj (h.symm.trans honset), loud, first⟩
    · cases h.symm.trans hnone
  · rintro ⟨k, rfl, loud, first⟩
    exact onsetOf_of_first_loud hp loud first

theorem onsetOf_eq_none_iff (hp : p.Valid) : onsetOf p num xs = none ↔ ∀ k, ¬ LoudWindow p num xs k := by
  constructor
  · intro h
    rcases onsetOf_cases hp num xs with ⟨k, -, -, honset⟩ | ⟨quiet, -⟩
    · cases h.symm.trans honset
    · exact quiet
  · exact fun quiet => onsetOf_eq_none fun k => isOnset_of_not_loud (quiet k)

/-! ### The synchronisation (rules R364 to R368) -/

/-- On a rising list the values before the first maximum are less. -/
theorem lt_of_firstMax {α : Type} [LinearOrder α] {f : Nat → α} {ks : List Nat} {m k : Nat}
    (rising : ks.Pairwise (· < ·)) (h : firstMax f ks = some m) (hk : k ∈ ks) (hlt : k < m) : f k < f m := by
  obtain ⟨before, after, rfl, hbefore, -⟩ := firstMax_eq_some h
  obtain ⟨-, hrest, -⟩ := List.pairwise_append.mp rising
  obtain ⟨hafter, -⟩ := List.pairwise_cons.mp hrest
  rcases List.mem_append.mp hk with hk | hk
  · exact hbefore k hk
  · rcases List.mem_cons.mp hk with rfl | hk
    · exact absurd hlt (lt_irrefl _)
    · exact absurd hlt (hafter k hk).not_gt

theorem mem_candidates (hp : p.Valid) {onset len q : Nat} :
    q ∈ candidates p onset len ↔ ∃ k, k * p.searchStepN ≤ p.searchSpanN ∧
      q = onset - p.preBackoffN + k * p.searchStepN ∧ q + p.preLen ≤ len := by
  have hrange : ∀ k, k * p.searchStepN ≤ p.searchSpanN → k < p.searchSpanN + 1 := fun k hk =>
    Nat.lt_succ_of_le ((Nat.le_mul_of_pos_right k hp.searchStepN_pos).trans hk)
  simp only [candidates, List.mem_filter, List.mem_map, List.mem_range, decide_eq_true_eq]
  constructor
  · rintro ⟨⟨k, ⟨-, hspan⟩, rfl⟩, hfits⟩
    exact ⟨k, hspan, rfl, hfits⟩
  · rintro ⟨k, hspan, rfl, hfits⟩
    exact ⟨⟨k, ⟨hrange k hspan, hspan⟩, rfl⟩, hfits⟩

/-- A candidate's score is that of its ratios, the second window of cycle `c` at `2c + 1` preamble tones. -/
theorem candidateScore_eq (p : Params) (num : Numerics) (xs : List Rat) (q : Nat) :
    candidateScore p num xs q = scoreOf num ((List.range p.preCycles).flatMap fun c =>
      [ratioOf num (sentinelEnergyOf num (window xs (q + 2 * c * p.preN) p.preN) p.fLo)
          (sentinelEnergyOf num (window xs (q + 2 * c * p.preN) p.preN) p.fHi),
        ratioOf num (sentinelEnergyOf num (window xs (q + (2 * c + 1) * p.preN) p.preN) p.fHi)
          (sentinelEnergyOf num (window xs (q + (2 * c + 1) * p.preN) p.preN) p.fLo)]) := by
  have hsecond : ∀ c, q + (2 * c + 1) * p.preN = q + 2 * c * p.preN + p.preN := fun c => by ring
  simp only [hsecond]
  rfl

theorem synchronise_of_no_candidate {onset : Nat} (h : candidates p onset xs.length = []) :
    synchronise p num xs onset = ⟨.fallback, onset + p.preLen, 0⟩ := by
  rw [synchronise, bestCandidate, h]
  rfl

theorem preThresh_eq : preThresh = mkRat 40 100 := by decide +kernel

/-! ### The slicer (rules R371 to R373) -/

/-- The nibble of a slot is the first maximum of the bins. -/
theorem firstMax_sliceNibble (num : Numerics) (ys : List Rat) :
    firstMax (binEnergy num ys) (List.range 16) = some (sliceNibble num ys) := by
  obtain ⟨b, hb⟩ := firstMax_isSome (binEnergy num ys) (List.ne_nil_of_mem (List.mem_range.mpr (by decide : 0 < 16)))
  rw [sliceNibble, hb, Option.getD_some]

theorem sliceNibble_lt (num : Numerics) (ys : List Rat) : sliceNibble num ys < 16 :=
  List.mem_range.mp (mem_of_firstMax (firstMax_sliceNibble num ys))

/-- The runner-up is the first maximum of the other bins, of which there is one. -/
theorem firstMax_runnerUp (num : Numerics) (ys : List Rat) :
    firstMax (binEnergy num ys) ((List.range 16).filter (fun k => k != sliceNibble num ys)) =
      some (runnerUp num ys) := by
  obtain ⟨k, hk, hne⟩ : ∃ k, k < 16 ∧ k ≠ sliceNibble num ys := by
    by_cases h0 : sliceNibble num ys = 0
    · exact ⟨1, by decide, by omega⟩
    · exact ⟨0, by decide, Ne.symm h0⟩
  have hmem : k ∈ (List.range 16).filter (fun k => k != sliceNibble num ys) :=
    List.mem_filter.mpr ⟨List.mem_range.mpr hk, bne_iff_ne.mpr hne⟩
  obtain ⟨r, hr⟩ := firstMax_isSome (binEnergy num ys) (List.ne_nil_of_mem hmem)
  rw [runnerUp, hr, Option.getD_some]

/-! ### The assembled byte (rules R370, R374, R375) -/

/-- A byte of two nibbles, high first. -/
theorem toNat_append_nibbles {hi lo : Nat} (hhi : hi < 16) (hlo : lo < 16) :
    (BitVec.ofNat 4 hi ++ BitVec.ofNat 4 lo).toNat = 16 * hi + lo := by
  rw [BitVec.toNat_append, ← Nat.shiftLeft_add_eq_or_of_lt (BitVec.isLt _), BitVec.toNat_ofNat, BitVec.toNat_ofNat,
    Nat.mod_eq_of_lt hhi, Nat.mod_eq_of_lt hlo, Nat.shiftLeft_eq]
  omega

theorem decodeByte_of_fits {start j : Nat}
    (h : slotStart p start (2 * j + 1) + p.windowN ≤ xs.length) :
    decodeByte p num xs start j = assembleByte num (window xs (slotStart p start (2 * j)) p.windowN)
      (window xs (slotStart p start (2 * j + 1)) p.windowN) :=
  if_pos (decide_eq_true h)

theorem decodeByte_of_beyond {start j : Nat}
    (h : xs.length < slotStart p start (2 * j + 1) + p.windowN) : decodeByte p num xs start j = undecoded :=
  if_neg (by simpa [slotInRange] using h)

end Sys2Proof.Machine

namespace Sys2Proof

open Sys2Proof.Machine

/-- Settles O33: the search takes the windows in turn and stops at the first loud one. -/
theorem onsetIsTheFirstLoudWindow : Obligations.OnsetIsTheFirstLoudWindow :=
  fun _ _ _ hp => ⟨fun _ => onsetOf_eq_some_iff hp, onsetOf_eq_none_iff hp⟩

/-- Settles O34: the best candidate is the first maximum of the rising list of candidates. -/
theorem syncTakesTheFirstBestCandidate : Obligations.SyncTakesTheFirstBestCandidate := by
  intro p num xs onset hp cand score
  have hcand : ∀ q, q ∈ candidates p onset xs.length ↔ cand q := fun q => mem_candidates hp
  have hscore : ∀ q, candidateScore p num xs q = score q := candidateScore_eq p num xs
  refine ⟨fun hnone => ?none, fun ⟨q₀, hq₀⟩ => ?some⟩
  case none =>
    exact synchronise_of_no_candidate (List.eq_nil_iff_forall_not_mem.mpr fun q hq => hnone q ((hcand q).mp hq))
  case some =>
    obtain ⟨q, hq⟩ := firstMax_isSome (candidateScore p num xs) (List.ne_nil_of_mem ((hcand q₀).mpr hq₀))
    have hsync := synchronise_of_best hq
    rw [preThresh_eq, hscore] at hsync
    refine ⟨q, (hcand q).mp (mem_of_firstMax hq), fun q' hq' => ?best, fun q' hq' heq => ?first,
      fun haccept => ?located, fun hreject => ?fallback⟩
    case best =>
      rw [← hscore, ← hscore]
      exact le_of_firstMax hq ((hcand q').mpr hq')
    case first =>
      rw [← hscore, ← hscore] at heq
      exact not_lt.mp fun hlt =>
        (lt_of_firstMax (candidates_pairwise hp _ _) hq ((hcand q').mpr hq') hlt).ne heq
    case located => rw [hsync, if_pos haccept]
    case fallback => rw [hsync, if_neg hreject.not_ge]

/-- Settles O35: nibble and runner-up are first maxima, of the 16 bins and of the other 15. -/
theorem slicerTakesTheLoudestBin : Obligations.SlicerTakesTheLoudestBin := by
  intro num ys energy b
  have hb : firstMax energy (List.range 16) = some b := firstMax_sliceNibble num ys
  have hr : firstMax energy ((List.range 16).filter (fun k => k != b)) = some (runnerUp num ys) :=
    firstMax_runnerUp num ys
  obtain ⟨hr16, hne⟩ := List.mem_filter.mp (mem_of_firstMax hr)
  have hb16 : b < 16 := sliceNibble_lt num ys
  refine ⟨hb16, fun k hk => le_of_firstMax hb (List.mem_range.mpr hk), fun k hk => ?least,
    runnerUp num ys, List.mem_range.mp hr16, bne_iff_ne.mp hne, fun k hk hkb => ?other, rfl⟩
  case least => exact lt_of_firstMax List.pairwise_lt_range hb (List.mem_range.mpr (hk.trans hb16)) hk
  case other => exact le_of_firstMax hr (List.mem_filter.mpr ⟨List.mem_range.mpr hk, bne_iff_ne.mpr hkb⟩)

/-- Settles O36, over whether the slot of the low nibble, the later of the two, lies in the capture. -/
theorem bytesAreAssembledFromSlots : Obligations.BytesAreAssembledFromSlots := by
  intro p num xs start j first samples d
  refine ⟨fun hfits => ?inRange, fun hbeyond => decodeByte_of_beyond hbeyond⟩
  case inRange =>
    have hd : d = assembleByte num (samples (2 * j)) (samples (2 * j + 1)) := decodeByte_of_fits hfits
    rw [hd, ← confThresh_eq]
    exact ⟨toNat_append_nibbles (sliceNibble_lt _ _) (sliceNibble_lt _ _), rfl, rfl, by simp [assembleByte]⟩

/-- Settles O38: the energy is a squared magnitude. -/
theorem goertzelGivesTheFourierEnergy : Obligations.GoertzelGivesTheFourierEnergy := by
  intro w ys
  rw [Reference.goertzelEnergy_eq]
  exact ⟨rfl, sq_nonneg _, fun h => by simp [Reference.fourierSum_of_zeros w h]⟩

end Sys2Proof
end

section
/-!
PROOFS. The command DEMOD (44_demodulator.md rules R375 to R382, statements O28 to O31). What the storage of a result
leaves in the state is said once, for every result; then what a demodulation decodes, byte by byte, and the captures of
which it decodes no byte.
-/

namespace Sys2Proof

theorem Params.Valid.absFloor_pos {p : Params} (h : p.Valid) : 0 < p.absFloor := by
  obtain ⟨-, -, -, -, ⟨-, -, absFloor, -⟩, -⟩ := h
  exact absFloor

theorem Params.Valid.silentPeak_nonneg {p : Params} (h : p.Valid) : 0 ≤ p.silentPeak := by
  obtain ⟨-, -, -, -, ⟨-, -, -, silentPeak⟩, -⟩ := h
  exact silentPeak

end Sys2Proof

namespace Sys2Proof.Machine

open Sys2Proof.Reference (Source blockCopy)

/-! ### The stored result (rule R379) -/

section

variable (s : State) {r : DecodeResult}

/-- The registers DEMOD writes. -/
theorem State.regsSame_storeResult (r : DecodeResult) : Safety.RegsSame Safety.demodRegs s (s.storeResult r) := by
  intro reg hreg
  cases reg
  case bLen | dmSync | dmOnset | dmStart | dmScore | dmConf | dmErrCnt => simp [Safety.demodRegs] at hreg
  all_goals rfl

/-- The elements DEMOD writes. -/
theorem State.elemsSame_storeResult (r : DecodeResult) :
    Safety.ElemsSame (fun m k => (m = .bytes ∧ k < r.decoded.length) ∨ (m = .nconf ∧ k < 2 * r.decoded.length) ∨
      (m = .epos ∧ k < r.errorPositions.length)) s (s.storeResult r) := by
  intro m k f hm
  cases m
  case bytes =>
    have hout : (r.decoded.map DecodedByte.value)[k]? = none := List.getElem?_eq_none (by simpa using hm)
    rw [State.readElem, State.bytesAt_storeResult, hout]
    rfl
  case nconf =>
    have hout : (r.confidences.map round32)[k]? = none := List.getElem?_eq_none (by simpa using hm)
    rw [State.readElem, State.nconfAt_storeResult, hout]
    rfl
  case epos =>
    have hout : (r.errorPositions.map (BitVec.ofNat 32))[k]? = none := List.getElem?_eq_none (by simpa using hm)
    rw [State.readElem, State.eposAt_storeResult, hout]
    rfl
  all_goals rfl

theorem State.bytesAt_storeResult_of_byte {j : Nat} {d : DecodedByte} (h : r.decoded[j]? = some d) :
    (s.storeResult r).bytesAt j = d.value := by
  rw [State.bytesAt_storeResult, List.getElem?_map, h, Option.map_some, Option.getD_some]

/-- A byte's two confidences stand side by side, that of its high nibble first (rule R65). -/
theorem State.nconfAt_storeResult_of_byte {j : Nat} {d : DecodedByte} (h : r.decoded[j]? = some d) :
    (s.storeResult r).nconfAt (2 * j) = round32 d.confHi ∧
      (s.storeResult r).nconfAt (2 * j + 1) = round32 d.confLo := by
  simp [State.nconfAt_storeResult, DecodeResult.confidences, getElem?_flatMap_pair, h]

variable (hr : r.decoded.length < 2 ^ 32)
include hr

theorem State.toNat_storeResult_dmErrCnt : (s.storeResult r).dmErrCnt.toNat = r.errorPositions.length := by
  rw [State.storeResult_dmErrCnt, BitVec.toNat_ofNat, Nat.mod_eq_of_lt (r.errorPositions_length_le.trans_lt hr)]

theorem State.toNat_eposAt_storeResult {e : Nat} (he : e < r.errorPositions.length) :
    ((s.storeResult r).eposAt e).toNat = r.errorPositions[e] := by
  obtain ⟨hlt, -⟩ := DecodeResult.mem_errorPositions.mp (List.getElem_mem he)
  rw [s.eposAt_storeResult_of_lt he, BitVec.toNat_ofNat, Nat.mod_eq_of_lt (hlt.trans hr)]

/-- Every stored error position is that of a decoded byte (rule R64). -/
theorem State.eposAt_storeResult_lt {e : Nat} (he : e < (s.storeResult r).dmErrCnt.toNat) :
    ((s.storeResult r).eposAt e).toNat < r.decoded.length := by
  rw [s.toNat_storeResult_dmErrCnt hr] at he
  obtain ⟨hlt, -⟩ := DecodeResult.mem_errorPositions.mp (List.getElem_mem he)
  rwa [s.toNat_eposAt_storeResult hr he]

/-- The stored error positions rise (rule R64). -/
theorem State.eposAt_storeResult_lt_succ {e : Nat} (he : e + 1 < (s.storeResult r).dmErrCnt.toNat) :
    ((s.storeResult r).eposAt e).toNat < ((s.storeResult r).eposAt (e + 1)).toNat := by
  rw [s.toNat_storeResult_dmErrCnt hr] at he
  rw [s.toNat_eposAt_storeResult hr (Nat.lt_of_succ_lt he), s.toNat_eposAt_storeResult hr he]
  exact List.pairwise_iff_getElem.mp r.errorPositions_rising _ _ _ _ (Nat.lt_succ_self e)

/-- The stored error positions are those of the flagged bytes (rule R376). -/
theorem State.flagged_iff_exists_eposAt {j : Nat} {d : DecodedByte} (h : r.decoded[j]? = some d) :
    d.flagged = true ↔
      ∃ e, e < (s.storeResult r).dmErrCnt.toNat ∧ ((s.storeResult r).eposAt e).toNat = j := by
  obtain ⟨hj, hd⟩ := List.getElem?_eq_some_iff.mp h
  have hmem : d.flagged = true ↔ j ∈ r.errorPositions := by
    rw [DecodeResult.mem_errorPositions, ← hd]
    exact ⟨fun hflag => ⟨hj, hflag⟩, fun ⟨_, hflag⟩ => hflag⟩
  rw [hmem, s.toNat_storeResult_dmErrCnt hr, List.mem_iff_getElem]
  constructor
  · rintro ⟨e, he, heq⟩
    exact ⟨e, he, (s.toNat_eposAt_storeResult hr he).trans heq⟩
  · rintro ⟨e, he, heq⟩
    exact ⟨e, he, (s.toNat_eposAt_storeResult hr he).symm.trans heq⟩

end

/-! ### The stored result of a capture of which no byte is decoded (rules R375, R378) -/

theorem DecodeResult.errorPositions_of_undecoded {r : DecodeResult} (h : ∀ d ∈ r.decoded, d = undecoded) :
    r.errorPositions = List.range r.decoded.length := by
  refine List.filter_eq_self.mpr fun j hj => ?_
  have hlt := List.mem_range.mp hj
  have hflag : r.decoded[j].flagged = true := by rw [h _ (List.getElem_mem hlt), undecoded]
  exact (List.mem_filter.mp (DecodeResult.mem_errorPositions.mpr ⟨hlt, hflag⟩)).2

/-- Every byte is 0 and flagged, with confidences 0. -/
theorem State.storeResult_of_undecoded (s : State) {r : DecodeResult} (hlen : r.decoded.length = s.rxLen.toNat)
    (h : ∀ d ∈ r.decoded, d = undecoded) :
    (s.storeResult r).dmConf = 0 ∧ (s.storeResult r).dmErrCnt = s.rxLen ∧
      ∀ j, j < s.rxLen.toNat →
        (s.storeResult r).bytesAt j = 0 ∧ ((s.storeResult r).eposAt j).toNat = j ∧
        (s.storeResult r).nconfAt (2 * j) = 0 ∧ (s.storeResult r).nconfAt (2 * j + 1) = 0 := by
  have hsmall : r.decoded.length < 2 ^ 32 := hlen ▸ s.rxLen.isLt
  have hpos := DecodeResult.errorPositions_of_undecoded h
  refine ⟨?conf, ?count, fun j hj => ?byte⟩
  case conf => rw [State.storeResult_dmConf, meanOf_of_allZero _ (confidences_of_undecoded h), round32_zero]
  case count =>
    refine BitVec.eq_of_toNat_eq ?_
    rw [s.toNat_storeResult_dmErrCnt hsmall, hpos, List.length_range, hlen]
  case byte =>
    have hjr : j < r.decoded.length := hlen ▸ hj
    have hd : r.decoded[j]? = some undecoded := by rw [List.getElem?_eq_getElem hjr, h _ (List.getElem_mem hjr)]
    have hje : j < r.errorPositions.length := by rwa [hpos, List.length_range]
    obtain ⟨hhi, hlo⟩ := s.nconfAt_storeResult_of_byte hd
    refine ⟨s.bytesAt_storeResult_of_byte hd, ?_, hhi.trans round32_zero, hlo.trans round32_zero⟩
    rw [s.toNat_eposAt_storeResult hsmall hje]
    simp [hpos]

/-! ### What a demodulation answers -/

section

variable {p : Params} {num : Numerics} {xs : List Rat}

/-- Byte `j` of the working copy `xs`: decoded behind its preamble, or without an onset left undecoded. -/
def byteOf (p : Params) (num : Numerics) (xs : List Rat) (j : Nat) : DecodedByte :=
  match onsetOf p num xs with
  | none => undecoded
  | some o => decodeByte p num xs (synchronise p num xs o).start j

theorem demodulate_decoded (p : Params) (num : Numerics) (src : Source) (n : Nat) :
    (demodulate p num (src.words p num) n).decoded = (List.range n).map (byteOf p num (blockCopy p num src)) := by
  cases h : onsetOf p num (blockCopy p num src) with
  | none =>
    have hbyte : byteOf p num (blockCopy p num src) = fun _ => undecoded := by
      funext j
      rw [byteOf, h]
    rw [demodulate_of_no_onset h, hbyte, List.map_const', List.length_range]
    rfl
  | some o =>
    rw [demodulate_of_onset h]
    refine List.map_congr_left fun j _ => ?_
    rw [byteOf, h]

theorem demodulate_confidences (p : Params) (num : Numerics) (src : Source) (n : Nat) :
    (demodulate p num (src.words p num) n).confidences = (List.range n).flatMap fun j =>
      [(byteOf p num (blockCopy p num src) j).confHi, (byteOf p num (blockCopy p num src) j).confLo] := by
  rw [DecodeResult.confidences, demodulate_decoded, List.flatMap_map]

/-- A synchronisation is located, its data within the capture, or the fallback behind the onset (rule R368). -/
theorem synchronise_cases (p : Params) (num : Numerics) (xs : List Rat) (o : Nat) :
    ((synchronise p num xs o).sync = .located ∧ (synchronise p num xs o).start ≤ xs.length) ∨
      ((synchronise p num xs o).sync = .fallback ∧ (synchronise p num xs o).start = o + p.preLen) := by
  cases hbest : bestCandidate p num xs o with
  | none =>
    refine .inr ?_
    rw [synchronise, hbest]
    exact ⟨rfl, rfl⟩
  | some q =>
    rw [synchronise_of_best hbest]
    split
    · exact .inl ⟨rfl, fits_of_mem_candidates (mem_of_firstMax hbest)⟩
    · exact .inr ⟨rfl, rfl⟩

theorem synchronise_start_le {o : Nat} (ho : o ≤ xs.length) :
    (synchronise p num xs o).start ≤ xs.length + p.preLen := by
  rcases synchronise_cases p num xs o with ⟨-, hstart⟩ | ⟨-, hstart⟩ <;> omega

/-! ### Silence (rule R382) -/

theorem normalised_of_allZero (hp : p.Valid) (h : allZero xs = true) : normalised p num xs = xs := by
  rw [normalised, peakOf, if_pos h, if_neg hp.silentPeak_nonneg.not_gt]

/-- Neither threshold is exceeded by 0 (rule R361). -/
theorem onsetOf_of_allZero (hp : p.Valid) (h : allZero xs = true) : onsetOf p num xs = none := by
  refine (onsetOf_eq_none_iff hp).mpr fun k ⟨_, loud⟩ => ?_
  have hnoise : noiseFloor p num xs = 0 := if_pos (allZero_of_sublist (List.take_sublist _ _) h)
  have henergy : windowEnergyOf num (window xs (k * p.onsetStrideN) p.onsetWinN) = 0 :=
    if_pos (allZero_of_sublist ((List.take_sublist _ _).trans (List.drop_sublist _ _)) h)
  rw [hnoise, henergy, mul_zero] at loud
  exact loud.elim (lt_irrefl 0) hp.absFloor_pos.not_gt

/-! ### A capture shorter than the preamble (rules R362, R375) -/

theorem synchronise_of_short {o : Nat} (h : xs.length < p.preLen) :
    synchronise p num xs o = ⟨.fallback, o + p.preLen, 0⟩ := by
  refine synchronise_of_no_candidate (List.eq_nil_iff_forall_not_mem.mpr fun q hq => ?_)
  have := fits_of_mem_candidates hq
  omega

theorem byteOf_of_short (h : xs.length < p.preLen) (j : Nat) : byteOf p num xs j = undecoded := by
  unfold byteOf
  split
  · rfl
  · next o _ =>
    rw [synchronise_of_short h]
    refine decodeByte_of_beyond (h.trans_le ?_)
    calc p.preLen ≤ o + p.preLen := Nat.le_add_left _ _
      _ ≤ slotStart p (o + p.preLen) (2 * j + 1) + p.windowN := by
        unfold slotStart
        omega

end

/-! ### The command -/

/-- A length beyond its memory's capacity (rule R451). -/
theorem exec_demod_of_long {s : State}
    (h : Config.params.maxB < s.rxLen.toNat ∨ Config.params.pcmMax < s.pcmLen.toNat) :
    ∃ t, exec .demod s = .next t ∧ Safety.FailedWith .badLength s t := by
  have hlong : s.captureTooLong = true := by simpa [State.captureTooLong] using h
  exact ⟨_, execDemod_of_long hlong, failedWith_finish s _⟩

/-- What DEMOD reads, as a source of samples (rule R380). -/
def State.capture (s : State) : Source := .capture (s.pcmRange s.pcmLen.toNat)

/-- The working copy of PCM[0..PCM_LEN) (rule R358). -/
def State.workingCopy (s : State) : List Rat := blockCopy Config.params Config.numerics s.capture

theorem State.workingCopy_length (s : State) : s.workingCopy.length = s.pcmLen.toNat := by
  rw [State.workingCopy, Reference.length_blockCopy, State.capture, Reference.Source.words_capture,
    State.pcmRange_length]

theorem State.workingCopy_eq (s : State) :
    s.workingCopy = normalised Config.params Config.numerics
      ((List.range s.pcmLen.toNat).map fun n => sampleValue Config.numerics (s.pcmAt n)) := by
  rw [State.workingCopy, blockCopy, State.capture, Reference.Source.words_capture, State.pcmRange, List.map_map]
  rfl

theorem State.demodResult_eq (s : State) :
    s.demodResult = demodulate Config.params Config.numerics (s.capture.words Config.params Config.numerics)
      s.rxLen.toNat := rfl

theorem State.demodResult_getElem? {s : State} {j : Nat} (h : j < s.rxLen.toNat) :
    s.demodResult.decoded[j]? = some (byteOf Config.params Config.numerics s.workingCopy j) := by
  rw [s.demodResult_eq, demodulate_decoded, List.getElem?_map, List.getElem?_range h]
  rfl

theorem State.demodResult_of_onsetOf_none {s : State}
    (h : onsetOf Config.params Config.numerics s.workingCopy = none) :
    s.demodResult = noSignalResult s.rxLen.toNat := demodulate_of_no_onset h _

theorem State.demodResult_of_onsetOf_some {s : State} {o : Nat}
    (h : onsetOf Config.params Config.numerics s.workingCopy = some o) :
    s.demodResult = decodeFrom Config.params Config.numerics s.workingCopy o s.rxLen.toNat := demodulate_of_onset h _

/-- The elements that storing the demodulation writes, by RX_LEN and DM_ERRCNT (rule R379). -/
theorem State.elemsSame_storeDemodResult (s : State) :
    Safety.ElemsSame (fun m k => (m = .bytes ∧ k < s.rxLen.toNat) ∨ (m = .nconf ∧ k < 2 * s.rxLen.toNat) ∨
      (m = .epos ∧ k < (s.storeResult s.demodResult).dmErrCnt.toNat)) s (s.storeResult s.demodResult) := by
  have hsmall : s.demodResult.decoded.length < 2 ^ 32 := s.demodResult_length ▸ s.rxLen.isLt
  have h := s.elemsSame_storeResult s.demodResult
  rwa [s.demodResult_length, ← s.toNat_storeResult_dmErrCnt hsmall] at h

/-- The registers after a demodulation with the onset `o`: onset and start fit them, PCM_MAX being at most 2^21. -/
theorem State.storeDemodResult_of_onset {s : State} {o : Nat} (hpcm : s.pcmLen.toNat ≤ Config.params.pcmMax)
    (h : onsetOf Config.params Config.numerics s.workingCopy = some o) :
    (s.storeResult s.demodResult).dmSync = (synchronise Config.params Config.numerics s.workingCopy o).sync ∧
      (s.storeResult s.demodResult).dmOnset.toNat = o ∧
      (s.storeResult s.demodResult).dmStart.toNat =
        (synchronise Config.params Config.numerics s.workingCopy o).start ∧
      (s.storeResult s.demodResult).dmScore =
        round32 (synchronise Config.params Config.numerics s.workingCopy o).score := by
  have hlen := s.workingCopy_length
  have honset := onsetOf_fits h
  have hstart := synchronise_start_le (p := Config.params) (num := Config.numerics)
    ((Nat.le_add_right _ _).trans honset)
  have hpre := Config.preLen_le
  have hmax := Config.pcmMax_le
  rw [State.demodResult_of_onsetOf_some h]
  refine ⟨rfl, ?onset, ?start, rfl⟩
  case onset => exact Nat.mod_eq_of_lt (show o < 2 ^ 32 by omega)
  case start =>
    exact Nat.mod_eq_of_lt
      (show (synchronise Config.params Config.numerics s.workingCopy o).start < 2 ^ 32 by omega)

end Sys2Proof.Machine

namespace Sys2Proof

open Sys2Proof.Machine Sys2Proof.Safety

/-- Settles O28: a demodulation of any capture has a result of RX_LEN bytes, and DEMOD stores it. -/
theorem demodAlwaysCompletes : Obligations.DemodAlwaysCompletes := by
  refine ⟨fun s hrx hpcm => ?fits, fun s hlong => exec_demod_of_long hlong⟩
  case fits =>
    have hlen := s.demodResult_length
    have hsmall : s.demodResult.decoded.length < 2 ^ 32 := hlen ▸ s.rxLen.isLt
    refine ⟨_, execDemod_of_fits (captureTooLong_eq_false.mpr ⟨hrx, hpcm⟩),
      completedWith_finish (.storeResult s _), rfl, rfl, demodulate_sync_ne_none _ _ _ _, ?count,
      fun e he => hlen ▸ s.eposAt_storeResult_lt hsmall he, fun e he => s.eposAt_storeResult_lt_succ hsmall he,
      regsSame_finish _ (by decide) (by decide) (s.regsSame_storeResult _),
      elemsSame_finish _ s.elemsSame_storeDemodResult⟩
    rw [State.finish_dmErrCnt, s.toNat_storeResult_dmErrCnt hsmall, ← hlen]
    exact s.demodResult.errorPositions_length_le

/-- Settles O29: the stored result is that of the working copy, byte by byte, with or without an onset. -/
theorem demodStoresTheResult : Obligations.DemodStoresTheResult := by
  refine ⟨?fits, fun s hlong => exec_demod_of_long hlong⟩
  case fits =>
    intro s hrx hpcm p num raw xs d
    have hxs : xs = s.workingCopy := s.workingCopy_eq.symm
    have hd : d = byteOf p num s.workingCopy := congrArg (byteOf p num) hxs
    have hlen := s.demodResult_length
    have hsmall : s.demodResult.decoded.length < 2 ^ 32 := hlen ▸ s.rxLen.isLt
    rw [hd, hxs]
    refine ⟨_, execDemod_of_fits (captureTooLong_eq_false.mpr ⟨hrx, hpcm⟩),
      completedWith_finish (.storeResult s _), rfl,
      regsSame_finish _ (by decide) (by decide) (s.regsSame_storeResult _), fun j hj => ?bytes,
      fun e he => hlen ▸ s.eposAt_storeResult_lt hsmall he, fun e he => s.eposAt_storeResult_lt_succ hsmall he, rfl,
      congrArg (fun cs => round32 (meanOf num cs)) (demodulate_confidences p num s.capture _), fun hnone => ?noSignal,
      fun o ho => ?signal, elemsSame_finish _ s.elemsSame_storeDemodResult⟩
    case bytes =>
      have hbyte := State.demodResult_getElem? hj
      obtain ⟨hhi, hlo⟩ := s.nconfAt_storeResult_of_byte hbyte
      exact ⟨s.bytesAt_storeResult_of_byte hbyte, hhi, hlo, s.flagged_iff_exists_eposAt hsmall hbyte⟩
    case noSignal =>
      rw [State.demodResult_of_onsetOf_none hnone]
      exact ⟨rfl, rfl, rfl, round32_zero⟩
    case signal =>
      obtain ⟨hsync, honset, hstart, hscore⟩ := State.storeDemodResult_of_onset hpcm ho
      refine ⟨?_, honset, hstart, hscore⟩
      have hread : ((s.storeResult s.demodResult).finish .none).readReg .dmSync =
          (synchronise p num s.workingCopy o).sync.toWord := congrArg Sync.toWord hsync
      rcases synchronise_cases p num s.workingCopy o with ⟨h, -⟩ | ⟨h, -⟩
      · exact .inl ⟨h, hread.trans (congrArg Sync.toWord h)⟩
      · exact .inr ⟨h, hread.trans (congrArg Sync.toWord h)⟩

/-- Settles O30: a silent capture has no onset, and without an onset no byte is decoded. -/
theorem demodOfSilenceIsNoSignal : Obligations.DemodOfSilenceIsNoSignal := by
  intro s hrx hpcm hzero
  have hsilent : allZero ((List.range s.pcmLen.toNat).map fun n => sampleValue Config.numerics (s.pcmAt n)) =
      true := by
    refine allZero_iff.mpr (List.forall_mem_map.mpr fun n hn => ?_)
    obtain ⟨hfinite, hvalue⟩ := hzero n (List.mem_range.mp hn)
    simp [sampleValue, hfinite, hvalue]
  have honset : onsetOf Config.params Config.numerics s.workingCopy = none := by
    rw [s.workingCopy_eq, normalised_of_allZero Config.params_valid hsilent]
    exact onsetOf_of_allZero Config.params_valid hsilent
  have hres := State.demodResult_of_onsetOf_none honset
  obtain ⟨hconf, hcount, hbytes⟩ := s.storeResult_of_undecoded s.demodResult_length fun d hd => by
    rw [hres] at hd
    exact List.eq_of_mem_replicate hd
  refine ⟨_, execDemod_of_fits (captureTooLong_eq_false.mpr ⟨hrx, hpcm⟩), rfl, ?sync, ?onset, ?start, ?score, hconf,
    rfl, hcount, hbytes⟩
  case score =>
    rw [State.finish_dmScore, State.storeResult_dmScore, hres]
    exact round32_zero
  all_goals
    rw [hres]
    rfl

/-- Settles O31: without room for a preamble there is no candidate, and the fallback's data starts beyond the end. -/
theorem demodOfAShortCaptureFlagsEverything : Obligations.DemodOfAShortCaptureFlagsEverything := by
  intro s hrx hshort
  have hxs : s.workingCopy.length < Config.params.preLen := s.workingCopy_length ▸ hshort
  have hpcm : s.pcmLen.toNat ≤ Config.params.pcmMax := hshort.le.trans Config.preLen_le
  obtain ⟨hconf, hcount, hbytes⟩ := s.storeResult_of_undecoded s.demodResult_length fun d hd => by
    obtain ⟨j, hj, hget⟩ := List.mem_iff_getElem.mp hd
    have hbyte := State.demodResult_getElem? (s.demodResult_length ▸ hj)
    rw [List.getElem?_eq_getElem hj, hget, byteOf_of_short hxs] at hbyte
    exact Option.some.inj hbyte
  have hsync : (s.demodResult.sync = .fallback ∨ s.demodResult.sync = .noSignal) ∧ s.demodResult.score = 0 := by
    cases honset : onsetOf Config.params Config.numerics s.workingCopy with
    | none =>
      rw [State.demodResult_of_onsetOf_none honset]
      exact ⟨.inr rfl, rfl⟩
    | some o =>
      rw [State.demodResult_of_onsetOf_some honset, decodeFrom, synchronise_of_short hxs]
      exact ⟨.inl rfl, rfl⟩
  obtain ⟨hsync, hscore⟩ := hsync
  refine ⟨_, execDemod_of_fits (captureTooLong_eq_false.mpr ⟨hrx, hpcm⟩), rfl, hsync, ?score, hconf, rfl, hcount,
    hbytes⟩
  rw [State.finish_dmScore, State.storeResult_dmScore, hscore, round32_zero]

end Sys2Proof
end

section
/-!
PROOFS. The sequencer and the host (45_control.md): when the phase and DONE change, what a write does while a command
runs, the soft reset, and that no command blocks (statements O6, O49, O53, O58, O59).
-/

namespace Sys2Proof.Machine

variable {s : State} {v : Word}

/-! ### Writes that do not reach their word, and the soft reset -/

/-- While BUSY the host can write CTRL and STATUS only (rule R425). -/
theorem writableWhileBusy_of_ne {t : Target} (hctrl : t ≠ .reg .ctrl) (hstatus : t ≠ .reg .status) :
    writableWhileBusy t = false := by
  unfold writableWhileBusy
  split
  · exact absurd rfl hctrl
  · exact absurd rfl hstatus
  · rfl

theorem State.writeCtrl_of_reset (h : v.getLsbD 0 = true) : s.writeCtrl v = s.softReset := by
  rw [State.writeCtrl, if_pos h]

/-- With no command to abort a soft reset changes no element (rule R427). -/
theorem State.memorySame_softReset (h : s.phase = .idle) : Safety.MemorySame s s.softReset := fun m k f => by
  rw [State.softReset, State.abort_of_idle h, State.readElem_resetRegisters]

/-! ### What the host can do to the phase and DONE -/

/-- A write keeps the phase and sets no DONE, or it is a soft reset, or in phase IDLE the issue of its word. -/
theorem State.memWrite_control (s : State) (a : Addr) (v : Word) :
    ((s.memWrite a v).phase = s.phase ∧ ((s.memWrite a v).done = true → s.done = true)) ∨
      s.memWrite a v = s.softReset ∨
      (s.phase = .idle ∧ locate a = .reg .cmd ∧ s.memWrite a v = s.issue v) := by
  rcases s.memWrite_cases a v with ⟨-, -, heq⟩ | ⟨hgoes, ⟨r, hloc, heq⟩ | ⟨m, k, f, -, heq⟩ | ⟨-, heq⟩⟩ <;> rw [heq]
  case inl => exact .inl ⟨rfl, id⟩
  case inr.inr.inr => exact .inl ⟨rfl, id⟩
  case inr.inr.inl => cases m <;> exact .inl ⟨rfl, id⟩
  case inr.inl =>
    cases r
    case ctrl =>
      cases hv : v.getLsbD 0
      · exact .inl (by rw [State.writeReg, State.writeCtrl_of_noReset hv]; exact ⟨rfl, id⟩)
      · exact .inr (.inl (State.writeCtrl_of_reset hv))
    case status => exact .inl ⟨rfl, fun hdone => (Bool.and_eq_true_iff.mp hdone).1⟩
    case cmd =>
      cases hs : s.phase with
      | idle => exact .inr (.inr ⟨rfl, hloc, rfl⟩)
      | busy c =>
        rw [State.busyFlag_of_busy hs, hloc] at hgoes
        exact absurd hgoes (by decide)
    all_goals exact .inl ⟨rfl, id⟩

/-- A turn of the host keeps the phase and sets no DONE, or resets both, or issues a word written to CMD (rule R421). -/
theorem State.hostTurn_control (s : State) :
    (s.hostTurn.phase = s.phase ∧ (s.hostTurn.done = true → s.done = true)) ∨
      (s.hostTurn.phase = .idle ∧ s.hostTurn.done = false) ∨
      ∃ a v rest, s.phase = .idle ∧ s.agenda = .hostWrite a v :: rest ∧ locate a = .reg .cmd ∧
        s.hostTurn.phase = .busy v ∧ s.hostTurn.done = false := by
  unfold State.hostTurn
  split
  · exact .inl ⟨rfl, id⟩
  · exact .inl ⟨rfl, id⟩
  · next a v rest hagenda =>
    rcases (s.withAgenda rest).memWrite_control a v with hkept | heq | ⟨hs, hloc, heq⟩
    · exact .inl hkept
    · rw [heq]
      exact .inr (.inl ⟨rfl, rfl⟩)
    · rw [heq, State.issue_of_idle hs]
      exact .inr (.inr ⟨a, v, rest, hs, hagenda, hloc, rfl, rfl⟩)
  · exact .inl ⟨rfl, id⟩
  · exact .inr (.inl ⟨rfl, rfl⟩)

/-! ### Runs to IDLE -/

/-- A step while BUSY completes the command or uses up a turn of the agenda (rule R420). -/
theorem step_of_busy {c : Word} (h : s.phase = .busy c) :
    ∃ t, step s = .next t ∧ (t.phase = .idle ∨ ∃ turn, s.agenda = turn :: t.agenda) := by
  rcases State.completing_busy h with hc | ⟨hc, turn, rest, hagenda, -⟩
  · obtain ⟨t, ht, hidle, -⟩ := step_of_completing hc
    exact ⟨t, ht, .inl hidle⟩
  · exact ⟨_, step_of_not_completing hc, .inr ⟨turn, by rw [State.hostTurn_agenda hagenda, hagenda]⟩⟩

/-- Each step while BUSY leaves one turn fewer, and with no turn left the command completes. -/
theorem exists_run_idle (s : State) :
    ∃ k, k ≤ s.agenda.length + 1 ∧ ∃ t, Sys2Proof.core.run k s = .next t ∧ t.phase = .idle := by
  cases hs : s.phase with
  | idle => exact ⟨0, Nat.zero_le _, s, rfl, hs⟩
  | busy c =>
    obtain ⟨t, ht, hidle | ⟨turn, hagenda⟩⟩ := step_of_busy hs
    · exact ⟨1, Nat.le_add_left 1 _, t, run_succ_of_next ht 0, hidle⟩
    · obtain ⟨k, hk, u, hu, hidle⟩ := exists_run_idle t
      refine ⟨k + 1, ?_, u, (run_succ_of_next ht k).trans hu, hidle⟩
      rw [hagenda]
      exact Nat.succ_le_succ hk
termination_by s.agenda.length
decreasing_by
  rw [hagenda]
  exact Nat.lt_succ_self _

end Sys2Proof.Machine

namespace Sys2Proof

open Sys2Proof.Machine Sys2Proof.Safety

/-- Settles O6, by induction on the length of the agenda. -/
theorem noCommandBlocks : Obligations.NoCommandBlocks := exists_run_idle

/-- Settles O49: the dropped write, the write to STATUS, and the two writes to CTRL. -/
theorem writesWhileBusyAreDropped : Obligations.WritesWhileBusyAreDropped := by
  intro s a v c hs
  refine ⟨fun hctrl hstatus => ?dropped, fun hloc => ?status, fun hloc hv => ?irqEn, fun hloc hv => ?reset⟩
  case dropped =>
    rw [State.memWrite_of_dropped hs (writableWhileBusy_of_ne hctrl hstatus)]
    exact ⟨rfl, hs, rfl, rfl, fun r hr => State.readReg_setOvr (by simpa using hr) true,
      (s.setOvr_storeSame true).memorySame⟩
  case status =>
    rw [State.memWrite_status hloc]
    exact ⟨rfl, rfl, hs, State.writeReg_frame (r := .status) (by decide) (by decide) v⟩
  case irqEn =>
    rw [State.memWrite_ctrl hloc, State.writeCtrl_of_noReset hv]
    exact ⟨rfl, hs, fun r hr => State.readReg_setIrqEn (by simpa using hr) _, (s.setIrqEn_storeSame _).memorySame⟩
  case reset =>
    rw [State.memWrite_ctrl hloc, State.writeCtrl_of_reset hv]
    rfl

/-- Settles O53: the write is the soft reset, which redraws the abort set of the running command and nothing else. -/
theorem softResetAbortsAndClears : Obligations.SoftResetAbortsAndClears := by
  intro s a v hloc hv
  rw [State.memWrite_ctrl hloc, State.writeCtrl_of_reset hv]
  refine ⟨rfl, rfl, State.readReg_resetRegisters _, State.memorySame_softReset, fun c hs => ⟨?others, ?redrawn⟩⟩
  case others =>
    intro m k f hnot
    rw [State.readElem_softReset_of_busy hs, if_neg]
    rintro ⟨⟨_, n⟩, he, rfl, hk⟩
    exact hnot ⟨n, he, hk⟩
  case redrawn =>
    intro m n k f he hk
    rw [State.readElem_softReset_of_busy hs, if_pos ⟨(m, n), he, rfl, hk⟩]

/-- Settles O58: any other step is a turn of the host, which sets no DONE. -/
theorem onlyCompletionSetsDone : Obligations.OnlyCompletionSetsDone := by
  intro s t ht hclear hset
  cases hc : s.completing with
  | some c => exact ⟨c, State.completing_eq_some.mp hc⟩
  | none =>
    cases (step_of_not_completing hc).symm.trans ht
    rcases s.hostTurn_control with ⟨-, hkept⟩ | ⟨-, hreset⟩ | ⟨a, v, rest, -, -, -, -, hissued⟩
    · exact absurd (hkept hset) (ne_true_of_eq_false hclear)
    · exact absurd hset (ne_true_of_eq_false hreset)
    · exact absurd hset (ne_true_of_eq_false hissued)

/-- Settles O59: a completion ends in IDLE, so the step is a turn of the host. -/
theorem onlyCmdWritesStartCommands : Obligations.OnlyCmdWritesStartCommands := by
  intro s t c ht hne hbusy
  cases hc : s.completing with
  | some c' =>
    obtain ⟨u, hu, hidle, -⟩ := step_of_completing hc
    cases hu.symm.trans ht
    cases hidle.symm.trans hbusy
  | none =>
    cases (step_of_not_completing hc).symm.trans ht
    rcases s.hostTurn_control with ⟨hkept, -⟩ | ⟨hreset, -⟩ | ⟨a, v, rest, hs, hagenda, hloc, hissued, -⟩
    · exact absurd (hkept.symm.trans hbusy) hne
    · cases hreset.symm.trans hbusy
    · cases hissued.symm.trans hbusy
      exact ⟨hs, a, rest, hagenda, hloc⟩

end Sys2Proof
end

section
/-!
PROOFS. Errors (60_exceptions.md): which error a command can end with, and its cause, each said once (statements O42,
O43). No command has two errors, so the code in ERR names the commands that can have written it.
-/

namespace Sys2Proof.Machine

/-- The one error a command can end with, NONE where it has none (rule R450). -/
def errorOf : Instr → ErrCode
  | .crc | .verify | .pack | .unpackL => .none
  | .unpackS => .checksumMismatch
  | .packf => .lengthMismatch
  | .unpackf => .truncatedFrame
  | .tones | .mod | .demod => .badLength

/-- What makes a command run in `s` end with its error (rules R242, R262, R263, R451). -/
def Fails (s : State) : Instr → Prop
  | .crc | .verify | .pack | .unpackL => False
  | .unpackS => crc16 ((List.range 17).map s.codeAt) ≠ s.codeAt 17 ++ s.codeAt 18
  | .packf => ¬ (s.codeLen = 24 ∧ s.sigLen = 64 ∧ s.pkLen = 32)
  | .unpackf => s.bLen ≠ 120
  | .tones | .mod => Config.params.maxB < s.bLen.toNat
  | .demod => Config.params.maxB < s.rxLen.toNat ∨ Config.params.pcmMax < s.pcmLen.toNat

variable {i : Instr} {s t : State} {e : ErrCode}

theorem captureTooLong_eq_true :
    s.captureTooLong = true ↔ Config.params.maxB < s.rxLen.toNat ∨ Config.params.pcmMax < s.pcmLen.toNat := by
  simp [State.captureTooLong]

/-! ### The end of a command by its cause -/

theorem exec_of_fails (h : Fails s i) : exec i s = .next (s.finish (errorOf i)) := by
  cases i
  case unpackS => exact execUnpackS_of_mismatch (s.check_snd_eq_decide.trans (decide_eq_false h))
  case packf => exact execPackf_of_bad (Bool.eq_false_iff.mpr (mt s.lengthsOk_iff.mp h))
  case unpackf => exact execUnpackf_of_bad h
  case tones => exact execTones_of_long h
  case mod => exact execMod_of_long h
  case demod => exact execDemod_of_long (captureTooLong_eq_true.mpr h)
  all_goals exact h.elim

theorem exec_of_not_fails (h : ¬ Fails s i) : ∃ u, exec i s = .next (State.finish u .none) := by
  cases i
  case crc => exact ⟨_, execCrc_eq s⟩
  case verify => exact ⟨_, execVerify_eq s⟩
  case pack => exact ⟨_, execPack_eq s⟩
  case unpackL => exact ⟨_, execUnpackL_eq s⟩
  case unpackS => exact ⟨_, (exec_unpack_of_valid (not_not.mp h)).1⟩
  case packf => exact ⟨_, execPackf_of_ok (s.lengthsOk_iff.mpr (not_not.mp h))⟩
  case unpackf => exact ⟨_, execUnpackf_of_ok (not_not.mp h)⟩
  case tones => exact ⟨_, execTones_of_fits (not_lt.mp h)⟩
  case mod => exact ⟨_, execMod_of_fits (not_lt.mp h)⟩
  case demod => exact ⟨_, execDemod_of_fits (Bool.eq_false_iff.mpr (mt captureTooLong_eq_true.mp h))⟩

/-! ### The code in ERR after a command -/

theorem exec_err_eq_iff (ht : exec i s = .next t) (he : e ≠ .none) : t.err = e ↔ Fails s i ∧ errorOf i = e := by
  by_cases h : Fails s i
  · cases (exec_of_fails h).symm.trans ht
    exact (and_iff_right h).symm
  · obtain ⟨u, hu⟩ := exec_of_not_fails h
    cases hu.symm.trans ht
    exact iff_of_false he.symm fun hfails => h hfails.1

/-- An error that one command alone can end with says that it was this command, and why. -/
theorem exec_err_eq_iff_of_sole {j : Instr} (ht : exec i s = .next t) (he : e ≠ .none)
    (hsole : errorOf i = e ↔ i = j) : t.err = e ↔ i = j ∧ Fails s j := by
  rw [exec_err_eq_iff ht he, hsole, and_comm]
  exact and_congr_right fun hij => hij ▸ Iff.rfl

/-- Only an illegal word raises ILLEGAL_CMD (rule R142). -/
theorem errorOf_ne_illegalCmd (i : Instr) : errorOf i ≠ .illegalCmd := by cases i <;> decide

theorem errorOf_eq_lengthMismatch_iff : errorOf i = .lengthMismatch ↔ i = .packf := by cases i <;> decide

theorem errorOf_eq_truncatedFrame_iff : errorOf i = .truncatedFrame ↔ i = .unpackf := by cases i <;> decide

theorem errorOf_eq_checksumMismatch_iff : errorOf i = .checksumMismatch ↔ i = .unpackS := by cases i <;> decide

/-- BAD_LENGTH is the error of three commands, two of which check BLEN (rule R451). -/
theorem exec_err_eq_badLength_iff (ht : exec i s = .next t) :
    t.err = .badLength ↔
      ((i = .tones ∨ i = .mod) ∧ Config.params.maxB < s.bLen.toNat) ∨
      (i = .demod ∧ (Config.params.maxB < s.rxLen.toNat ∨ Config.params.pcmMax < s.pcmLen.toNat)) := by
  rw [exec_err_eq_iff ht (by decide)]
  cases i <;> simp [Fails, errorOf]

end Sys2Proof.Machine

namespace Sys2Proof

open Sys2Proof.Machine Sys2Proof.Safety

/-- Settles O42: a command that ends with an error completes from the state at issue. -/
theorem errorsArePrecise : Obligations.ErrorsArePrecise := by
  intro i s t ht herr
  obtain ⟨hfails, -⟩ := (exec_err_eq_iff ht herr).mp rfl
  cases (exec_of_fails hfails).symm.trans ht
  exact ⟨failedWith_finish s (errorOf i), Bool.and_true s.irqEn⟩

/-- Settles O43: ERR reads the code's number; each code is the error of its commands, and they have it for their cause
alone. -/
theorem errorCodesSayTheCause : Obligations.ErrorCodesSayTheCause := by
  refine ⟨fun s => ?numbers, fun i s t ht => ⟨fun hill => ?illegal, exec_err_eq_badLength_iff ht,
    exec_err_eq_iff_of_sole ht (by decide) errorOf_eq_lengthMismatch_iff,
    exec_err_eq_iff_of_sole ht (by decide) errorOf_eq_truncatedFrame_iff,
    exec_err_eq_iff_of_sole ht (by decide) errorOf_eq_checksumMismatch_iff⟩⟩
  case numbers =>
    rw [State.readReg]
    cases s.err <;> rfl
  case illegal => exact errorOf_ne_illegalCmd i ((exec_err_eq_iff ht (by decide)).mp hill).2

end Sys2Proof
end

section
/-!
PROOFS. The reset state (70_reset_and_hazards.md rule R500) meets the invariant (statement O8), so with statement O7 the
invariant holds of every state the machine reaches from it.
-/

namespace Sys2Proof

/-- Settles O8, by the lemma that the resets' own proofs start from: no element is written, the phase is IDLE, and every
count and result is 0. -/
theorem resetMeetsInv : Obligations.ResetMeetsInv := Sys2Proof.Safety.Inv.reset

end Sys2Proof
end
